-- ==== Sys2Proof/Word.lean ====
section
/-! DEFINITION. The word and byte types. Every register and every bus value of the block is 32 bits wide
(10_state.md section 2, 20_memory.md R62); every buffer element is a byte (10_state.md R34 to R36). -/

namespace Sys2Proof

/-- A 32-bit register or bus value. -/
abbrev Word := BitVec 32

/-- One byte of a buffer, of the wire header or of a frame. -/
abbrev Byte := BitVec 8

end Sys2Proof
end

