-- ==== Sys2Proof/Syntax.lean ====
section
/-! DEFINITION. The data the block's rules speak of: the four commands (30_encoding.md R100), the structured header
and its fields (40_codec.md R130), the named registers (10_state.md R20), the command errors (60_exceptions.md R200),
bus accesses (20_memory.md R62), the host notation (30_encoding.md R104, R105) and the host agent's configuration
(60_exceptions.md R220). Types only: every function over them stands in a file of Machine/. -/

namespace Sys2Proof

/-- The four commands of 30_encoding.md R100. None has an operand field (R99): every operand is read from registers
and buffers. -/
inductive Instr where
  | validate
  | encode
  | decode
  | marshal
deriving DecidableEq, Repr

/-- Why a command word is no command (30_encoding.md R101): both kinds raise IllegalCommand with the word's
bits [3:0]. -/
inductive Reject where
  /-- RSVD = v[31:4] is not zero. -/
  | reservedBits (opc : BitVec 4)
  /-- RSVD is zero and OPC is none of 1, 2, 3, 4. -/
  | illegalOpcode (opc : BitVec 4)
deriving DecidableEq, Repr

/-- The 14 header fields, in index order (40_codec.md R130). -/
inductive Field where
  | biftId | tc | s | ttl | nibble | version | bsl | entropy | oam | rsv | dscp | proto | bfirId | bitstring
deriving DecidableEq, Repr

/-- A structured header: 14 natural numbers, each of which may lie outside its field's range (40_codec.md R130). -/
structure Header where
  biftId    : Nat
  tc        : Nat
  s         : Nat
  ttl       : Nat
  nibble    : Nat
  version   : Nat
  bsl       : Nat
  entropy   : Nat
  oam       : Nat
  rsv       : Nat
  dscp      : Nat
  proto     : Nat
  bfirId    : Nat
  bitstring : Nat
deriving DecidableEq, Repr

/-- The block's registers by name (10_state.md R20). -/
inductive Reg where
  | cmd | status | wlen | mcfg | ethDstHi | ethDstLo | ethSrcHi | ethSrcLo | etypeBier | etypeIp | l3len | flen
  | fBiftId | fTc | fS | fTtl | fNibble | fVersion | fBsl | fEntropy | fOam | fRsv | fDscp | fProto | fBfirId
  | bs0 | bs1 | bs2 | bs3 | bs4 | bs5 | bs6 | bs7
deriving DecidableEq, Repr

/-- The two causes of LengthError (60_exceptions.md R204). -/
inductive LengthCause where
  /-- ERRINFO 0: DECODE's input length WLEN.LEN is not 44. -/
  | decodeInput
  /-- ERRINFO 1: MARSHAL's L3LEN.LEN is above L3_MAX. -/
  | l3Length
deriving DecidableEq, Repr

/-- The errors a command can end in (60_exceptions.md R200). -/
inductive CmdError where
  | rangeError (f : Field)
  | lengthError (cause : LengthCause)
  | illegalCommand (opc : BitVec 4)
deriving DecidableEq, Repr

/-- The marshaller's configuration argument `cfg` (41_marshal.md R170). -/
structure FrameCfg where
  dst    : BitVec 48
  src    : BitVec 48
  bierEn : Bool
  etBier : BitVec 16
  etIp   : BitVec 16
deriving DecidableEq, Repr

/-- What a mapped word of the register window is (20_memory.md R61). -/
inductive Slot where
  | reg (r : Reg)
  | wbuf (j : Nat)
  | l3buf (j : Nat)
  | fbuf (j : Nat)
deriving DecidableEq, Repr

/-- The two kinds of transaction (20_memory.md R62). -/
inductive Op where
  | read
  | write (v : Word)
deriving DecidableEq, Repr

/-- One transaction of the bus master: a byte address of the host's address space, a width in bits and the
operation (20_memory.md R60, R62). -/
structure Access where
  addr : Nat
  bits : Nat
  op   : Op
deriving DecidableEq, Repr

/-- A target of the host notation (30_encoding.md R104): buffer targets name their word `j`, at byte `4j`. -/
inductive Target where
  | reg (r : Reg)
  | wbuf (j : Nat)
  | l3buf (j : Nat)
  | fbuf (j : Nat)
  | raw (off : Nat)
deriving DecidableEq, Repr

/-- One line of a host program (30_encoding.md R104): one bus transaction. -/
inductive Line where
  | wr (t : Target) (v : Word)
  | rd (t : Target)
deriving DecidableEq, Repr

/-- The pseudo-instructions of 30_encoding.md R105. -/
inductive Pseudo where
  | command (i : Instr)
  | ldHdr (h : Header)
  | ldMacDst (a : BitVec 48)
  | ldMacSrc (a : BitVec 48)
  | ldBufL3 (bytes : List Byte)
  | ldBufW (bytes : List Byte)
deriving DecidableEq, Repr

/-- A network address of the destination pool: "IPv4 or IPv6 literals" (60_exceptions.md R220). -/
inductive Destination where
  | ipv4 (a : BitVec 32)
  | ipv6 (a : BitVec 128)
deriving DecidableEq, Repr

/-- A kind of transport error; the spec fixes no set of them (60_exceptions.md R220, R225). -/
abbrev TransportKind := Nat

/-- What the external `send` answers (60_exceptions.md R220). -/
inductive SendResult where
  | ok
  | transportError (kind : TransportKind)
deriving DecidableEq, Repr, Inhabited

/-- GeneratorConfig (60_exceptions.md R220), with the two ethertypes that construction writes (R222 step 2) and the
interface name `send` is given. The pool is a list, drawn from by index: an address named twice stands in it twice, which
the spec's "ordered, non-empty set" leaves open (DESIGN CHOICE, log 15). -/
structure GeneratorConfig where
  interval  : Nat
  ethDst    : BitVec 48
  ethSrc    : BitVec 48
  etypeBier : BitVec 16
  etypeIp   : BitVec 16
  template  : Option Header
  pool      : List Destination
  payload   : List Byte
  ifName    : String
deriving DecidableEq, Repr

/-- The host's own error type (60_exceptions.md R230): its two errors, and a command error carried from STATUS. -/
inductive HostError where
  | emptyPoolError
  | transportError (kind : TransportKind)
  | command (e : CmdError)
deriving DecidableEq, Repr

end Sys2Proof
end

