-- ==== Sys2Proof/Config.lean ====
section
/-! DEFINITION. What an implementation fixes (00_scope.md R6) and the free values: the values the spec leaves
unspecified (10_state.md R36, R37, 70_reset_and_hazards.md R241) and the host's collaborators, which it leaves to the
platform (60_exceptions.md R220). A free value is an opaque constant: nothing can evaluate it or prove a value of it. -/

namespace Sys2Proof

/-- The implementation parameters of 00_scope.md R6 and 60_exceptions.md R212. Every value of this type is a legal
choice: L3_MAX is `4 * (l3Sel + 1)`, BHC_BASE is 16 KiB times `baseSel`. -/
structure Params where
  l3Sel       : Fin 1024
  baseSel     : Nat
  multiMaster : Bool
deriving DecidableEq, Repr

namespace Config

/-- The byte that address `a` of the window holds after reset number `epoch` until it is written: one free draw per
byte and reset (10_state.md R37, 70_reset_and_hazards.md R240, R241). -/
opaque powerOnByte (epoch a : Nat) : Byte

/-- The free value number `n` for a bus read of FBUF lanes that hold no frame byte (10_state.md R36). -/
opaque freeWord (n : Nat) : Word

/-- What LDHDR writes to a field register for a value of 2^32 or more, which the register cannot hold
(92_eei_decisions.md D7; DESIGN CHOICE, log 13). -/
opaque heldWord (f : Field) (v : Nat) : Word

/-- What LDBUF writes to L3LEN for a length of 2^32 or more, which no transaction carries (30_encoding.md R104; DESIGN
CHOICE, log 13). -/
opaque heldLength (n : Nat) : Word

/-- What the host writes to L3LEN for `n` serialized bytes where LDBUF's own value would not let MARSHAL report that there
are too many (60_exceptions.md R229), as the distance above L3_MAX + 1 before it is bounded (DESIGN CHOICE, log 17). -/
opaque overLength (n : Nat) : Nat

/-- The host's random source, draw number `n` (60_exceptions.md R220, R224). -/
opaque rngDraw (n : Nat) : Nat

/-- The external L3 serializer (60_exceptions.md R220). -/
opaque serialize (dst : Destination) (payload : List Byte) : List Byte

/-- What the external `send` answers, call number `n` (60_exceptions.md R220). -/
opaque sendResult (n : Nat) (ifName : String) (frame : List Byte) : SendResult

/-- The fatal-error classifier, an OPEN parameter (60_exceptions.md R220, R225). -/
opaque isFatal (kind : TransportKind) : Bool

/-- The clock of the log's timestamps, reading number `n` (60_exceptions.md R220). -/
opaque clock (n : Nat) : Nat

/-- Whether the external stop signal has arrived by poll number `n` (60_exceptions.md R228). -/
opaque stopSignal (n : Nat) : Bool

end Config
end Sys2Proof
end

