-- ==== Sys2Proof/Machine/State.lean ====
section
/-! DEFINITION. The state as plain data: the block (10_state.md R20), its implementation parameters, the bus port,
the host agent (60_exceptions.md R212, R221), and the reset state (10_state.md R37). -/

namespace Sys2Proof.Machine

/-- Why the machine stops with a fault. There is no such reason: every transaction the block accepts completes
(70_reset_and_hazards.md R248), a command error is recorded in STATUS and the block goes on (60_exceptions.md R203,
R207), and a bus error is a response (R201). So the type has no constructor (log 9). -/
inductive Fault where
deriving DecidableEq, Repr

/-- Why a step is refused. -/
inductive Refusal where
  /-- Raised by an arm of `exec` whose instruction has no meaning yet. Safe: nothing is claimed of it. -/
  | notModelled (mnemonic : String)
  /-- Raised by `step` where MULTI_MASTER is true: "no semantics given" (60_exceptions.md R212). Safe (log 5). -/
  | multiMaster
  /-- Raised by the host agent on reading a STATUS whose ERRCODE or ERRINFO no rule produces: "a model reading one
  has left the spec" (93_implementation_defined.md, 60_exceptions.md R200). Safe (log 14). -/
  | reservedStatus
  /-- Raised by the host agent where a read of its own was not answered with data, which no rule covers
  (60_exceptions.md R223). Safe (log 14). -/
  | unexpectedReply
  /-- Raised by the host agent in `Running` with an empty destination pool, which construction rules out: the error
  belongs to construction, "not at send time" (60_exceptions.md R222). Safe (log 14). -/
  | emptyPoolWhileRunning
deriving DecidableEq, Repr

/-- The buffer bytes written since reset, by window offset, in one canonical form: addresses strictly rising. An
unlisted byte has not been written since reset and has no value in this list: what a read of it gives is the free
draw of 10_state.md R37, supplied by `Block.byte` (log 2). -/
abbrev Memory := List Host.Cell

/-- The canonical form of a memory. -/
abbrev Memory.wf (m : Memory) : Prop := m.Pairwise fun c d => c.1 < d.1

/-- The block: the registers of 10_state.md R22 to R33 (CMD is not stored, R22), the bytes of its three buffers
(R34 to R36), and `epoch`, the model's own, which names the reset whose free draws the unwritten bytes hold
(70_reset_and_hazards.md R240). -/
structure Block where
  status    : Word
  wlen      : Word
  mcfg      : Word
  ethDstHi  : Word
  ethDstLo  : Word
  ethSrcHi  : Word
  ethSrcLo  : Word
  etypeBier : Word
  etypeIp   : Word
  l3len     : Word
  flen      : Word
  fBiftId   : Word
  fTc       : Word
  fS        : Word
  fTtl      : Word
  fNibble   : Word
  fVersion  : Word
  fBsl      : Word
  fEntropy  : Word
  fOam      : Word
  fRsv      : Word
  fDscp     : Word
  fProto    : Word
  fBfirId   : Word
  bs0       : Word
  bs1       : Word
  bs2       : Word
  bs3       : Word
  bs4       : Word
  bs5       : Word
  bs6       : Word
  bs7       : Word
  mem       : Memory
  epoch     : Nat
deriving DecidableEq, Repr

/-- The block right after reset number `epoch` (10_state.md R37). -/
def Block.reset (epoch : Nat) : Block where
  status    := 0x00000000
  wlen      := 0x00000000
  mcfg      := 0x00000000
  ethDstHi  := 0x00000000
  ethDstLo  := 0x00000000
  ethSrcHi  := 0x00000000
  ethSrcLo  := 0x00000000
  etypeBier := 0x0000AB37
  etypeIp   := 0x00000800
  l3len     := 0x00000000
  flen      := 0x00000000
  fBiftId   := 0x00000000
  fTc       := 0x00000000
  fS        := 0x00000000
  fTtl      := 0x00000000
  fNibble   := 0x00000000
  fVersion  := 0x00000000
  fBsl      := 0x00000000
  fEntropy  := 0x00000000
  fOam      := 0x00000000
  fRsv      := 0x00000000
  fDscp     := 0x00000000
  fProto    := 0x00000000
  fBfirId   := 0x00000000
  bs0       := 0x00000000
  bs1       := 0x00000000
  bs2       := 0x00000000
  bs3       := 0x00000000
  bs4       := 0x00000000
  bs5       := 0x00000000
  bs6       := 0x00000000
  bs7       := 0x00000000
  mem       := []
  epoch     := epoch

/-- What the outside world does to the machine, one at a time: a transaction of the bus master (20_memory.md R62), the
reset input (70_reset_and_hazards.md R240), the start of the generator (60_exceptions.md R221). -/
inductive Input where
  | access (a : Access)
  | reset
  | start (c : GeneratorConfig)
deriving DecidableEq, Repr

/-- The response to one transaction (20_memory.md R62). -/
inductive Reply where
  /-- OK, to a write. -/
  | ok
  /-- OK with the value read. -/
  | data (v : Word)
  | buserr
  /-- The access lies outside the window: what the platform answers is not specified (20_memory.md R60). -/
  | platform
deriving DecidableEq, Repr

/-- A record of the host's log (60_exceptions.md R226). -/
inductive LogEntry where
  | sent (dst : Destination) (len : Nat) (time : Nat)
  | sendFailed (dst : Destination) (len : Nat) (time : Nat) (kind : TransportKind)
  | failed (e : HostError) (time : Nat)
deriving DecidableEq, Repr

/-- Where a running host stands in its iteration (60_exceptions.md R223). -/
inductive Phase where
  /-- Step 1: about to draw a destination. -/
  | selecting
  /-- Step 2: L3BUF, MARSHAL and RD STATUS are issued. -/
  | marshalling (dst : Destination)
  /-- Step 2: RD FLEN is issued. -/
  | sizing (dst : Destination)
  /-- Step 2: the reads of FBUF are issued. -/
  | collecting (dst : Destination) (len : Nat)
  /-- Step 3: about to send. -/
  | sending (dst : Destination) (frame : List Byte)
  /-- Step 4: about to log. -/
  | logging (dst : Destination) (len : Nat)
  /-- Step 5: suspended for INTERVAL. -/
  | suspended
deriving DecidableEq, Repr

/-- The host's states (60_exceptions.md R221). `starting`, `configuring` and `validating` are construction, before
`Running` (R222); `constructionFailed` is a construction that failed and never reaches `Running`. `stopped none` is a
cancelled run. -/
inductive Mode where
  | idle
  | starting (c : GeneratorConfig)
  | configuring (c : GeneratorConfig)
  | validating (c : GeneratorConfig)
  | constructionFailed (e : HostError)
  | running (c : GeneratorConfig) (p : Phase)
  | stopped (e : Option HostError)
deriving DecidableEq, Repr

/-- The three host states of 60_exceptions.md R221. -/
inductive HostState where
  | idle
  | running
  | stopped
deriving DecidableEq, Repr

/-- The host agent: its state (60_exceptions.md R221), the answers of its collaborators that are injected (R220, R224;
where there is none the free value of Config is taken), its log (R226) and the frames it handed to `send` (R223), each
newest first. -/
structure Generator where
  mode       : Mode
  draws      : List Nat
  sends      : List SendResult
  stops      : List Bool
  times      : List Nat
  serialized : List (Destination × List Byte)
  fatal      : List (TransportKind × Bool)
  log        : List LogEntry
  sent       : List (List Byte)
deriving DecidableEq, Repr

/-- The whole machine. `pending` holds the inputs not yet performed, oldest first; `replies` the responses of the bus,
newest first; `free` counts the free values drawn. -/
structure State where
  params  : Params
  block   : Block
  pending : List Input
  replies : List Reply
  free    : Nat
  gen     : Generator
deriving DecidableEq, Repr

/-- The parameters of the reset state: L3_MAX at its default 2048 (00_scope.md R6), MULTI_MASTER at its default false
(60_exceptions.md R212), BHC_BASE = 0 (log 4: the spec leaves it open). -/
def defaultParams : Params where
  l3Sel       := 511
  baseSel     := 0
  multiMaster := false

/-- The host agent before start: Idle (60_exceptions.md R221), nothing injected, logged or sent. -/
def Generator.reset : Generator where
  mode       := .idle
  draws      := []
  sends      := []
  stops      := []
  times      := []
  serialized := []
  fatal      := []
  log        := []
  sent       := []

/-- The machine right after reset (10_state.md R37). -/
def State.reset : State where
  params  := defaultParams
  block   := Block.reset 0
  pending := []
  replies := []
  free    := 0
  gen     := Generator.reset

end Sys2Proof.Machine
end

