-- ==== Sys2Proof/Machine/Fields.lean ====
section
/-! DEFINITION. The spec's tables: the fields' indices, widths and placement (30_encoding.md R91, 40_codec.md R130), the
registers' offsets (10_state.md R22 to R33), the window's map (20_memory.md R61) and the parameters derived from
00_scope.md R6; with the byte-order and bit-slice helpers of 00_scope.md R7 and R8. -/

namespace Sys2Proof

/-! ### Bit slices and byte sequences -/

/-- `v[hi:lo]`, the bits `hi` down to `lo` of a value, LSB = 0 (00_scope.md R7). -/
def slice (v hi lo : Nat) : Nat := (v >>> lo) % 2 ^ (hi - lo + 1)

/-- The `n` bytes of a value, most significant byte first (00_scope.md R8, 20_memory.md R66). -/
def beBytes (n v : Nat) : List Byte := (List.range n).map fun i => BitVec.ofNat 8 (v >>> (8 * (n - 1 - i)))

/-- The 4-byte sequence of a 32-bit value (00_scope.md R8). -/
def be32 (v : Nat) : List Byte := beBytes 4 v

/-- The 32-byte sequence of a 256-bit value (00_scope.md R8). -/
def be256 (v : Nat) : List Byte := beBytes 32 v

/-- The 2-byte sequence of an ethertype (30_encoding.md R103). -/
def be16 (v : BitVec 16) : List Byte := beBytes 2 v.toNat

/-- The 6 bytes of a link-layer address, its first byte on the wire first (10_state.md R26). -/
def be48 (v : BitVec 48) : List Byte := beBytes 6 v.toNat

/-- `B[0] ‖ B[1] ‖ …`: the value of a byte sequence, its first byte the most significant (00_scope.md R8). -/
def catBytes (bytes : List Byte) : Nat := bytes.foldl (fun acc b => acc * 256 + b.toNat) 0

/-- `w0 ‖ w1 ‖ …` for 32-bit words (00_scope.md R8). -/
def catWords (words : List Word) : Nat := words.foldl (fun acc w => acc * 2 ^ 32 + w.toNat) 0

/-! ### Header fields -/

/-- The fields in index order (40_codec.md R130). -/
def Field.all : List Field :=
  [.biftId, .tc, .s, .ttl, .nibble, .version, .bsl, .entropy, .oam, .rsv, .dscp, .proto, .bfirId, .bitstring]

/-- The field's index (30_encoding.md R91, 60_exceptions.md R204). -/
def Field.idx : Field → Nat
  | .biftId => 0
  | .tc => 1
  | .s => 2
  | .ttl => 3
  | .nibble => 4
  | .version => 5
  | .bsl => 6
  | .entropy => 7
  | .oam => 8
  | .rsv => 9
  | .dscp => 10
  | .proto => 11
  | .bfirId => 12
  | .bitstring => 13

/-- The field's width in bits (30_encoding.md R91, 40_codec.md R130). -/
def Field.width : Field → Nat
  | .biftId => 20
  | .tc => 3
  | .s => 1
  | .ttl => 8
  | .nibble => 4
  | .version => 4
  | .bsl => 4
  | .entropy => 20
  | .oam => 2
  | .rsv => 2
  | .dscp => 6
  | .proto => 6
  | .bfirId => 16
  | .bitstring => 256

/-- The least significant of the field's header bits: LSB-0 positions in the 352-bit value of the wire header
(30_encoding.md R91). -/
def Field.headerLo : Field → Nat
  | .biftId => 332
  | .tc => 329
  | .s => 328
  | .ttl => 320
  | .nibble => 316
  | .version => 312
  | .bsl => 308
  | .entropy => 288
  | .oam => 286
  | .rsv => 284
  | .dscp => 278
  | .proto => 272
  | .bfirId => 256
  | .bitstring => 0

/-- `field_i(h)` (40_codec.md R131). -/
def Header.field (h : Header) : Field → Nat
  | .biftId => h.biftId
  | .tc => h.tc
  | .s => h.s
  | .ttl => h.ttl
  | .nibble => h.nibble
  | .version => h.version
  | .bsl => h.bsl
  | .entropy => h.entropy
  | .oam => h.oam
  | .rsv => h.rsv
  | .dscp => h.dscp
  | .proto => h.proto
  | .bfirId => h.bfirId
  | .bitstring => h.bitstring

/-! ### Registers -/

/-- The control registers (10_state.md R20). -/
def Reg.control : List Reg :=
  [.cmd, .status, .wlen, .mcfg, .ethDstHi, .ethDstLo, .ethSrcHi, .ethSrcLo, .etypeBier, .etypeIp, .l3len, .flen]

/-- The 13 field registers in index order (10_state.md R32). -/
def Reg.fields : List Reg :=
  [.fBiftId, .fTc, .fS, .fTtl, .fNibble, .fVersion, .fBsl, .fEntropy, .fOam, .fRsv, .fDscp, .fProto, .fBfirId]

/-- The 8 bitstring registers, most significant word first (10_state.md R33). -/
def Reg.bitstring : List Reg := [.bs0, .bs1, .bs2, .bs3, .bs4, .bs5, .bs6, .bs7]

/-- Every register. -/
def Reg.all : List Reg := Reg.control ++ Reg.fields ++ Reg.bitstring

/-- The register's offset in the window (20_memory.md R61; `0x0040 + 4*idx` for a field register, 10_state.md R32;
`0x0080 + 4*k` for BSk, R33). -/
def Reg.offset : Reg → Nat
  | .cmd => 0x0000
  | .status => 0x0004
  | .wlen => 0x0008
  | .mcfg => 0x000C
  | .ethDstHi => 0x0010
  | .ethDstLo => 0x0014
  | .ethSrcHi => 0x0018
  | .ethSrcLo => 0x001C
  | .etypeBier => 0x0020
  | .etypeIp => 0x0024
  | .l3len => 0x0028
  | .flen => 0x002C
  | .fBiftId => 0x0040
  | .fTc => 0x0044
  | .fS => 0x0048
  | .fTtl => 0x004C
  | .fNibble => 0x0050
  | .fVersion => 0x0054
  | .fBsl => 0x0058
  | .fEntropy => 0x005C
  | .fOam => 0x0060
  | .fRsv => 0x0064
  | .fDscp => 0x0068
  | .fProto => 0x006C
  | .fBfirId => 0x0070
  | .bs0 => 0x0080
  | .bs1 => 0x0084
  | .bs2 => 0x0088
  | .bs3 => 0x008C
  | .bs4 => 0x0090
  | .bs5 => 0x0094
  | .bs6 => 0x0098
  | .bs7 => 0x009C

/-- What a bus write of `v` to a register leaves in it, for a register that takes one: the implemented bits of `v`,
RES0 bits 0 (20_memory.md R65). None: the write has no effect on the register (STATUS and FLEN are RO, CMD stores
nothing). -/
def Reg.written (r : Reg) (v : Word) : Option Word :=
  match r with
  | .cmd | .status | .flen => none
  | .wlen | .l3len | .ethDstHi | .ethSrcHi | .etypeBier | .etypeIp => some ((v.extractLsb' 0 16).setWidth 32)
  | .mcfg => some ((v.extractLsb' 0 1).setWidth 32)
  | .ethDstLo | .ethSrcLo => some v
  | .fBiftId | .fTc | .fS | .fTtl | .fNibble | .fVersion | .fBsl | .fEntropy | .fOam | .fRsv | .fDscp | .fProto
  | .fBfirId => some v
  | .bs0 | .bs1 | .bs2 | .bs3 | .bs4 | .bs5 | .bs6 | .bs7 => some v

/-- The register that holds a field: F_i for the 13 scalar fields (10_state.md R32). The bitstring is held by eight
registers (R33), so it has no single one. -/
def Field.reg : Field → Option Reg
  | .biftId => some .fBiftId
  | .tc => some .fTc
  | .s => some .fS
  | .ttl => some .fTtl
  | .nibble => some .fNibble
  | .version => some .fVersion
  | .bsl => some .fBsl
  | .entropy => some .fEntropy
  | .oam => some .fOam
  | .rsv => some .fRsv
  | .dscp => some .fDscp
  | .proto => some .fProto
  | .bfirId => some .fBfirId
  | .bitstring => none

/-! ### Parameters and the window's map -/

/-- The size of the register window, 16 KiB (20_memory.md R60). -/
def windowSize : Nat := 0x4000

/-- The bytes of an encoded header, HDR_BYTES (00_scope.md R6, 30_encoding.md R90). -/
def hdrBytes : Nat := 44

/-- L3_MAX: a multiple of 4 from 4 to 4096 (00_scope.md R6). -/
def Params.l3Max (p : Params) : Nat := 4 * (p.l3Sel.val + 1)

/-- FRAME_MAX = 14 + 44 + L3_MAX (00_scope.md R6). -/
def Params.frameMax (p : Params) : Nat := 14 + 44 + p.l3Max

/-- NF = ceil(FRAME_MAX / 4) (20_memory.md R61). -/
def Params.frameWords (p : Params) : Nat := (p.frameMax + 3) / 4

/-- BHC_BASE, a 16 KiB-aligned address (00_scope.md R6, 20_memory.md R60). -/
def Params.base (p : Params) : Nat := windowSize * p.baseSel

/-- The offset of a host address in the block's window; none where the address is the platform's (20_memory.md R60). -/
def Params.offsetOf (p : Params) (addr : Nat) : Option Nat :=
  if p.base ≤ addr ∧ addr < p.base + windowSize then some (addr - p.base) else none

/-- The offsets of the buffers (20_memory.md R61). -/
def wbufBase : Nat := 0x0100
def l3bufBase : Nat := 0x1000
def fbufBase : Nat := 0x2000

/-- What the window holds at a word offset; none where the offset is unmapped (20_memory.md R61). -/
def Params.slotAt (p : Params) (off : Nat) : Option Slot :=
  match Reg.all.find? (fun r => r.offset = off) with
  | some r => some (.reg r)
  | none =>
    if wbufBase ≤ off ∧ off < wbufBase + hdrBytes then some (.wbuf ((off - wbufBase) / 4))
    else if l3bufBase ≤ off ∧ off < l3bufBase + p.l3Max then some (.l3buf ((off - l3bufBase) / 4))
    else if fbufBase ≤ off ∧ off < fbufBase + 4 * p.frameWords then some (.fbuf ((off - fbufBase) / 4))
    else none

end Sys2Proof
end

