-- ==== Sys2Proof/Machine/Flags.lean ====
section
/-! DEFINITION. STATUS, the block's only flags (10_state.md R23): its fields, the word a successful command leaves
(60_exceptions.md R202) and the word a failed command leaves (R203, R204). -/

namespace Sys2Proof

/-- STATUS.DONE, bit [0] (10_state.md R23). -/
def statusDone (w : Word) : Bool := w.getLsbD 0

/-- STATUS.ERR, bit [1] (10_state.md R23). -/
def statusErr (w : Word) : Bool := w.getLsbD 1

/-- STATUS.ERRCODE, bits [7:4] (10_state.md R23). -/
def statusErrCode (w : Word) : Nat := slice w.toNat 7 4

/-- STATUS.ERRINFO, bits [15:8] (10_state.md R23). -/
def statusErrInfo (w : Word) : Nat := slice w.toNat 15 8

/-- `code(E)` (60_exceptions.md R200). -/
def CmdError.code : CmdError → BitVec 4
  | .rangeError _ => 1
  | .lengthError _ => 2
  | .illegalCommand _ => 3

/-- ERRINFO for a LengthError: 0 for DECODE's input, 1 for L3LEN (60_exceptions.md R204). -/
def LengthCause.info : LengthCause → BitVec 8
  | .decodeInput => 0
  | .l3Length => 1

/-- `info[7:0]` (60_exceptions.md R204). -/
def CmdError.info : CmdError → BitVec 8
  | .rangeError f => BitVec.ofNat 8 f.idx
  | .lengthError c => c.info
  | .illegalCommand opc => opc.setWidth 8

/-- STATUS after a success: DONE = 1 and nothing else (60_exceptions.md R202). -/
def okStatus : Word := 0x00000001

/-- STATUS after a failure: ERRINFO ‖ ERRCODE ‖ RES0 ‖ ERR ‖ DONE (60_exceptions.md R203). -/
def CmdError.statusWord (e : CmdError) : Word := (e.info ++ e.code ++ (0 : BitVec 2) ++ (1 : BitVec 1) ++ (1 : BitVec 1)).setWidth 32

/-- The error that a STATUS with ERR = 1 carries (60_exceptions.md R200, R204); none for a code or a detail that no
rule produces. -/
def CmdError.ofStatus (w : Word) : Option CmdError :=
  match statusErrCode w, statusErrInfo w with
  | 1, info => (Field.all.find? fun f => f.idx = info).map .rangeError
  | 2, 0 => some (.lengthError .decodeInput)
  | 2, 1 => some (.lengthError .l3Length)
  | 3, info => if info < 16 then some (.illegalCommand (BitVec.ofNat 4 info)) else none
  | _, _ => none

end Sys2Proof
end

