-- ==== Sys2Proof/Machine/Ops.lean ====
section
/-! DEFINITION. The named operations over memory and registers (00_scope.md R9): buffer bytes, `REG[name]`, and the two
ways a command ends, `complete()` (60_exceptions.md R202) and `raise` (R203). There is no return from an error
(R208). -/

namespace Sys2Proof.Machine

/-! ### Buffer bytes -/

/-- The byte written at an address since reset, if one was. -/
def Memory.byte? : Memory → Nat → Option Byte
  | [], _ => none
  | c :: rest, a => if c.1 = a then some c.2 else Memory.byte? rest a

/-- Writes one byte, keeping the addresses strictly rising. -/
def Memory.write : Memory → Nat → Byte → Memory
  | [], a, v => [(a, v)]
  | c :: rest, a, v =>
    if a < c.1 then (a, v) :: c :: rest
    else if a = c.1 then (a, v) :: rest
    else c :: Memory.write rest a v

/-- Writes a byte sequence at rising addresses from `a`. -/
def Memory.writeBytes : Memory → Nat → List Byte → Memory
  | m, _, [] => m
  | m, a, v :: rest => Memory.writeBytes (Memory.write m a v) (a + 1) rest

/-- Makes the bytes from `lo` up to, not including, `hi` unspecified again. -/
def Memory.forget (m : Memory) (lo hi : Nat) : Memory := m.filter fun c => c.1 < lo || hi ≤ c.1

/-- The buffer byte at a window offset: the byte last written, or the free draw of the last reset (10_state.md R37,
70_reset_and_hazards.md R241). -/
def Block.byte (b : Block) (a : Nat) : Byte := (Memory.byte? b.mem a).getD (Config.powerOnByte b.epoch a)

/-- `n` buffer bytes from a window offset on. -/
def Block.bytes (b : Block) (a n : Nat) : List Byte := (List.range n).map fun i => b.byte (a + i)

/-- A bus word of a buffer: byte `a` in bits [31:24], byte `a+3` in bits [7:0] (20_memory.md R64, R67). -/
def Block.loadWord (b : Block) (a : Nat) : Word := BitVec.ofNat 32 (catBytes (b.bytes a 4))

/-- Writes a byte sequence to a buffer, from a window offset on. -/
def Block.store (b : Block) (a : Nat) (bytes : List Byte) : Block := { b with mem := Memory.writeBytes b.mem a bytes }

/-- Makes the buffer bytes from `lo` up to, not including, `hi` unspecified. -/
def Block.forget (b : Block) (lo hi : Nat) : Block := { b with mem := Memory.forget b.mem lo hi }

/-- Writes a bus word to a buffer: bits [31:24] to byte `a`, bits [7:0] to byte `a+3` (20_memory.md R65, R67). -/
def Block.storeWord (b : Block) (a : Nat) (v : Word) : Block := b.store a (be32 v.toNat)

/-! ### Registers -/

/-- `REG[name]` (00_scope.md R9). CMD is not stored and reads 0 (10_state.md R22). -/
def Block.reg (b : Block) : Reg → Word
  | .cmd => 0
  | .status => b.status
  | .wlen => b.wlen
  | .mcfg => b.mcfg
  | .ethDstHi => b.ethDstHi
  | .ethDstLo => b.ethDstLo
  | .ethSrcHi => b.ethSrcHi
  | .ethSrcLo => b.ethSrcLo
  | .etypeBier => b.etypeBier
  | .etypeIp => b.etypeIp
  | .l3len => b.l3len
  | .flen => b.flen
  | .fBiftId => b.fBiftId
  | .fTc => b.fTc
  | .fS => b.fS
  | .fTtl => b.fTtl
  | .fNibble => b.fNibble
  | .fVersion => b.fVersion
  | .fBsl => b.fBsl
  | .fEntropy => b.fEntropy
  | .fOam => b.fOam
  | .fRsv => b.fRsv
  | .fDscp => b.fDscp
  | .fProto => b.fProto
  | .fBfirId => b.fBfirId
  | .bs0 => b.bs0
  | .bs1 => b.bs1
  | .bs2 => b.bs2
  | .bs3 => b.bs3
  | .bs4 => b.bs4
  | .bs5 => b.bs5
  | .bs6 => b.bs6
  | .bs7 => b.bs7

/-- `REG[name] <- v` (00_scope.md R9). CMD retains nothing (10_state.md R22). -/
def Block.setReg (b : Block) (r : Reg) (v : Word) : Block :=
  match r with
  | .cmd => b
  | .status => { b with status := v }
  | .wlen => { b with wlen := v }
  | .mcfg => { b with mcfg := v }
  | .ethDstHi => { b with ethDstHi := v }
  | .ethDstLo => { b with ethDstLo := v }
  | .ethSrcHi => { b with ethSrcHi := v }
  | .ethSrcLo => { b with ethSrcLo := v }
  | .etypeBier => { b with etypeBier := v }
  | .etypeIp => { b with etypeIp := v }
  | .l3len => { b with l3len := v }
  | .flen => { b with flen := v }
  | .fBiftId => { b with fBiftId := v }
  | .fTc => { b with fTc := v }
  | .fS => { b with fS := v }
  | .fTtl => { b with fTtl := v }
  | .fNibble => { b with fNibble := v }
  | .fVersion => { b with fVersion := v }
  | .fBsl => { b with fBsl := v }
  | .fEntropy => { b with fEntropy := v }
  | .fOam => { b with fOam := v }
  | .fRsv => { b with fRsv := v }
  | .fDscp => { b with fDscp := v }
  | .fProto => { b with fProto := v }
  | .fBfirId => { b with fBfirId := v }
  | .bs0 => { b with bs0 := v }
  | .bs1 => { b with bs1 := v }
  | .bs2 => { b with bs2 := v }
  | .bs3 => { b with bs3 := v }
  | .bs4 => { b with bs4 := v }
  | .bs5 => { b with bs5 := v }
  | .bs6 => { b with bs6 := v }
  | .bs7 => { b with bs7 := v }

/-- LEN, bits [15:0] of WLEN, L3LEN and FLEN (10_state.md R24, R30, R31). -/
def lenOf (w : Word) : Nat := slice w.toNat 15 0

/-! ### How a command ends -/

/-- `complete()`: STATUS <- 0x00000001, the last action of a successful command (60_exceptions.md R202). -/
def Block.complete (b : Block) : Block := { b with status := okStatus }

/-- `raise E(info)`: STATUS records the error and no other state is written (60_exceptions.md R203). This is the whole
of taking an exception on this block: no pc is saved, no mode changes, nothing is jumped to (R207). -/
def Block.raise (b : Block) (e : CmdError) : Block := { b with status := e.statusWord }

/-- Ends a command started on `b` whose result writes gave `r`: the written block completes, or the block before the
command records the error. -/
def Block.finish (b : Block) (r : Except CmdError Block) : Block :=
  match r with
  | .ok b' => b'.complete
  | .error e => b.raise e

/-- The next state of a command: only the block changes. -/
def State.finish (s : State) (r : Except CmdError Block) : Host.Outcome State Fault Refusal :=
  .next { s with block := s.block.finish r }

/-- The bus response of a transaction, received by the bus master. -/
def State.reply (s : State) (r : Reply) : State := { s with replies := r :: s.replies }

/-- Applies `f` to a next state and leaves a stop as it is. -/
def mapNext (f : State → State) : Host.Outcome State Fault Refusal → Host.Outcome State Fault Refusal
  | .next s => .next (f s)
  | .fault r => .fault r
  | .refused r => .refused r

end Sys2Proof.Machine
end

