-- ==== Sys2Proof/Machine/Operands.lean ====
section
/-! DEFINITION. The operands the commands read from the registers (30_encoding.md R99): the register view of the header
(40_codec.md R140), its inverse writes (R143), and the marshaller's configuration (41_marshal.md R173). -/

namespace Sys2Proof.Machine

/-- `hdrOf(state)`: the structured header the registers hold (40_codec.md R140). -/
def Block.hdrOf (b : Block) : Header where
  biftId    := b.fBiftId.toNat
  tc        := b.fTc.toNat
  s         := b.fS.toNat
  ttl       := b.fTtl.toNat
  nibble    := b.fNibble.toNat
  version   := b.fVersion.toNat
  bsl       := b.fBsl.toNat
  entropy   := b.fEntropy.toNat
  oam       := b.fOam.toNat
  rsv       := b.fRsv.toNat
  dscp      := b.fDscp.toNat
  proto     := b.fProto.toNat
  bfirId    := b.fBfirId.toNat
  bitstring := catWords [b.bs0, b.bs1, b.bs2, b.bs3, b.bs4, b.bs5, b.bs6, b.bs7]

/-- The word of the bitstring that register BSk holds, `bitstring[255-32k : 224-32k]` (10_state.md R33). -/
def bsWord (bitstring k : Nat) : Word := BitVec.ofNat 32 (slice bitstring (255 - 32 * k) (224 - 32 * k))

/-- Writes a header to the 13 field registers, zero-extended, and the 8 bitstring registers (40_codec.md R143). -/
def Block.setHdr (b : Block) (h : Header) : Block :=
  { b with
    fBiftId  := BitVec.ofNat 32 h.biftId
    fTc      := BitVec.ofNat 32 h.tc
    fS       := BitVec.ofNat 32 h.s
    fTtl     := BitVec.ofNat 32 h.ttl
    fNibble  := BitVec.ofNat 32 h.nibble
    fVersion := BitVec.ofNat 32 h.version
    fBsl     := BitVec.ofNat 32 h.bsl
    fEntropy := BitVec.ofNat 32 h.entropy
    fOam     := BitVec.ofNat 32 h.oam
    fRsv     := BitVec.ofNat 32 h.rsv
    fDscp    := BitVec.ofNat 32 h.dscp
    fProto   := BitVec.ofNat 32 h.proto
    fBfirId  := BitVec.ofNat 32 h.bfirId
    bs0      := bsWord h.bitstring 0
    bs1      := bsWord h.bitstring 1
    bs2      := bsWord h.bitstring 2
    bs3      := bsWord h.bitstring 3
    bs4      := bsWord h.bitstring 4
    bs5      := bsWord h.bitstring 5
    bs6      := bsWord h.bitstring 6
    bs7      := bsWord h.bitstring 7 }

/-- A link-layer address from its HI and LO registers: D[0], D[1] from HI[15:0], D[2..5] from LO (10_state.md R26,
R27, 41_marshal.md R173). -/
def macOf (hi lo : Word) : BitVec 48 := hi.extractLsb' 0 16 ++ lo

/-- The marshaller's configuration `cfg` as the registers hold it (41_marshal.md R173). -/
def Block.frameCfg (b : Block) : FrameCfg where
  dst    := macOf b.ethDstHi b.ethDstLo
  src    := macOf b.ethSrcHi b.ethSrcLo
  bierEn := b.mcfg.getLsbD 0
  etBier := b.etypeBier.extractLsb' 0 16
  etIp   := b.etypeIp.extractLsb' 0 16

end Sys2Proof.Machine
end

