-- ==== Sys2Proof/Machine/Codec.lean ====
section
/-! DEFINITION. The codec: the pure functions validate, encode and decode (40_codec.md R132 to R134) and the meanings
of VALIDATE, ENCODE and DECODE (R141 to R143). No value but the widths and the length is checked (R138). -/

namespace Sys2Proof.Machine

/-! ### Pure functions -/

/-- `validate(h)`: the first field, in index order, that does not fit its width is reported (40_codec.md R132). -/
def validateHeader (h : Header) : Except CmdError Unit :=
  match Field.all.find? fun f => 2 ^ f.width ≤ h.field f with
  | some f => .error (.rangeError f)
  | none => .ok ()

/-- Word 0 (30_encoding.md R92). -/
def headerWord0 (h : Header) : Nat := (h.biftId <<< 12) ||| (h.tc <<< 9) ||| (h.s <<< 8) ||| h.ttl

/-- Word 1 (30_encoding.md R93). -/
def headerWord1 (h : Header) : Nat := (h.nibble <<< 28) ||| (h.version <<< 24) ||| (h.bsl <<< 20) ||| h.entropy

/-- Word 2 (30_encoding.md R94). -/
def headerWord2 (h : Header) : Nat :=
  (h.oam <<< 30) ||| (h.rsv <<< 28) ||| (h.dscp <<< 22) ||| (h.proto <<< 16) ||| h.bfirId

/-- The 44 wire bytes of a header in range (30_encoding.md R96). -/
def headerBytes (h : Header) : List Byte :=
  be32 (headerWord0 h) ++ be32 (headerWord1 h) ++ be32 (headerWord2 h) ++ be256 h.bitstring

/-- `encode(h)` (40_codec.md R133). -/
def encodeHeader (h : Header) : Except CmdError (List Byte) :=
  match validateHeader h with
  | .error e => .error e
  | .ok () => .ok (headerBytes h)

/-- `B[i] ‖ B[i+1] ‖ B[i+2] ‖ B[i+3]` (40_codec.md R134). -/
def wordAt (bytes : List Byte) (i : Nat) : Nat := catBytes ((bytes.drop i).take 4)

/-- The fields of 44 wire bytes (40_codec.md R134). -/
def headerOfBytes (bytes : List Byte) : Header :=
  let w0 := wordAt bytes 0
  let w1 := wordAt bytes 4
  let w2 := wordAt bytes 8
  { biftId    := slice w0 31 12
    tc        := slice w0 11 9
    s         := slice w0 8 8
    ttl       := slice w0 7 0
    nibble    := slice w1 31 28
    version   := slice w1 27 24
    bsl       := slice w1 23 20
    entropy   := slice w1 19 0
    oam       := slice w2 31 30
    rsv       := slice w2 29 28
    dscp      := slice w2 27 22
    proto     := slice w2 21 16
    bfirId    := slice w2 15 0
    bitstring := catBytes (bytes.drop 12) }

/-- `decode(B)`: only the length can fail (40_codec.md R134). -/
def decodeHeader (bytes : List Byte) : Except CmdError Header :=
  if bytes.length ≠ hdrBytes then .error (.lengthError .decodeInput) else .ok (headerOfBytes bytes)

/-! ### Commands -/

/-- The result writes of VALIDATE: none (40_codec.md R141). -/
def validateResult (b : Block) : Except CmdError Block :=
  match validateHeader b.hdrOf with
  | .error e => .error e
  | .ok () => .ok b

/-- The result writes of ENCODE: WBUF[0..43] and WLEN <- 44 (40_codec.md R142). -/
def encodeResult (b : Block) : Except CmdError Block :=
  match encodeHeader b.hdrOf with
  | .error e => .error e
  | .ok bytes => .ok ((b.store wbufBase bytes).setReg .wlen (BitVec.ofNat 32 hdrBytes))

/-- The result writes of DECODE: every field and bitstring register (40_codec.md R143). -/
def decodeResult (b : Block) : Except CmdError Block :=
  if lenOf b.wlen ≠ hdrBytes then .error (.lengthError .decodeInput)
  else
    match decodeHeader (b.bytes wbufBase hdrBytes) with
    | .error e => .error e
    | .ok h => .ok (b.setHdr h)

/-- VALIDATE (40_codec.md R141). -/
def execValidate (s : State) : Host.Outcome State Fault Refusal := s.finish (validateResult s.block)

/-- ENCODE (40_codec.md R142). -/
def execEncode (s : State) : Host.Outcome State Fault Refusal := s.finish (encodeResult s.block)

/-- DECODE (40_codec.md R143). -/
def execDecode (s : State) : Host.Outcome State Fault Refusal := s.finish (decodeResult s.block)

end Sys2Proof.Machine
end

