-- ==== Sys2Proof/Machine/Marshal.lean ====
section
/-! DEFINITION. The marshaller: the pure frame function (41_marshal.md R170) and the meaning of MARSHAL (R173). The
layer-3 bytes are opaque (R172) and the frame is not policed (R174). -/

namespace Sys2Proof.Machine

/-- `D ++ S ++ be16(ethertype)`, the 14-byte link-layer header (30_encoding.md R103). -/
def linkHeader (c : FrameCfg) (etype : BitVec 16) : List Byte := be48 c.dst ++ be48 c.src ++ be16 etype

/-- `frame(cfg, h, L)` (41_marshal.md R170). -/
def frameBytes (c : FrameCfg) (h : Header) (l3 : List Byte) : Except CmdError (List Byte) :=
  if c.bierEn then
    match encodeHeader h with
    | .error e => .error e
    | .ok bytes => .ok (linkHeader c c.etBier ++ bytes ++ l3)
  else .ok (linkHeader c c.etIp ++ l3)

/-- The result writes of MARSHAL (41_marshal.md R173): the header is checked first, only when BIER_EN = 1, then the
length (60_exceptions.md R205); then FBUF and FLEN, the FBUF bytes at and above the new FLEN becoming unspecified. -/
def marshalResult (p : Params) (b : Block) : Except CmdError Block :=
  let c := b.frameCfg
  let n := lenOf b.l3len
  match if c.bierEn then validateHeader b.hdrOf else .ok () with
  | .error e => .error e
  | .ok () =>
    if p.l3Max < n then .error (.lengthError .l3Length)
    else
      match frameBytes c b.hdrOf (b.bytes l3bufBase n) with
      | .error e => .error e
      | .ok frame =>
        .ok (((b.forget fbufBase (fbufBase + p.frameMax)).store fbufBase frame).setReg .flen
          (BitVec.ofNat 32 frame.length))

/-- MARSHAL (41_marshal.md R173). -/
def execMarshal (s : State) : Host.Outcome State Fault Refusal := s.finish (marshalResult s.params s.block)

end Sys2Proof.Machine
end

