-- ==== Sys2Proof/WellFormed.lean ====
section
/-! DEFINITION. The checks on the data of Syntax: headers (40_codec.md R131), accesses (20_memory.md R62), the host
notation (30_encoding.md R104, R105). A command has no operand field, so every command is well formed (R99). -/

namespace Sys2Proof

/-- A command carries no operand, so there is nothing to check (30_encoding.md R99). -/
def Instr.wellFormed : Instr → Bool
  | .validate => true
  | .encode => true
  | .decode => true
  | .marshal => true

/-- `inRange(h, i)` (40_codec.md R131). -/
def Header.inRange (h : Header) (f : Field) : Bool := h.field f < 2 ^ f.width

/-- `wellFormed(h)`: every field is in range (40_codec.md R131). -/
def Header.wellFormed (h : Header) : Bool := Field.all.all h.inRange

/-- The header's values fit the registers: 32 bits for a scalar field, 256 for the bitstring (10_state.md R32, R33). -/
def Header.representable (h : Header) : Bool :=
  Field.all.all fun f => h.field f < 2 ^ (if f = .bitstring then 256 else 32)

/-- A legal transaction's form: 32 bits wide at an offset that is a multiple of 4 (20_memory.md R62). -/
def legalForm (bits off : Nat) : Bool := bits == 32 && off % 4 == 0

/-- A target of the host notation that names a word the window has (30_encoding.md R104, 20_memory.md R61); a raw
offset is checked only against the window. -/
def Target.wellFormed (p : Params) : Target → Bool
  | .reg _ => true
  | .wbuf j => 4 * j < hdrBytes
  | .l3buf j => 4 * j < p.l3Max
  | .fbuf j => j < p.frameWords
  | .raw off => off < windowSize

/-- A line of the host notation is well formed when its target is. -/
def Line.wellFormed (p : Params) : Line → Bool
  | .wr t _ => t.wellFormed p
  | .rd t => t.wellFormed p

/-- A pseudo-instruction whose operand the registers or buffers can hold whole (30_encoding.md R105); the others run
too (log 13, log 16). -/
def Pseudo.wellFormed (p : Params) : Pseudo → Bool
  | .command i => i.wellFormed
  | .ldHdr h => h.representable
  | .ldMacDst _ => true
  | .ldMacSrc _ => true
  | .ldBufL3 bytes => bytes.length ≤ p.l3Max
  | .ldBufW bytes => bytes.length == hdrBytes

end Sys2Proof
end

