-- ==== Sys2Proof/Decode.lean ====
section
/-! DEFINITION. The command word (30_encoding.md R99 to R102): the decoder, total on every 32-bit word, and after it
the encoder, written from the same table. A command word is one value of one bus write (R99), so it has no byte order
and nothing follows it. -/

namespace Sys2Proof

/-- The command that a word written to CMD encodes, or why it encodes none (30_encoding.md R100, R101). -/
def decode (v : Word) : Except Reject Instr :=
  let opc := v.extractLsb' 0 4
  if v.extractLsb' 4 28 ≠ 0 then .error (.reservedBits opc)
  else if opc = 0x1 then .ok .validate
  else if opc = 0x2 then .ok .encode
  else if opc = 0x3 then .ok .decode
  else if opc = 0x4 then .ok .marshal
  else .error (.illegalOpcode opc)

/-- The OPC field of a rejected word, `v[3:0]` (30_encoding.md R101). -/
def Reject.opc : Reject → BitVec 4
  | .reservedBits opc => opc
  | .illegalOpcode opc => opc

/-- OPC, bits [3:0] of the command word (30_encoding.md R100). -/
def Instr.opc : Instr → BitVec 4
  | .validate => 0x1
  | .encode => 0x2
  | .decode => 0x3
  | .marshal => 0x4

/-- The command word: RSVD = 0 above OPC (30_encoding.md R99). -/
def encode (i : Instr) : Word := (0 : BitVec 28) ++ i.opc

/-- The instruction the decoder reads from the low `nbits` bits of `w`, every bit above them 0; none where the value
is wider than a command word or the word is rejected. -/
def decodeTableWord (nbits w : Nat) : Option Instr :=
  let v := w % 2 ^ nbits
  if v < 2 ^ 32 then
    match decode (BitVec.ofNat 32 v) with
    | .ok i => some i
    | .error _ => none
  else none

end Sys2Proof
end

