-- ==== Sys2Proof/Machine/Bus.lean ====
section
/-! DEFINITION. The bus: what a transaction reads and writes (20_memory.md R62 to R65), and what a write to CMD starts
(30_encoding.md R101, 20_memory.md R75). `run` is the meaning of the four commands, which Step.lean supplies. -/

namespace Sys2Proof.Machine

/-- The mapped slot of a transaction's offset; none where the answer is BUSERR: not 32 bits wide, misaligned, or
unmapped (20_memory.md R62, R63). -/
def busSlot (p : Params) (bits off : Nat) : Option Slot := if legalForm bits off then p.slotAt off else none

/-- FBUF byte `k` holds a byte of the last frame: it lies below FLEN.LEN and below FRAME_MAX (10_state.md R36). -/
def Block.isFrameByte (p : Params) (b : Block) (k : Nat) : Bool := decide (k < lenOf b.flen) && decide (k < p.frameMax)

/-- FBUF byte `k` as a read gives it: the frame's byte, or lane `k mod 4` of the free word `draw` (10_state.md R36). -/
def Block.fbufByte (p : Params) (b : Block) (draw : Word) (k : Nat) : Byte :=
  if b.isFrameByte p k then b.byte (fbufBase + k) else (be32 draw.toNat).getD (k % 4) 0

/-- FBUF word `j` (20_memory.md R64). -/
def Block.fbufWord (p : Params) (b : Block) (draw : Word) (j : Nat) : Word :=
  BitVec.ofNat 32 (catBytes ((List.range 4).map fun i => b.fbufByte p draw (4 * j + i)))

/-- The read takes a free value: it is of an FBUF word with a lane that holds no frame byte (10_state.md R36). -/
def Block.takesDraw (p : Params) (b : Block) : Slot → Bool
  | .fbuf j => !((List.range 4).all fun i => b.isFrameByte p (4 * j + i))
  | .reg _ => false
  | .wbuf _ => false
  | .l3buf _ => false

/-- The value `BusRead` returns at a mapped slot, `draw` being the free word for lanes without a frame byte
(20_memory.md R64). -/
def Block.readSlot (p : Params) (b : Block) (draw : Word) : Slot → Word
  | .reg r => b.reg r
  | .wbuf j => b.loadWord (wbufBase + 4 * j)
  | .l3buf j => b.loadWord (l3bufBase + 4 * j)
  | .fbuf j => b.fbufWord p draw j

/-- The effect of `BusWrite` at a mapped slot other than CMD (20_memory.md R65): STATUS, FLEN and FBUF ignore it. -/
def Block.writeSlot (b : Block) (v : Word) : Slot → Block
  | .reg r =>
    match r.written v with
    | some w => b.setReg r w
    | none => b
  | .wbuf j => b.storeWord (wbufBase + 4 * j) v
  | .l3buf j => b.storeWord (l3bufBase + 4 * j) v
  | .fbuf _ => b

/-- `Command(v)`: the command that `v` encodes, or IllegalCommand(v[3:0]) with no operation (30_encoding.md R101). -/
def command (run : Instr → State → Host.Outcome State Fault Refusal) (v : Word) (s : State) :
    Host.Outcome State Fault Refusal :=
  match decode v with
  | .ok i => run i s
  | .error r => .next { s with block := s.block.raise (.illegalCommand r.opc) }

/-- `BusRead(off)` at a mapped slot: the state of the block is untouched (20_memory.md R64). -/
def busRead (slot : Slot) (s : State) : State :=
  let s' := s.reply (.data (s.block.readSlot s.params (Config.freeWord s.free) slot))
  if s.block.takesDraw s.params slot then { s' with free := s.free + 1 } else s'

/-- `BusWrite(off, v)` at a mapped slot: a write to CMD is answered OK only after its command has completed
(20_memory.md R65, R75). -/
def busWrite (run : Instr → State → Host.Outcome State Fault Refusal) (slot : Slot) (v : Word) (s : State) :
    Host.Outcome State Fault Refusal :=
  if slot = .reg .cmd then mapNext (fun t => t.reply .ok) (command run v s)
  else .next ({ s with block := s.block.writeSlot v slot }.reply .ok)

/-- One transaction of the bus master (20_memory.md R60, R62, R63). -/
def perform (run : Instr → State → Host.Outcome State Fault Refusal) (a : Access) (s : State) :
    Host.Outcome State Fault Refusal :=
  match s.params.offsetOf a.addr with
  | none => .next (s.reply .platform)
  | some off =>
    match busSlot s.params a.bits off with
    | none => .next (s.reply .buserr)
    | some slot =>
      match a.op with
      | .read => .next (busRead slot s)
      | .write v => busWrite run slot v s

/-- The bus write that starts a command: 32 bits at CMD (10_state.md R22). -/
def cmdWrite (p : Params) (v : Word) : Access where
  addr := p.base + Reg.cmd.offset
  bits := 32
  op   := .write v

/-- The command write for the low `nbits` bits of `w`. -/
def fetchAccess (p : Params) (nbits w : Nat) : Access := cmdWrite p (BitVec.ofNat 32 (w % 2 ^ nbits))

end Sys2Proof.Machine
end

