-- ==== Sys2Proof/Machine/HostOps.lean ====
section
/-! DEFINITION. The host notation as bus transactions: lines (30_encoding.md R104) and pseudo-instructions (R105). -/

namespace Sys2Proof.Machine

/-- `offset(target)` (30_encoding.md R104, 20_memory.md R61). -/
def Target.offset : Target → Nat
  | .reg r => r.offset
  | .wbuf j => wbufBase + 4 * j
  | .l3buf j => l3bufBase + 4 * j
  | .fbuf j => fbufBase + 4 * j
  | .raw off => off

/-- One line is one 32-bit transaction (30_encoding.md R104). -/
def Line.access (p : Params) : Line → Access
  | .wr t v => { addr := p.base + Target.offset t, bits := 32, op := .write v }
  | .rd t => { addr := p.base + Target.offset t, bits := 32, op := .read }

/-- A scalar field's value as its register holds it: the value itself below 2^32, and a free value where the register
cannot hold it (10_state.md R32; DESIGN CHOICE, log 13). -/
def heldField (f : Field) (v : Nat) : Nat := if v < 2 ^ 32 then v else (Config.heldWord f v).toNat

/-- The header whose words LDHDR writes: `h`, with a free value for each scalar field its register cannot hold
(10_state.md R32; DESIGN CHOICE, log 13). -/
def heldHeader (h : Header) : Header where
  biftId    := heldField .biftId h.biftId
  tc        := heldField .tc h.tc
  s         := heldField .s h.s
  ttl       := heldField .ttl h.ttl
  nibble    := heldField .nibble h.nibble
  version   := heldField .version h.version
  bsl       := heldField .bsl h.bsl
  entropy   := heldField .entropy h.entropy
  oam       := heldField .oam h.oam
  rsv       := heldField .rsv h.rsv
  dscp      := heldField .dscp h.dscp
  proto     := heldField .proto h.proto
  bfirId    := heldField .bfirId h.bfirId
  bitstring := h.bitstring

/-- The writes of a header whose scalar fields the registers can hold: 13 in field-index order, then BS0 to BS7, the
slices [255:224] to [31:0] of the bitstring, whatever its size (30_encoding.md R105, 00_scope.md R7). -/
def hdrLines (h : Header) : List Line :=
  (Field.all.filterMap fun f => f.reg.map fun r => Line.wr (.reg r) (BitVec.ofNat 32 (h.field f))) ++
    ((List.range 8).zip Reg.bitstring).map fun kr => Line.wr (.reg kr.2) (bsWord h.bitstring kr.1)

/-- `LDHDR h` (30_encoding.md R105), for every header. -/
def ldHdr (h : Header) : List Line := hdrLines (heldHeader h)

/-- `LDMAC`: the HI and LO registers of an address whose first byte is its most significant (30_encoding.md R105). -/
def ldMac (hi lo : Reg) (a : BitVec 48) : List Line :=
  [.wr (.reg hi) ((a.extractLsb' 32 16).setWidth 32), .wr (.reg lo) (a.extractLsb' 0 32)]

/-- Word `j` of a byte sequence, with missing bytes as 0x00 (30_encoding.md R105). -/
def bufWord (bytes : List Byte) (j : Nat) : Word :=
  BitVec.ofNat 32 (catBytes ((List.range 4).map fun i => bytes.getD (4 * j + i) 0))

/-- The word writes of `LDBUF`, ceil(len/4) of them (30_encoding.md R105). -/
def ldBuf (target : Nat → Target) (bytes : List Byte) : List Line :=
  (List.range ((bytes.length + 3) / 4)).map fun j => Line.wr (target j) (bufWord bytes j)

/-- The value LDBUF writes to L3LEN for `n` bytes (30_encoding.md R105): `n` itself below 2^32, and a free value where
no transaction carries it (DESIGN CHOICE, log 13). -/
def lengthWord (n : Nat) : Word := if n < 2 ^ 32 then BitVec.ofNat 32 n else Config.heldLength n

/-- The expansion of a pseudo-instruction (30_encoding.md R105). The rule gives `LDBUF WBUF` for 44 bytes only; any other
number of bytes is written in the same form, ceil(len/4) words padded with 0x00 (DESIGN CHOICE, log 16). -/
def Pseudo.expand : Pseudo → List Line
  | .command i => [.wr (.reg .cmd) (encode i)]
  | .ldHdr h => ldHdr h
  | .ldMacDst a => ldMac .ethDstHi .ethDstLo a
  | .ldMacSrc a => ldMac .ethSrcHi .ethSrcLo a
  | .ldBufL3 bytes => ldBuf .l3buf bytes ++ [.wr (.reg .l3len) (lengthWord bytes.length)]
  | .ldBufW bytes => ldBuf .wbuf bytes

/-- The transactions of a host program, in the order it issues them (20_memory.md R70). -/
def accesses (p : Params) (lines : List Line) : List Input := lines.map fun l => .access (Line.access p l)

/-- A state whose bus master has issued a host program. -/
def State.issue (s : State) (lines : List Line) : State :=
  { s with pending := s.pending ++ accesses s.params lines }

end Sys2Proof.Machine
end

