-- ==== Sys2Proof/Machine/Generator.lean ====
section
/-! DEFINITION. The host agent, the traffic generator loop (60_exceptions.md R220 to R231). It acts when every
transaction it has issued is performed. The answers of its collaborators are the injected ones, in order, and where
there is none the free value of Config (R220, R224). -/

namespace Sys2Proof.Machine

/-- The next answer of a collaborator and the rest of the injected ones: the first injected answer, or `free`. -/
def nextAnswer {α : Type} (injected : List α) (free : α) : α × List α :=
  match injected with
  | a :: rest => (a, rest)
  | [] => (free, [])

/-- The number of free values drawn after an answer was taken: one more where none was injected. -/
def drawsAfter {α : Type} (injected : List α) (n : Nat) : Nat := if injected.isEmpty then n + 1 else n

/-- A collaborator that is a function: the injected table, and the free function outside it. -/
def answerFor {α β : Type} [DecidableEq α] (table : List (α × β)) (free : α → β) (a : α) : β :=
  match table.find? fun e => e.1 = a with
  | some e => e.2
  | none => free a

/-- The host's state of 60_exceptions.md R221: construction happens before `Running` (R222). -/
def Mode.hostState : Mode → HostState
  | .idle => .idle
  | .starting _ => .idle
  | .configuring _ => .idle
  | .validating _ => .idle
  | .constructionFailed _ => .idle
  | .running _ _ => .running
  | .stopped _ => .stopped

/-- `serialize(dst, payload)` (60_exceptions.md R220). -/
def Generator.serialize (g : Generator) (c : GeneratorConfig) (dst : Destination) : List Byte :=
  answerFor g.serialized (fun d => Config.serialize d c.payload) dst

/-- `isFatal(kind)` (60_exceptions.md R220, R225). -/
def Generator.isFatal (g : Generator) (kind : TransportKind) : Bool := answerFor g.fatal Config.isFatal kind

/-- The host's mode changes and nothing else. -/
def State.setMode (s : State) (m : Mode) : State := { s with gen := { s.gen with mode := m } }

/-- Reads the clock (60_exceptions.md R220): the timestamp, and the state after the reading. -/
def State.tick (s : State) : Nat × State :=
  let a := nextAnswer s.gen.times (Config.clock s.free)
  (a.1, { s with free := drawsAfter s.gen.times s.free, gen := { s.gen with times := a.2 } })

/-- Appends the record that `entry` makes of the current time (60_exceptions.md R226). -/
def State.addLog (s : State) (entry : Nat → LogEntry) : State :=
  let t := s.tick
  { t.2 with gen := { t.2.gen with log := entry t.1 :: t.2.gen.log } }

/-- Construction fails: the error is logged and `Running` is never reached (60_exceptions.md R222, R226). -/
def State.failConstruction (s : State) (e : HostError) : State :=
  (s.addLog (.failed e)).setMode (.constructionFailed e)

/-- The host logs a block error and stops (60_exceptions.md R229). -/
def State.stopOn (s : State) (e : HostError) : State := (s.addLog (.failed e)).setMode (.stopped (some e))

/-- The register writes of construction, steps 2 and 3 (60_exceptions.md R222). -/
def setupLines (c : GeneratorConfig) : List Line :=
  ldMac .ethDstHi .ethDstLo c.ethDst ++ ldMac .ethSrcHi .ethSrcLo c.ethSrc ++
    [.wr (.reg .etypeBier) (c.etypeBier.setWidth 32), .wr (.reg .etypeIp) (c.etypeIp.setWidth 32),
     .wr (.reg .mcfg) (if c.template.isSome then 1 else 0)]

/-- LDBUF's length of `n` bytes lets MARSHAL report exactly whether `n` is above L3_MAX: what L3LEN.LEN keeps of it is
above L3_MAX when `n` is (60_exceptions.md R229, 20_memory.md R65). -/
def lengthIsSeen (p : Params) (n : Nat) : Bool := n ≤ p.l3Max || (decide (n < 2 ^ 32) && decide (p.l3Max < n % 2 ^ 16))

/-- What the host writes to L3LEN for `n` serialized bytes: LDBUF's length (30_encoding.md R105), and where L3LEN.LEN
would keep too little of it for LengthError(1) to occur exactly when `n` is above L3_MAX, as 60_exceptions.md R229 says
it does, a free 16-bit value above L3_MAX (DESIGN CHOICE, log 17). -/
def hostLengthWord (p : Params) (n : Nat) : Word :=
  if lengthIsSeen p n then lengthWord n
  else BitVec.ofNat 32 (p.l3Max + 1 + Config.overLength n % (0xFFFF - p.l3Max))

/-- `LDBUF L3BUF, L` as the host issues it (60_exceptions.md R223, 30_encoding.md R105). -/
def hostLdBuf (p : Params) (bytes : List Byte) : List Line :=
  ldBuf .l3buf bytes ++ [.wr (.reg .l3len) (hostLengthWord p bytes.length)]

/-- A command followed by the read of its outcome. -/
def commandLines (i : Instr) : List Line := [.wr (.reg .cmd) (encode i), .rd (.reg .status)]

/-- Construction (60_exceptions.md R222): an empty pool fails before any register write; otherwise the registers are
written, and a template is written and validated. -/
def construct (c : GeneratorConfig) (s : State) : Host.Outcome State Fault Refusal :=
  if c.pool = [] then .next (s.failConstruction .emptyPoolError)
  else
    match c.template with
    | none => .next ((s.issue (setupLines c)).setMode (.configuring c))
    | some h => .next ((s.issue (setupLines c ++ ldHdr h ++ commandLines .validate)).setMode (.validating c))

/-- Goes on with the value that the host's last read returned (20_memory.md R62); a read that was not answered with
data has no rule. -/
def onReply (s : State) (k : Word → Host.Outcome State Fault Refusal) : Host.Outcome State Fault Refusal :=
  match s.replies with
  | .data v :: _ => k v
  | _ => .refused .unexpectedReply

/-- Goes on with the outcome of the host's last command, read from STATUS: `done` on success, `failed e` on the error
it carries (60_exceptions.md R222, R223, R230). -/
def onStatus (s : State) (done : Host.Outcome State Fault Refusal) (failed : CmdError → Host.Outcome State Fault Refusal) :
    Host.Outcome State Fault Refusal :=
  onReply s fun w =>
    if statusErr w then
      match CmdError.ofStatus w with
      | some e => failed e
      | none => .refused .reservedStatus
    else done

/-- Step 1 of an iteration: the drawn destination, `pool[i]` for a draw `i` below the pool's length (60_exceptions.md
R223, R224). -/
def drawnDestination (c : GeneratorConfig) (draw : Nat) : Option Destination := c.pool[draw % c.pool.length]?

/-- Steps 1 and 2: draws a destination, writes its layer-3 bytes with LDBUF and issues MARSHAL (60_exceptions.md
R223). -/
def select (c : GeneratorConfig) (s : State) : Host.Outcome State Fault Refusal :=
  let a := nextAnswer s.gen.draws (Config.rngDraw s.free)
  let s' := { s with free := drawsAfter s.gen.draws s.free, gen := { s.gen with draws := a.2 } }
  match drawnDestination c a.1 with
  | none => .refused .emptyPoolWhileRunning
  | some dst =>
    .next ((s'.issue (hostLdBuf s.params (s.gen.serialize c dst) ++ commandLines .marshal)).setMode
      (.running c (.marshalling dst)))

/-- The reads of the frame's words, `FBUF[0 .. len-1]` word by word (60_exceptions.md R223). -/
def frameReads (len : Nat) : List Line := (List.range ((len + 3) / 4)).map fun j => Line.rd (.fbuf j)

/-- The values of the last `n` reads, oldest first; none unless all of them were answered with data. -/
def lastData (replies : List Reply) (n : Nat) : Option (List Word) :=
  let last := (replies.take n).reverse
  if last.length = n then
    last.mapM fun r =>
      match r with
      | .data v => some v
      | .ok => none
      | .buserr => none
      | .platform => none
  else none

/-- The frame from its words: their bytes, big-endian, cut to `len` (60_exceptions.md R223, 20_memory.md R67). -/
def frameOfWords (words : List Word) (len : Nat) : List Byte :=
  (words.map fun w => be32 w.toNat).flatten.take len

/-- Step 3: hands the frame to `send`, whose answer decides (60_exceptions.md R223, R225): a fatal error is logged and
stops the host, any other is logged and the iteration goes on; nothing is retried. -/
def send (c : GeneratorConfig) (dst : Destination) (frame : List Byte) (s : State) : State :=
  let a := nextAnswer s.gen.sends (Config.sendResult s.free c.ifName frame)
  let s' := { s with
    free := drawsAfter s.gen.sends s.free
    gen := { s.gen with sends := a.2, sent := frame :: s.gen.sent } }
  match a.1 with
  | .ok => s'.setMode (.running c (.logging dst frame.length))
  | .transportError kind =>
    let t := s'.addLog fun time => .sendFailed dst frame.length time kind
    if s.gen.isFatal kind then t.setMode (.stopped (some (.transportError kind)))
    else t.setMode (.running c (.logging dst frame.length))

/-- The suspension point: a stop signal that has arrived ends the run, otherwise the next iteration starts
(60_exceptions.md R227, R228). -/
def pollStop (c : GeneratorConfig) (s : State) : State :=
  let a := nextAnswer s.gen.stops (Config.stopSignal s.free)
  let s' := { s with free := drawsAfter s.gen.stops s.free, gen := { s.gen with stops := a.2 } }
  s'.setMode (if a.1 then .stopped none else .running c .selecting)

/-- Steps 4 and 5: logs the send, then suspends, or with INTERVAL = 0 goes on without a suspension (60_exceptions.md
R223, R226, R227). -/
def logSend (c : GeneratorConfig) (dst : Destination) (len : Nat) (s : State) : State :=
  let t := s.addLog fun time => .sent dst len time
  if c.interval = 0 then pollStop c t else t.setMode (.running c .suspended)

/-- One phase of a running host's iteration (60_exceptions.md R223). -/
def iterate (c : GeneratorConfig) (s : State) : Phase → Host.Outcome State Fault Refusal
  | .selecting => select c s
  | .marshalling dst =>
    onStatus s (.next ((s.issue [.rd (.reg .flen)]).setMode (.running c (.sizing dst))))
      fun e => .next (s.stopOn (.command e))
  | .sizing dst =>
    onReply s fun w => .next ((s.issue (frameReads (lenOf w))).setMode (.running c (.collecting dst (lenOf w))))
  | .collecting dst len =>
    match lastData s.replies ((len + 3) / 4) with
    | some words => .next (s.setMode (.running c (.sending dst (frameOfWords words len))))
    | none => .refused .unexpectedReply
  | .sending dst frame => .next (send c dst frame s)
  | .logging dst len => .next (logSend c dst len s)
  | .suspended => .next (pollStop c s)

/-- One step of the host agent, all its issued transactions performed (60_exceptions.md R221). Idle, a failed
construction and Stopped do nothing. -/
def hostStep (s : State) : Host.Outcome State Fault Refusal :=
  match s.gen.mode with
  | .idle => .next s
  | .starting c => construct c s
  | .configuring c => .next (s.setMode (.running c .selecting))
  | .validating c =>
    onStatus s (.next (s.setMode (.running c .selecting))) fun e => .next (s.failConstruction (.command e))
  | .constructionFailed _ => .next s
  | .running c p => iterate c s p
  | .stopped _ => .next s

/-- The start of the generator: it has an effect in Idle only (60_exceptions.md R221; log 14). -/
def startGenerator (c : GeneratorConfig) (s : State) : State :=
  match s.gen.mode with
  | .idle => s.setMode (.starting c)
  | _ => s

/-- The reset input: the block takes its reset state, its buffers a fresh free draw for every byte
(70_reset_and_hazards.md R240). -/
def resetBlock (s : State) : State := { s with block := Block.reset (s.block.epoch + 1) }

/-- One step: the oldest pending input is performed; with none pending, the host agent acts. With MULTI_MASTER true
there is no rule (60_exceptions.md R212). -/
def advance (run : Instr → State → Host.Outcome State Fault Refusal) (s : State) : Host.Outcome State Fault Refusal :=
  if s.params.multiMaster then .refused .multiMaster
  else
    match s.pending with
    | .access a :: rest => perform run a { s with pending := rest }
    | .reset :: rest => .next (resetBlock { s with pending := rest })
    | .start c :: rest => .next (startGenerator c { s with pending := rest })
    | [] => hostStep s

end Sys2Proof.Machine
end

