-- ==== Sys2Proof/Machine/Step.lean ====
section
/-! DEFINITION. One step of the whole machine, and where it takes its next command from (20_memory.md R70, R75). -/

namespace Sys2Proof.Machine

/-- One step: one transaction, one other input, or one step of the host agent (60_exceptions.md R212). -/
def step (s : State) : Host.Outcome State Fault Refusal := advance exec s

/-- `s` with the write of a command word to CMD issued before everything else that is pending, so that the next step
performs it (10_state.md R22; log 1). -/
def State.withFetchWord (s : State) (nbits w : Nat) : State :=
  { s with pending := .access (fetchAccess s.params nbits w) :: s.pending }

end Sys2Proof.Machine
end

