-- ==== Sys2Proof/Safety.lean ====
section
/-! DEFINITION. What claims speak of: the invariant of the block (10_state.md R22 to R36), the legal forms of STATUS
(R23), and the words the statements share. -/

namespace Sys2Proof.Machine

/-- `f` is the lowest field index that is out of range (40_codec.md R132). -/
def LowestFailing (h : Header) (f : Field) : Prop :=
  2 ^ f.width ≤ h.field f ∧ ∀ g : Field, g.idx < f.idx → h.field g < 2 ^ g.width

/-- Every field is in range (40_codec.md R131). -/
def InRange (h : Header) : Prop := ∀ f : Field, h.field f < 2 ^ f.width

/-- The state after `s` with STATUS replaced and nothing else written (60_exceptions.md R203, R207). -/
def State.withStatus (s : State) (w : Word) : State := { s with block := { s.block with status := w } }

/-- The STATUS word of RangeError (60_exceptions.md R203). -/
def rangeStatus (f : Field) : Word := 0x00000013 ||| (BitVec.ofNat 32 f.idx <<< 8)

/-- The form of STATUS (10_state.md R23): RES0 bits read 0, ERR = 1 exactly when ERRCODE is not 0, ERRCODE is one of
the four produced, ERRINFO is 0 when ERR = 0, and DONE = 0 only when STATUS is 0. -/
def StatusForm (w : Word) : Prop :=
  w.extractLsb' 2 2 = 0 ∧ w.extractLsb' 16 16 = 0 ∧ (statusErr w = true ↔ statusErrCode w ≠ 0) ∧ statusErrCode w ≤ 3 ∧
    (statusErr w = false → statusErrInfo w = 0) ∧ (statusDone w = false → w = 0)

/-- A window offset that is a byte of a buffer (10_state.md R34 to R36). -/
def InBuffer (p : Params) (a : Nat) : Prop :=
  (wbufBase ≤ a ∧ a < wbufBase + hdrBytes) ∨ (l3bufBase ≤ a ∧ a < l3bufBase + p.l3Max) ∨
    (fbufBase ≤ a ∧ a < fbufBase + p.frameMax)

/-- The invariant of the block: the memory keeps its canonical form and lists only buffer bytes, the listed bytes of FBUF
are exactly those of the last frame (10_state.md R36), RES0 bits read 0 (R24 to R31), and STATUS has a legal form
(R23). -/
structure Block.Inv (p : Params) (b : Block) : Prop where
  memWf       : Memory.wf b.mem
  memInBuffer : ∀ c ∈ b.mem, InBuffer p c.1
  frameStored : ∀ k, (Memory.byte? b.mem (fbufBase + k)).isSome ↔ k < lenOf b.flen
  flenBound   : b.flen.toNat ≤ p.frameMax
  wlenRes0    : b.wlen.toNat < 2 ^ 16
  mcfgRes0    : b.mcfg.toNat < 2
  dstHiRes0   : b.ethDstHi.toNat < 2 ^ 16
  srcHiRes0   : b.ethSrcHi.toNat < 2 ^ 16
  etBierRes0  : b.etypeBier.toNat < 2 ^ 16
  etIpRes0    : b.etypeIp.toNat < 2 ^ 16
  l3lenRes0   : b.l3len.toNat < 2 ^ 16
  statusForm  : StatusForm b.status

/-- The invariant of the machine. -/
def State.Inv (s : State) : Prop := s.block.Inv s.params

/-- The bus master's next transaction is `a`, at a machine with one bus master (60_exceptions.md R212). -/
structure Issued (s : State) (a : Access) (rest : List Input) : Prop where
  oneMaster : s.params.multiMaster = false
  pending   : s.pending = .access a :: rest

/-- A 32-bit access at a window offset (20_memory.md R62). -/
def wordAccess (p : Params) (off : Nat) (op : Op) : Access where
  addr := p.base + off
  bits := 32
  op   := op

/-- The machine after a transaction whose only effect is its response. -/
def State.answered (s : State) (rest : List Input) (r : Reply) : State :=
  { s with pending := rest, replies := r :: s.replies }

/-- The state after a bus write that left `w` in register `r` and wrote nothing else (20_memory.md R65). -/
structure RegWritten (s : State) (rest : List Input) (r : Reg) (w : Word) (t : State) : Prop where
  onlyBlock : t = { s.answered rest .ok with block := t.block }
  written   : t.block.reg r = w
  others    : ∀ q : Reg, q ≠ r → t.block.reg q = s.block.reg q
  mem       : t.block.mem = s.block.mem
  epoch     : t.block.epoch = s.block.epoch

/-- The state after a bus write that left `v` in the four bytes at window offset `a`, most significant byte first, and
wrote nothing else (20_memory.md R65, R67). -/
structure WordWritten (s : State) (rest : List Input) (a : Nat) (v : Word) (t : State) : Prop where
  onlyBlock : t = { s.answered rest .ok with block := t.block }
  written   : ∀ i < 4, t.block.byte (a + i) = v.extractLsb' (24 - 8 * i) 8
  others    : ∀ x : Nat, ¬(a ≤ x ∧ x < a + 4) → t.block.byte x = s.block.byte x
  regs      : ∀ r : Reg, t.block.reg r = s.block.reg r
  epoch     : t.block.epoch = s.block.epoch

/-- The buffers after the word writes of LDBUF (30_encoding.md R105): the bytes stand at `base` in order, missing bytes of
the last word are 0x00, and no other byte was written. -/
structure BytesLoaded (s : State) (base : Nat) (bytes : List Byte) (t : State) : Prop where
  loaded : ∀ k < bytes.length, t.block.byte (base + k) = bytes.getD k 0
  padded : ∀ k, bytes.length ≤ k → k < 4 * ((bytes.length + 3) / 4) → t.block.byte (base + k) = 0
  others : ∀ a : Nat, ¬(base ≤ a ∧ a < base + 4 * ((bytes.length + 3) / 4)) → t.block.byte a = s.block.byte a
  epoch  : t.block.epoch = s.block.epoch

/-- The machine after `n` writes were answered OK, which changed nothing else but the block. -/
def State.wrote (s : State) (rest : List Input) (n : Nat) (b : Block) : State :=
  { s with pending := rest, block := b, replies := List.replicate n .ok ++ s.replies }

/-- The four bytes at a window offset as one bus word, the first in bits [31:24] (20_memory.md R64, R67). -/
def laneWord (b : Block) (a : Nat) : Word := b.byte a ++ b.byte (a + 1) ++ b.byte (a + 2) ++ b.byte (a + 3)

/-- The unmapped offsets of 20_memory.md R61 inside the 16 KiB window. -/
def Unmapped (p : Params) (off : Nat) : Prop :=
  (0x0030 ≤ off ∧ off < 0x0040) ∨ (0x0074 ≤ off ∧ off < 0x0080) ∨ (0x00A0 ≤ off ∧ off < 0x0100) ∨
    (0x012C ≤ off ∧ off < 0x1000) ∨ (0x1000 + p.l3Max ≤ off ∧ off < 0x2000) ∨
    (0x2000 + 4 * p.frameWords ≤ off ∧ off < 0x4000)

/-- MCFG.BIER_EN (10_state.md R25). -/
def BierEn (b : Block) : Prop := b.mcfg.getLsbD 0 = true

/-- The 6 bytes of a link-layer address as its HI and LO registers hold them (10_state.md R26, R27). -/
def macBytes (hi lo : Word) : List Byte :=
  [hi.extractLsb' 8 8, hi.extractLsb' 0 8, lo.extractLsb' 24 8, lo.extractLsb' 16 8, lo.extractLsb' 8 8,
   lo.extractLsb' 0 8]

/-- The 14 bytes before the header or the layer-3 bytes, with an ethertype register (30_encoding.md R103). -/
def linkBytes (b : Block) (etype : Word) : List Byte :=
  macBytes b.ethDstHi b.ethDstLo ++ macBytes b.ethSrcHi b.ethSrcLo ++ [etype.extractLsb' 8 8, etype.extractLsb' 0 8]

/-- What a successful MARSHAL leaves (41_marshal.md R173, 30_encoding.md R103): the frame in FBUF, its length in FLEN,
STATUS, and nothing else but the FBUF bytes above the frame, which are unspecified (10_state.md R36). -/
structure FrameBuilt (s : State) (frame : List Byte) (t : State) : Prop where
  onlyBlock : t = { s with block := t.block }
  fbuf      : t.block.bytes fbufBase frame.length = frame
  flen      : t.block.flen.toNat = frame.length
  status    : t.block.status = 0x00000001
  regs      : ∀ r : Reg, r ≠ .status → r ≠ .flen → t.block.reg r = s.block.reg r
  others    : ∀ a : Nat, ¬(fbufBase ≤ a ∧ a < fbufBase + s.params.frameMax) → t.block.byte a = s.block.byte a
  epoch     : t.block.epoch = s.block.epoch

/-- What a successful ENCODE leaves (40_codec.md R142): the wire bytes in WBUF, WLEN = 44, STATUS, and nothing else. -/
structure HeaderEncoded (s : State) (bytes : List Byte) (t : State) : Prop where
  onlyBlock : t = { s with block := t.block }
  wbuf      : t.block.bytes wbufBase 44 = bytes
  wlen      : t.block.wlen = 44
  status    : t.block.status = 0x00000001
  regs      : ∀ r : Reg, r ≠ .status → r ≠ .wlen → t.block.reg r = s.block.reg r
  others    : ∀ a : Nat, ¬(wbufBase ≤ a ∧ a < wbufBase + 44) → t.block.byte a = s.block.byte a
  epoch     : t.block.epoch = s.block.epoch

/-- What a successful DECODE leaves (40_codec.md R143): each field register holds its bits of the 44 bytes of WBUF, zero
extended, BSk the bitstring's word k, STATUS, and nothing else. -/
structure HeaderDecoded (s t : State) : Prop where
  onlyBlock : t = { s with block := t.block }
  fields    : ∀ (f : Field) (r : Reg), f.reg = some r → t.block.reg r =
    BitVec.ofNat 32 (slice (catBytes (s.block.bytes wbufBase 44)) (f.headerLo + f.width - 1) f.headerLo)
  bitstring : ∀ (k : Nat) (r : Reg), Reg.bitstring[k]? = some r → t.block.reg r = laneWord s.block (wbufBase + 12 + 4 * k)
  status    : t.block.status = 0x00000001
  control   : ∀ r ∈ Reg.control, r ≠ .status → t.block.reg r = s.block.reg r
  mem       : t.block.mem = s.block.mem
  epoch     : t.block.epoch = s.block.epoch

/-- Why a running host stops, `m` being the mode it stops in (60_exceptions.md R221): a stop signal at a suspension, or
at the end of an iteration with INTERVAL = 0 (R228), a transport error that is fatal (R225), or a block error that MARSHAL
reported (R229). -/
inductive StopCause (s : State) (m : Mode) : Prop where
  | signalAtSuspension (c : GeneratorConfig) (phase : s.gen.mode = .running c .suspended)
      (signal : (nextAnswer s.gen.stops (Config.stopSignal s.free)).1 = true) (stopped : m = .stopped none)
  | signalWithoutSuspension (c : GeneratorConfig) (dst : Destination) (len : Nat)
      (phase : s.gen.mode = .running c (.logging dst len)) (noInterval : c.interval = 0)
      (signal : (nextAnswer s.gen.stops (Config.stopSignal (drawsAfter s.gen.times s.free))).1 = true)
      (stopped : m = .stopped none)
  | fatalTransport (c : GeneratorConfig) (dst : Destination) (frame : List Byte) (kind : TransportKind)
      (phase : s.gen.mode = .running c (.sending dst frame))
      (answer : (nextAnswer s.gen.sends (Config.sendResult s.free c.ifName frame)).1 = .transportError kind)
      (fatal : s.gen.isFatal kind = true) (stopped : m = .stopped (some (.transportError kind)))
  | blockError (c : GeneratorConfig) (dst : Destination) (w : Word) (earlier : List Reply) (e : CmdError)
      (phase : s.gen.mode = .running c (.marshalling dst)) (reply : s.replies = .data w :: earlier)
      (failed : statusErr w = true) (carried : CmdError.ofStatus w = some e) (stopped : m = .stopped (some (.command e)))

end Sys2Proof.Machine
end

