-- ==== Sys2Proof/Certificates/Slice0/Obligations.lean ====
section
/-! DEFINITION. The statements for the provers, from the numbered rules of spec/. -/

open Sys2Proof Sys2Proof.Machine

/-! ### Command words -/

/-- 30_encoding.md R102: exactly four words are commands, and every other word is IllegalCommand with its bits [3:0]
(R101). -/
def Obligations.ExactlyFourWordsAreCommands : Prop :=
  ∀ v : Word,
    (decode v = .ok .validate ↔ v = 0x00000001) ∧ (decode v = .ok .encode ↔ v = 0x00000002) ∧
    (decode v = .ok .decode ↔ v = 0x00000003) ∧ (decode v = .ok .marshal ↔ v = 0x00000004) ∧
    (v ≠ 0x00000001 → v ≠ 0x00000002 → v ≠ 0x00000003 → v ≠ 0x00000004 →
      ∃ r, decode v = .error r ∧ r.opc = v.extractLsb' 0 4)

/-- 30_encoding.md R100: the table's four words, written out bit by bit, decode to their commands, and the encoder
gives them. -/
def Obligations.TableWordsDecode : Prop :=
  decode 0b00000000000000000000000000000001 = .ok .validate ∧
  decode 0b00000000000000000000000000000010 = .ok .encode ∧
  decode 0b00000000000000000000000000000011 = .ok .decode ∧
  decode 0b00000000000000000000000000000100 = .ok .marshal ∧
  ∀ i : Instr, i.wellFormed = true → decode (encode i) = .ok i

/-! ### The codec's pure functions -/

/-- 40_codec.md R132: validate succeeds exactly on a header in range, and otherwise reports the lowest failing field. -/
def Obligations.ValidateReportsLowestFailingField : Prop :=
  ∀ h : Header,
    (validateHeader h = .ok () ↔ InRange h) ∧
    (∀ f : Field, validateHeader h = .error (.rangeError f) ↔ LowestFailing h f) ∧
    (∀ e : CmdError, validateHeader h = .error e → ∃ f : Field, e = .rangeError f)

/-- 40_codec.md R135, the round-trip law from a header. -/
def Obligations.EncodedHeaderDecodesToItself : Prop :=
  ∀ h : Header, validateHeader h = .ok () → ∃ bytes, encodeHeader h = .ok bytes ∧ decodeHeader bytes = .ok h

/-- 40_codec.md R136, the round-trip law from 44 bytes. -/
def Obligations.DecodedBytesEncodeToThemselves : Prop :=
  ∀ bytes : List Byte, bytes.length = 44 → ∃ h, decodeHeader bytes = .ok h ∧ encodeHeader h = .ok bytes

/-- 40_codec.md R137: every 44-byte sequence decodes to a header in range. -/
def Obligations.DecodedHeaderIsInRange : Prop :=
  ∀ bytes : List Byte, bytes.length = 44 → ∃ h, decodeHeader bytes = .ok h ∧ validateHeader h = .ok ()

/-- 40_codec.md R134: decode fails on the length alone. -/
def Obligations.DecodeFailsOnlyOnLength : Prop :=
  ∀ bytes : List Byte,
    (bytes.length ≠ 44 → decodeHeader bytes = .error (.lengthError .decodeInput)) ∧
    (bytes.length = 44 → ∃ h, decodeHeader bytes = .ok h)

/-- 30_encoding.md R90, R91: an encoded header has 44 bytes, and each field occupies its header bits, the LSB-0
positions of the 352-bit big-endian value. -/
def Obligations.EncodedFieldsStandInTheirHeaderBits : Prop :=
  ∀ h : Header, InRange h → ∃ bytes, encodeHeader h = .ok bytes ∧ bytes.length = 44 ∧
    ∀ f : Field, slice (catBytes bytes) (f.headerLo + f.width - 1) f.headerLo = h.field f

/-- 30_encoding.md R98: the fields' bits partition the 352 header bits, every 44-byte sequence encodes exactly one header
in range, and `bsl` changes neither the length nor the bitstring's bytes. -/
def Obligations.FieldsPartitionTheHeaderBits : Prop :=
  (∀ n < 352, ∃! f : Field, f.headerLo ≤ n ∧ n < f.headerLo + f.width) ∧
  (∀ f : Field, f.headerLo + f.width ≤ 352) ∧
  (∀ bytes : List Byte, bytes.length = 44 → ∃! h : Header, InRange h ∧ encodeHeader h = .ok bytes) ∧
  (∀ (h : Header) (bsl : Nat), InRange h → bsl < 16 → ∃ bytes bytes',
    encodeHeader h = .ok bytes ∧ encodeHeader { h with bsl := bsl } = .ok bytes' ∧
    bytes'.length = bytes.length ∧ bytes'.drop 12 = bytes.drop 12)

/-- 30_encoding.md R97: bit `k` of the bitstring is bit `k mod 8` of wire byte `43 - (k div 8)`, which is wire bit
`351 - k` counted from the most significant bit of the first byte. -/
def Obligations.BitstringBitHasItsWireBit : Prop :=
  ∀ (h : Header) (k : Nat), InRange h → k < 256 → ∃ bytes, encodeHeader h = .ok bytes ∧
    (bytes.getD (43 - k / 8) 0).getLsbD (k % 8) = h.bitstring.testBit k ∧
    (bytes.getD ((351 - k) / 8) 0).getMsbD ((351 - k) % 8) = h.bitstring.testBit k

/-! ### The commands -/

/-- 40_codec.md R140 with 10_state.md R32, R33: the register view of the header. Each scalar field is the 32-bit value of
the register at 0x0040 + 4 * idx, so all 13 of them can be out of range; the bitstring is BS0 to BS7, so it never is. -/
def Obligations.HeaderViewIsTheRegisters : Prop :=
  (∀ (b : Block) (f : Field), f ≠ .bitstring →
    ∃ r : Reg, f.reg = some r ∧ r.offset = 0x0040 + 4 * f.idx ∧ b.hdrOf.field f = (b.reg r).toNat) ∧
  (∀ (b : Block) (k : Nat), k < 8 →
    ∃ r : Reg, Reg.bitstring[k]? = some r ∧ r.offset = 0x0080 + 4 * k ∧
      slice b.hdrOf.bitstring (255 - 32 * k) (224 - 32 * k) = (b.reg r).toNat) ∧
  (∀ b : Block, b.hdrOf.bitstring < 2 ^ 256) ∧
  ∃ b : Block, ∀ f : Field, f ≠ .bitstring → 2 ^ f.width ≤ b.hdrOf.field f

/-- 40_codec.md R141: VALIDATE writes STATUS only, for every state: ok, or the lowest failing field, which is never the
bitstring. -/
def Obligations.ValidateWritesStatusOnly : Prop :=
  ∀ s : State,
    (InRange s.block.hdrOf → exec .validate s = .next (s.withStatus 0x00000001)) ∧
    (∀ f : Field, LowestFailing s.block.hdrOf f →
      f ≠ .bitstring ∧ exec .validate s = .next (s.withStatus (rangeStatus f)))

/-- 40_codec.md R142: ENCODE writes the wire bytes of the header in the registers to WBUF and 44 to WLEN, or on a field
out of range STATUS only. -/
def Obligations.EncodeWritesWbufAndWlen : Prop :=
  ∀ s : State,
    (InRange s.block.hdrOf → ∃ t bytes, exec .encode s = .next t ∧ encodeHeader s.block.hdrOf = .ok bytes ∧
      HeaderEncoded s bytes t) ∧
    (∀ f : Field, LowestFailing s.block.hdrOf f → exec .encode s = .next (s.withStatus (rangeStatus f)))

/-- 30_encoding.md R92 to R95 in registers: the eleven bus words of WBUF after an ENCODE. -/
def Obligations.EncodedWordsOfWbuf : Prop :=
  ∀ s : State, InRange s.block.hdrOf → ∃ t, exec .encode s = .next t ∧
    laneWord t.block 0x0100 =
      (s.block.fBiftId <<< 12) ||| (s.block.fTc <<< 9) ||| (s.block.fS <<< 8) ||| s.block.fTtl ∧
    laneWord t.block 0x0104 =
      (s.block.fNibble <<< 28) ||| (s.block.fVersion <<< 24) ||| (s.block.fBsl <<< 20) ||| s.block.fEntropy ∧
    laneWord t.block 0x0108 =
      (s.block.fOam <<< 30) ||| (s.block.fRsv <<< 28) ||| (s.block.fDscp <<< 22) ||| (s.block.fProto <<< 16) |||
        s.block.fBfirId ∧
    ∀ (k : Nat) (r : Reg), Reg.bitstring[k]? = some r → laneWord t.block (0x010C + 4 * k) = s.block.reg r

/-- 40_codec.md R143: DECODE with WLEN.LEN = 44 always writes every field and bitstring register from WBUF, and with any
other length writes STATUS = 0x00000023 only. -/
def Obligations.DecodeWritesHeaderRegisters : Prop :=
  ∀ s : State,
    (s.block.wlen.extractLsb' 0 16 = 44 → ∃ t, exec .decode s = .next t ∧ HeaderDecoded s t) ∧
    (s.block.wlen.extractLsb' 0 16 ≠ 44 → exec .decode s = .next (s.withStatus 0x00000023))

/-- 41_marshal.md R173 with 30_encoding.md R103: MARSHAL builds the frame of either layout, its BIER header only when
BIER_EN = 1; the header is checked before the length; a failure writes STATUS only. -/
def Obligations.MarshalBuildsTheFrame : Prop :=
  ∀ s : State,
    (∀ f : Field, BierEn s.block → LowestFailing s.block.hdrOf f →
      exec .marshal s = .next (s.withStatus (rangeStatus f))) ∧
    ((BierEn s.block → InRange s.block.hdrOf) → s.params.l3Max < lenOf s.block.l3len →
      exec .marshal s = .next (s.withStatus 0x00000123)) ∧
    (BierEn s.block → InRange s.block.hdrOf → lenOf s.block.l3len ≤ s.params.l3Max →
      ∃ t bytes, exec .marshal s = .next t ∧ encodeHeader s.block.hdrOf = .ok bytes ∧
        t.block.flen.toNat = 14 + 44 + lenOf s.block.l3len ∧
        FrameBuilt s (linkBytes s.block s.block.etypeBier ++ bytes ++ s.block.bytes l3bufBase (lenOf s.block.l3len)) t) ∧
    (¬BierEn s.block → lenOf s.block.l3len ≤ s.params.l3Max →
      ∃ t, exec .marshal s = .next t ∧ t.block.flen.toNat = 14 + lenOf s.block.l3len ∧
        FrameBuilt s (linkBytes s.block s.block.etypeIp ++ s.block.bytes l3bufBase (lenOf s.block.l3len)) t)

/-- 41_marshal.md R175: where the parts of a frame stand in FBUF: the encoded header at bytes 14 to 57, its fixed part
first, and the layer-3 bytes from byte 58; without BIER from byte 14. -/
def Obligations.FramePartsStandAtTheirBytes : Prop :=
  ∀ s : State, lenOf s.block.l3len ≤ s.params.l3Max →
    (BierEn s.block → InRange s.block.hdrOf →
      ∃ t bytes, exec .marshal s = .next t ∧ encodeHeader s.block.hdrOf = .ok bytes ∧
        t.block.bytes (fbufBase + 14) 44 = bytes ∧ t.block.bytes (fbufBase + 14) 12 = bytes.take 12 ∧
        t.block.bytes (fbufBase + 26) 32 = be256 s.block.hdrOf.bitstring ∧
        (∀ k < lenOf s.block.l3len, t.block.byte (fbufBase + 58 + k) = s.block.byte (l3bufBase + k))) ∧
    (¬BierEn s.block →
      ∃ t, exec .marshal s = .next t ∧
        ∀ k < lenOf s.block.l3len, t.block.byte (fbufBase + 14 + k) = s.block.byte (l3bufBase + k))

/-- 41_marshal.md R173, corner case: with BIER_EN = 0 the header is not read, so MARSHAL does the same whatever the
header registers hold. -/
def Obligations.MarshalWithoutBierIgnoresTheHeader : Prop :=
  ∀ (s : State) (h : Header), ¬BierEn s.block →
    ∃ t, exec .marshal s = .next t ∧
      exec .marshal { s with block := s.block.setHdr h } = .next { t with block := t.block.setHdr h }

/-- 40_codec.md R142, corner case: ENCODE does not depend on MCFG, ETH_*, ETYPE_* or L3LEN. -/
def Obligations.EncodeIgnoresTheFrameRegisters : Prop :=
  ∀ (s : State) (r : Reg) (v : Word),
    r ∈ [Reg.mcfg, .ethDstHi, .ethDstLo, .ethSrcHi, .ethSrcLo, .etypeBier, .etypeIp, .l3len] →
    ∃ t, exec .encode s = .next t ∧
      exec .encode { s with block := s.block.setReg r v } = .next { t with block := t.block.setReg r v }

/-- 60_exceptions.md R207: every command word completes, and one that fails leaves exactly the state before it with STATUS
replaced by the word of its error; the errors are those that R200 gives the command. -/
def Obligations.FailedCommandReplacesStatusOnly : Prop :=
  (∀ (i : Instr) (s : State), ∃ t, exec i s = .next t ∧
    (t.block.status = 0x00000001 ∨
     (i ≠ .decode ∧ ∃ f : Field, f ≠ .bitstring ∧ t = s.withStatus (rangeStatus f)) ∨
     (i = .decode ∧ t = s.withStatus 0x00000023) ∨
     (i = .marshal ∧ t = s.withStatus 0x00000123))) ∧
  ∀ (v : Word) (s : State), (∀ i : Instr, decode v ≠ .ok i) →
    command exec v s = .next (s.withStatus (0x00000033 ||| ((v &&& 0x0000000F) <<< 8)))

/-- 20_memory.md R74: which command may write which state. -/
def Obligations.CommandsWriteOnlyTheirResults : Prop :=
  ∀ (i : Instr) (s t : State), exec i s = .next t →
    t = { s with block := t.block } ∧ t.block.epoch = s.block.epoch ∧
    (∀ r ∈ [Reg.cmd, .mcfg, .ethDstHi, .ethDstLo, .ethSrcHi, .ethSrcLo, .etypeBier, .etypeIp, .l3len],
      t.block.reg r = s.block.reg r) ∧
    (i ≠ .encode → t.block.wlen = s.block.wlen) ∧
    (i ≠ .marshal → t.block.flen = s.block.flen) ∧
    (i ≠ .decode → ∀ r ∈ Reg.fields ++ Reg.bitstring, t.block.reg r = s.block.reg r) ∧
    ∀ a : Nat, ¬(i = .encode ∧ wbufBase ≤ a ∧ a < wbufBase + 44) →
      ¬(i = .marshal ∧ fbufBase ≤ a ∧ a < fbufBase + s.params.frameMax) → t.block.byte a = s.block.byte a

/-- 40_codec.md R144: the round-trip laws through the registers. After an ENCODE that succeeded, DECODE changes nothing;
after a DECODE with WLEN = 44, ENCODE restores WBUF. -/
def Obligations.RoundTripThroughTheRegisters : Prop :=
  (∀ s : State, InRange s.block.hdrOf →
    ∃ t, exec .encode s = .next t ∧ exec .decode t = .next t ∧ t.block.status = 0x00000001) ∧
  (∀ s : State, lenOf s.block.wlen = 44 →
    ∃ t u, exec .decode s = .next t ∧ exec .encode t = .next u ∧
      u.block.bytes wbufBase 44 = s.block.bytes wbufBase 44)

/-- 40_codec.md R137 in registers (95_test_vectors.md L2-D6): whatever WBUF holds, a header DECODE has written is
valid. -/
def Obligations.DecodedRegistersValidate : Prop :=
  ∀ s : State, lenOf s.block.wlen = 44 →
    ∃ t, exec .decode s = .next t ∧ exec .validate t = .next t ∧ t.block.status = 0x00000001

/-! ### STATUS -/

/-- 60_exceptions.md R203: the STATUS words of the errors. -/
def Obligations.StatusWordsOfTheErrors : Prop :=
  (∀ f : Field, CmdError.statusWord (.rangeError f) = 0x00000013 ||| (BitVec.ofNat 32 f.idx <<< 8)) ∧
  CmdError.statusWord (.lengthError .decodeInput) = 0x00000023 ∧
  CmdError.statusWord (.lengthError .l3Length) = 0x00000123 ∧
  ∀ o : BitVec 4, CmdError.statusWord (.illegalCommand o) = 0x00000033 ||| (o.setWidth 32 <<< 8)

/-- 60_exceptions.md R230: the error a host reads back from STATUS is the one the command raised. -/
def Obligations.StatusCarriesTheError : Prop :=
  ∀ e : CmdError, CmdError.ofStatus e.statusWord = some e ∧ StatusForm e.statusWord

/-- 10_state.md R23: a step changes STATUS only where a command completes, or at a reset. -/
def Obligations.OnlyCommandsAndResetWriteStatus : Prop :=
  ∀ s t : State, step s = .next t → t.block.status ≠ s.block.status →
    ∃ rest, s.pending = .reset :: rest ∨ ∃ v, s.pending = .access (wordAccess s.params 0x0000 (.write v)) :: rest

/-- 10_state.md R31: "Only a successful MARSHAL and reset write it." -/
def Obligations.OnlyMarshalAndResetWriteFlen : Prop :=
  ∀ s t : State, step s = .next t → t.block.flen ≠ s.block.flen →
    ∃ rest, s.pending = .reset :: rest ∨
      (s.pending = .access (wordAccess s.params 0x0000 (.write 0x00000004)) :: rest ∧ t.block.status = 0x00000001)

/-! ### The step and the bus -/

/-- 30_encoding.md R100, 20_memory.md R75: a write of a command word to CMD runs its command on the state without the
transaction, and is answered OK after it. The second clause says it of the word that `withFetchWord` places. -/
def Obligations.StepRunsTheDecodedCommand : Prop :=
  (∀ (s : State) (v : Word) (rest : List Input) (i : Instr),
    Issued s (wordAccess s.params 0x0000 (.write v)) rest → decode v = .ok i →
    step s = mapNext (fun t => t.reply .ok) (exec i { s with pending := rest })) ∧
  (∀ (s : State) (w : Nat) (i : Instr), s.params.multiMaster = false → decodeTableWord 32 w = some i →
    step (s.withFetchWord 32 w) = mapNext (fun t => t.reply .ok) (exec i s))

/-- 30_encoding.md R101: an illegal command word performs no operation and raises IllegalCommand with its bits [3:0];
the write itself is answered OK (60_exceptions.md R201). -/
def Obligations.IllegalWordRaisesIllegalCommand : Prop :=
  ∀ (s : State) (v : Word) (rest : List Input), Issued s (wordAccess s.params 0x0000 (.write v)) rest →
    (v.extractLsb' 4 28 ≠ 0 ∨ v.extractLsb' 0 4 ∉ [0x1#4, 0x2#4, 0x3#4, 0x4#4]) →
    step s = .next ((s.answered rest .ok).withStatus (0x00000033 ||| ((v &&& 0x0000000F) <<< 8)))

/-- 70_reset_and_hazards.md R248: every transaction completes: it is taken and answered in its step, whatever it is. That
an access outside the window, which is no transaction of the block, is answered by a recorded reply too is the model's
choice (log 6). -/
def Obligations.EveryTransactionCompletes : Prop :=
  ∀ (s : State) (a : Access) (rest : List Input), Issued s a rest →
    ∃ t r, step s = .next t ∧ t.pending = rest ∧ t.replies = r :: s.replies

/-- 60_exceptions.md R201, 20_memory.md R63: a transaction that is not 32 bits wide, is misaligned, or addresses an
unmapped offset is answered BUSERR and changes no state; a 32-bit write to CMD is always answered OK. -/
def Obligations.BusErrorChangesNothing : Prop :=
  (∀ (s : State) (off bits : Nat) (op : Op) (rest : List Input),
    Issued s { addr := s.params.base + off, bits := bits, op := op } rest → off < 0x4000 →
    (bits ≠ 32 ∨ off % 4 ≠ 0 ∨ Unmapped s.params off) →
    step s = .next (s.answered rest .buserr)) ∧
  ∀ (s : State) (v : Word) (rest : List Input), Issued s (wordAccess s.params 0x0000 (.write v)) rest →
    ∃ t, step s = .next t ∧ t.replies = .ok :: s.replies

/-- 20_memory.md R60 (95_test_vectors.md L2-B9): an access outside the window is no transaction of the block, which it
leaves untouched. What the platform answers is not specified (log 6). -/
def Obligations.AccessOutsideTheWindowLeavesTheBlock : Prop :=
  ∀ (s : State) (a : Access) (rest : List Input), Issued s a rest →
    (a.addr < s.params.base ∨ s.params.base + 0x4000 ≤ a.addr) →
    ∃ t, step s = .next t ∧ t.block = s.block ∧ t.gen = s.gen ∧ t.params = s.params

/-- 20_memory.md R61: an aligned offset of the window is unmapped exactly where the map says so, and the registers and
buffer words stand at their offsets. -/
def Obligations.WindowMapIsTheTable : Prop :=
  ∀ p : Params,
    (∀ off : Nat, off % 4 = 0 → off < 0x4000 → (p.slotAt off = none ↔ Unmapped p off)) ∧
    (∀ r : Reg, p.slotAt r.offset = some (.reg r)) ∧
    (∀ j < 11, p.slotAt (0x0100 + 4 * j) = some (.wbuf j)) ∧
    (∀ j : Nat, 4 * j < p.l3Max → p.slotAt (0x1000 + 4 * j) = some (.l3buf j)) ∧
    (∀ j < p.frameWords, p.slotAt (0x2000 + 4 * j) = some (.fbuf j))

/-- 20_memory.md R64: no read changes the state of the block. -/
def Obligations.ReadsLeaveTheBlock : Prop :=
  ∀ (s : State) (a : Access) (rest : List Input), Issued s a rest → a.op = .read →
    ∃ t, step s = .next t ∧ t.block = s.block ∧ t.params = s.params ∧ t.gen = s.gen ∧ t.pending = rest

/-- 20_memory.md R64: a register read returns the register and changes nothing; CMD reads 0. -/
def Obligations.RegisterReadReturnsTheRegister : Prop :=
  ∀ (s : State) (r : Reg) (rest : List Input), Issued s (wordAccess s.params r.offset .read) rest →
    step s = .next (s.answered rest (.data (s.block.reg r))) ∧ s.block.reg .cmd = 0x00000000

/-- 20_memory.md R64, R67: a WBUF or L3BUF word, and an FBUF word that lies wholly inside the frame, read their four
bytes big-endian and change nothing. -/
def Obligations.BufferReadIsBigEndian : Prop :=
  ∀ (s : State) (rest : List Input) (j : Nat),
    (j < 11 → Issued s (wordAccess s.params (0x0100 + 4 * j) .read) rest →
      step s = .next (s.answered rest (.data (laneWord s.block (0x0100 + 4 * j))))) ∧
    (4 * j < s.params.l3Max → Issued s (wordAccess s.params (0x1000 + 4 * j) .read) rest →
      step s = .next (s.answered rest (.data (laneWord s.block (0x1000 + 4 * j))))) ∧
    (4 * j + 3 < lenOf s.block.flen → 4 * j + 3 < s.params.frameMax →
      Issued s (wordAccess s.params (0x2000 + 4 * j) .read) rest →
      step s = .next (s.answered rest (.data (laneWord s.block (0x2000 + 4 * j)))))

/-- 10_state.md R36: a read of any mapped FBUF word is answered with data whose lanes below FLEN.LEN and FRAME_MAX are the
frame's bytes. The other lanes are unspecified. -/
def Obligations.FrameBytesAreReadInTheirLanes : Prop :=
  ∀ (s : State) (rest : List Input) (j : Nat), j < s.params.frameWords →
    Issued s (wordAccess s.params (0x2000 + 4 * j) .read) rest →
    ∃ t v, step s = .next t ∧ t = { s.answered rest (.data v) with free := t.free } ∧
      ∀ i < 4, 4 * j + i < lenOf s.block.flen → 4 * j + i < s.params.frameMax →
        v.extractLsb' (24 - 8 * i) 8 = s.block.byte (0x2000 + 4 * j + i)

/-- 20_memory.md R65, the registers: a write leaves the implemented bits of its value in the register and touches nothing
else; STATUS and FLEN ignore it. -/
def Obligations.RegisterWriteKeepsImplementedBits : Prop :=
  ∀ (s : State) (r : Reg) (v : Word) (rest : List Input), Issued s (wordAccess s.params r.offset (.write v)) rest →
    (r ∈ [Reg.wlen, .l3len, .ethDstHi, .ethSrcHi, .etypeBier, .etypeIp] →
      ∃ t, step s = .next t ∧ RegWritten s rest r (v &&& 0x0000FFFF) t) ∧
    (r = .mcfg → ∃ t, step s = .next t ∧ RegWritten s rest r (v &&& 0x00000001) t) ∧
    (r ∈ [Reg.ethDstLo, .ethSrcLo] ++ Reg.fields ++ Reg.bitstring → ∃ t, step s = .next t ∧ RegWritten s rest r v t) ∧
    (r ∈ [Reg.status, .flen] → step s = .next (s.answered rest .ok))

/-- 20_memory.md R65, R67, the buffers: a write to a WBUF or L3BUF word stores its four bytes big-endian and touches
nothing else; FBUF ignores it. -/
def Obligations.BufferWriteIsBigEndian : Prop :=
  ∀ (s : State) (v : Word) (rest : List Input) (j : Nat),
    (j < 11 → Issued s (wordAccess s.params (0x0100 + 4 * j) (.write v)) rest →
      ∃ t, step s = .next t ∧ WordWritten s rest (0x0100 + 4 * j) v t) ∧
    (4 * j < s.params.l3Max → Issued s (wordAccess s.params (0x1000 + 4 * j) (.write v)) rest →
      ∃ t, step s = .next t ∧ WordWritten s rest (0x1000 + 4 * j) v t) ∧
    (j < s.params.frameWords → Issued s (wordAccess s.params (0x2000 + 4 * j) (.write v)) rest →
      step s = .next (s.answered rest .ok))

/-- 20_memory.md R70: a read returns the value most recently written, here the buffer word the transaction before it
wrote. -/
def Obligations.ReadReturnsTheWordJustWritten : Prop :=
  ∀ (s : State) (v : Word) (off : Nat) (rest : List Input),
    ((∃ j < 11, off = 0x0100 + 4 * j) ∨ (∃ j, 4 * j < s.params.l3Max ∧ off = 0x1000 + 4 * j)) →
    Issued s (wordAccess s.params off (.write v)) (.access (wordAccess s.params off .read) :: rest) →
    ∃ t u, step s = .next t ∧ step t = .next u ∧ u.replies = .data v :: .ok :: s.replies

/-- 70_reset_and_hazards.md R241: two reads of the same WBUF or L3BUF word return the same value, written or not. -/
def Obligations.UnwrittenBytesReadTheSameTwice : Prop :=
  ∀ (s : State) (off : Nat) (rest : List Input),
    ((∃ j < 11, off = 0x0100 + 4 * j) ∨ (∃ j, 4 * j < s.params.l3Max ∧ off = 0x1000 + 4 * j)) →
    Issued s (wordAccess s.params off .read) (.access (wordAccess s.params off .read) :: rest) →
    ∃ t u v, step s = .next t ∧ step t = .next u ∧ u.replies = .data v :: .data v :: s.replies ∧ u.block = s.block

/-! ### Reset, parameters and invariants -/

/-- 10_state.md R37: the reset values, every register by name; CMD is not stored and reads 0; each buffer byte is the
free draw of its reset; and VALIDATE right after reset succeeds. -/
def Obligations.ResetValues : Prop :=
  (∀ r : Reg, r ≠ .etypeBier → r ≠ .etypeIp → State.reset.block.reg r = 0x00000000) ∧
  State.reset.block.reg .etypeBier = 0x0000AB37 ∧ State.reset.block.reg .etypeIp = 0x00000800 ∧
  (∀ a : Nat, State.reset.block.byte a = Config.powerOnByte 0 a) ∧
  exec .validate State.reset = .next (State.reset.withStatus 0x00000001)

/-- 70_reset_and_hazards.md R240: the reset input replaces the block's state by the reset state with a fresh free draw
for every buffer byte. -/
def Obligations.ResetInputReplacesTheBlock : Prop :=
  ∀ (s : State) (rest : List Input), s.params.multiMaster = false → s.pending = .reset :: rest →
    ∃ t, step s = .next t ∧ t = { s with pending := rest, block := t.block } ∧
      (∀ r : Reg, t.block.reg r = State.reset.block.reg r) ∧
      ∀ a : Nat, t.block.byte a = Config.powerOnByte (s.block.epoch + 1) a

/-- 00_scope.md R6, R11: the ranges of the parameters, and that the frame length never overflows. -/
def Obligations.ParameterRanges : Prop :=
  ∀ p : Params, 4 ∣ p.l3Max ∧ 4 ≤ p.l3Max ∧ p.l3Max ≤ 4096 ∧ p.frameMax = 14 + 44 + p.l3Max ∧ 16384 ∣ p.base ∧
    ∀ n ≤ p.l3Max, 14 + 44 + n ≤ 4154 ∧ 14 + 44 + n < 2 ^ 16

/-- The reset state meets the invariant. -/
def Obligations.ResetMeetsTheInvariant : Prop := State.reset.Inv

/-- Every step keeps the invariant: the canonical form of the memory, FBUF's written bytes being those of the last frame
(10_state.md R36), RES0 bits reading 0 (R24 to R31), and the form of STATUS (R23). -/
def Obligations.StepKeepsTheInvariant : Prop := ∀ s t : State, s.Inv → step s = .next t → t.Inv

/-- 60_exceptions.md R220 "none of them mutable during a run": no step changes an implementation parameter (which the
model holds in State, log 4), and a running host keeps its configuration until it stops. -/
def Obligations.ParametersAreFixed : Prop :=
  (∀ s t : State, step s = .next t → t.params = s.params) ∧
  ∀ (s t : State) (c : GeneratorConfig) (p : Phase), s.gen.mode = .running c p → step s = .next t →
    (∃ p' : Phase, t.gen.mode = .running c p') ∨ ∃ e : Option HostError, t.gen.mode = .stopped e

/-! ### Host notation -/

/-- 30_encoding.md R105: the 21 writes of LDHDR are answered OK, leave in each field register its value where it can hold
it, and in BS0 to BS7 the slices [255:224] to [31:0] of the bitstring, whatever its size; so exactly the header where the
registers can hold all of it. They touch no other register, no buffer byte and nothing else of the machine. What they
leave for a scalar value of 2^32 or more is a free value (log 13). -/
def Obligations.LdHdrLoadsTheHeader : Prop :=
  ∀ (s : State) (h : Header) (rest : List Input), s.params.multiMaster = false →
    s.pending = accesses s.params (Pseudo.expand (.ldHdr h)) ++ rest →
    ∃ t, Host.Core.run core 21 s = .next t ∧
      (∀ f : Field, f ≠ .bitstring → h.field f < 2 ^ 32 → t.block.hdrOf.field f = h.field f) ∧
      (∀ (k : Nat) (r : Reg), Reg.bitstring[k]? = some r →
        (t.block.reg r).toNat = slice h.bitstring (255 - 32 * k) (224 - 32 * k)) ∧
      t.block.hdrOf.bitstring = h.bitstring % 2 ^ 256 ∧
      (h.representable = true → t.block.hdrOf = h) ∧
      (∀ r ∈ Reg.control, t.block.reg r = s.block.reg r) ∧ t.block.mem = s.block.mem ∧ t.block.epoch = s.block.epoch ∧
      t = s.wrote rest 21 t.block

/-- 30_encoding.md R105 with 10_state.md R26, R27: LDMAC puts a 48-bit address in its registers, its first byte on the
wire the most significant. LDBUF, its counterpart for bytes: every write of LDBUF L3BUF, for bytes that the buffer holds,
and of LDBUF WBUF, is answered OK and leaves the bytes in the buffer in order, missing bytes of the last word as 0x00;
LDBUF L3BUF also leaves their number in L3LEN, and nothing else changes. LDBUF L3BUF of any number of bytes fills the
buffer with the first of them, leaves in L3LEN the low 16 bits of the number it writes (20_memory.md R65), and changes
nothing else but the replies. That LDBUF WBUF has the same form for fewer than 44 bytes is the model's choice (log 16),
and so is the number written for 2^32 bytes or more, a free value (log 13). -/
def Obligations.LdMacLoadsTheAddress : Prop :=
  ∀ (s : State) (a : BitVec 48) (rest : List Input), s.params.multiMaster = false →
    (s.pending = accesses s.params (Pseudo.expand (.ldMacDst a)) ++ rest →
      ∃ t, Host.Core.run core 2 s = .next t ∧ macBytes t.block.ethDstHi t.block.ethDstLo = be48 a ∧ t.pending = rest) ∧
    (s.pending = accesses s.params (Pseudo.expand (.ldMacSrc a)) ++ rest →
      ∃ t, Host.Core.run core 2 s = .next t ∧ macBytes t.block.ethSrcHi t.block.ethSrcLo = be48 a ∧ t.pending = rest) ∧
    (∀ bytes : List Byte, bytes.length ≤ s.params.l3Max →
      s.pending = accesses s.params (Pseudo.expand (.ldBufL3 bytes)) ++ rest →
      ∃ t, Host.Core.run core ((bytes.length + 3) / 4 + 1) s = .next t ∧ BytesLoaded s 0x1000 bytes t ∧
        t.block.l3len = BitVec.ofNat 32 bytes.length ∧ (∀ r : Reg, r ≠ .l3len → t.block.reg r = s.block.reg r) ∧
        t = s.wrote rest ((bytes.length + 3) / 4 + 1) t.block) ∧
    (∀ bytes : List Byte, s.pending = accesses s.params (Pseudo.expand (.ldBufL3 bytes)) ++ rest →
      ∃ t, Host.Core.run core ((bytes.length + 3) / 4 + 1) s = .next t ∧
        (∀ k < bytes.length, k < s.params.l3Max → t.block.byte (0x1000 + k) = bytes.getD k 0) ∧
        (∀ a : Nat, ¬(0x1000 ≤ a ∧ a < 0x1000 + s.params.l3Max) → t.block.byte a = s.block.byte a) ∧
        t.block.l3len = lengthWord bytes.length &&& 0x0000FFFF ∧
        (bytes.length < 2 ^ 32 → lengthWord bytes.length = BitVec.ofNat 32 bytes.length) ∧
        (∀ r : Reg, r ≠ .l3len → t.block.reg r = s.block.reg r) ∧ t.block.epoch = s.block.epoch ∧
        t = { s with pending := rest, block := t.block, replies := t.replies }) ∧
    (∀ bytes : List Byte, bytes.length ≤ 44 →
      s.pending = accesses s.params (Pseudo.expand (.ldBufW bytes)) ++ rest →
      ∃ t, Host.Core.run core ((bytes.length + 3) / 4) s = .next t ∧ BytesLoaded s 0x0100 bytes t ∧
        (∀ r : Reg, t.block.reg r = s.block.reg r) ∧ t = s.wrote rest ((bytes.length + 3) / 4) t.block)

/-! ### The host agent -/

/-- 20_memory.md R74: the host reaches the block only through bus transactions: a step of the host agent itself leaves
the block. -/
def Obligations.HostStepLeavesTheBlock : Prop :=
  ∀ s t : State, s.pending = [] → step s = .next t →
    t.block = s.block ∧ t.replies = s.replies ∧ ∀ i ∈ t.pending, ∃ a, i = .access a

/-- 60_exceptions.md R221: the host's transitions and their causes. Idle goes to `Running` only after construction: from
`configuring`, or from `validating` with a STATUS whose ERR is 0; `Running` goes to `Stopped` only at a stop signal (R228,
polled as log 11 infers), a fatal transport error (R225) or a block error (R229); `Stopped` is terminal; and a host that
has written its configuration without a template starts running. -/
def Obligations.HostTransitions : Prop :=
  (∀ s t : State, step s = .next t →
    (s.gen.mode.hostState = .idle → t.gen.mode.hostState ≠ .stopped) ∧
    (s.gen.mode.hostState = .idle → t.gen.mode.hostState = .running → s.pending = [] ∧ ∃ c : GeneratorConfig,
      t.gen.mode = .running c .selecting ∧ (s.gen.mode = .configuring c ∨ (s.gen.mode = .validating c ∧
        ∃ w earlier, s.replies = .data w :: earlier ∧ statusErr w = false))) ∧
    (s.gen.mode.hostState = .running → t.gen.mode.hostState ≠ .idle) ∧
    (s.gen.mode.hostState = .running → t.gen.mode.hostState = .stopped → s.pending = [] ∧ StopCause s t.gen.mode) ∧
    (s.gen.mode.hostState = .stopped → t.gen = s.gen)) ∧
  ∀ (s : State) (c : GeneratorConfig), s.params.multiMaster = false → s.pending = [] → s.gen.mode = .configuring c →
    step s = .next (s.setMode (.running c .selecting))

/-- 60_exceptions.md R222 step 1 (95_test_vectors.md L1-7): an empty pool fails construction with EmptyPoolError, before
any register write; the failure is logged (R226, log 12). A failed construction stays failed at every later step, so `Running` is
never reached (log 14). -/
def Obligations.EmptyPoolFailsConstruction : Prop :=
  (∀ (s : State) (c : GeneratorConfig), s.params.multiMaster = false → s.pending = [] → s.gen.mode = .starting c →
    c.pool = [] →
    ∃ t time, step s = .next t ∧ t.block = s.block ∧ t.pending = [] ∧
      t.gen.mode = .constructionFailed .emptyPoolError ∧ t.gen.log = .failed .emptyPoolError time :: s.gen.log ∧
      t.gen.sent = s.gen.sent) ∧
  ∀ (s t : State) (e : HostError), s.gen.mode = .constructionFailed e → step s = .next t →
    t.gen.mode = .constructionFailed e

/-- 60_exceptions.md R222 steps 2 to 4: the transactions construction issues, in order, for every template. That the two
ethertypes come with the configuration is inferred (log 10), that they are issued in one step is the model's choice
(log 14), and so is what LDHDR writes for a template value the registers cannot hold (log 13). -/
def Obligations.ConstructionWritesTheConfiguration : Prop :=
  ∀ (s : State) (c : GeneratorConfig), s.params.multiMaster = false → s.pending = [] → s.gen.mode = .starting c →
    c.pool ≠ [] →
    (∀ h : Header, c.template = some h →
      ∃ t, step s = .next t ∧ t.gen.mode = .validating c ∧ t.pending = accesses s.params
        (Pseudo.expand (.ldMacDst c.ethDst) ++ Pseudo.expand (.ldMacSrc c.ethSrc) ++
          [.wr (.reg .etypeBier) (c.etypeBier.setWidth 32), .wr (.reg .etypeIp) (c.etypeIp.setWidth 32),
           .wr (.reg .mcfg) 1] ++
          Pseudo.expand (.ldHdr h) ++ Pseudo.expand (.command .validate) ++ [.rd (.reg .status)])) ∧
    (c.template = none →
      ∃ t, step s = .next t ∧ t.gen.mode = .configuring c ∧ t.pending = accesses s.params
        (Pseudo.expand (.ldMacDst c.ethDst) ++ Pseudo.expand (.ldMacSrc c.ethSrc) ++
          [.wr (.reg .etypeBier) (c.etypeBier.setWidth 32), .wr (.reg .etypeIp) (c.etypeIp.setWidth 32),
           .wr (.reg .mcfg) 0]))

/-- 60_exceptions.md R222 step 4: a valid template takes the host to `Running`, a RangeError makes construction fail with
that RangeError; the failure is logged, as every failure path is (R226, which log 12 infers to cover a failed
construction). -/
def Obligations.TemplateValidationDecidesConstruction : Prop :=
  ∀ (s : State) (c : GeneratorConfig) (w : Word) (earlier : List Reply), s.params.multiMaster = false →
    s.pending = [] → s.gen.mode = .validating c → s.replies = .data w :: earlier →
    (w = 0x00000001 → step s = .next (s.setMode (.running c .selecting))) ∧
    (∀ f : Field, w = rangeStatus f → ∃ t time, step s = .next t ∧ t.block = s.block ∧
      t.gen.mode = .constructionFailed (.command (.rangeError f)) ∧
      t.gen.log = .failed (.command (.rangeError f)) time :: s.gen.log)

/-- 60_exceptions.md R223 steps 1 and 2, R224: the host takes the pool member its draw names, injected or free, and issues
that member's serialized bytes (LDBUF, 30_encoding.md R105) and MARSHAL; a draw below the pool's length is the member's
index, and with a pool of one it is that member. The model's choices: a draw at or above the pool's length is taken modulo
it (log 10), all is issued in one step (log 14), and where LDBUF's length would hide from MARSHAL that there are more than
L3_MAX bytes, L3LEN is written with a free value above L3_MAX (R229, log 17). -/
def Obligations.IterationMarshalsTheDrawnDestination : Prop :=
  ∀ (s : State) (c : GeneratorConfig) (draw : Nat) (draws : List Nat), s.params.multiMaster = false → s.pending = [] →
    s.gen.mode = .running c .selecting → nextAnswer s.gen.draws (Config.rngDraw s.free) = (draw, draws) → c.pool ≠ [] →
    (∃ t dst, step s = .next t ∧ c.pool[draw % c.pool.length]? = some dst ∧
      (draw < c.pool.length → c.pool[draw]? = some dst) ∧ t.block = s.block ∧
      t.gen.mode = .running c (.marshalling dst) ∧ t.gen.draws = draws ∧
      (∃ v : Word, (s.params.l3Max < lenOf v ↔ s.params.l3Max < (s.gen.serialize c dst).length) ∧
        t.pending = accesses s.params
          (ldBuf .l3buf (s.gen.serialize c dst) ++ [.wr (.reg .l3len) v] ++ Pseudo.expand (.command .marshal) ++
            [.rd (.reg .status)])) ∧
      ((s.gen.serialize c dst).length ≤ s.params.l3Max ∨
          (s.gen.serialize c dst).length < 2 ^ 32 ∧ s.params.l3Max < (s.gen.serialize c dst).length % 2 ^ 16 →
        t.pending = accesses s.params
          (Pseudo.expand (.ldBufL3 (s.gen.serialize c dst)) ++ Pseudo.expand (.command .marshal) ++
            [.rd (.reg .status)]))) ∧
    ∀ a : Destination, c.pool = [a] → ∃ t, step s = .next t ∧ t.gen.mode = .running c (.marshalling a)

/-- 60_exceptions.md R229: a block error that MARSHAL reports while running is logged and stops the host; a success
lets it read FLEN. Last clause: with a header in range, as construction leaves it, the STATUS that the host reads after
its draw, LDBUF and MARSHAL is LengthError(1) exactly when the serialized bytes are more than L3_MAX, and success
otherwise. (Where LDBUF's length cannot show that, log 17 says how L3LEN does; log 14 that all is issued in one step.) -/
def Obligations.BlockErrorStopsTheHost : Prop :=
  (∀ (s : State) (c : GeneratorConfig) (dst : Destination) (w : Word) (earlier : List Reply),
    s.params.multiMaster = false → s.pending = [] → s.gen.mode = .running c (.marshalling dst) →
    s.replies = .data w :: earlier →
    (w = 0x00000001 → ∃ t, step s = .next t ∧ t.gen.mode = .running c (.sizing dst) ∧
      t.pending = accesses s.params [.rd (.reg .flen)]) ∧
    (∀ e : CmdError, w = e.statusWord → ∃ t time, step s = .next t ∧ t.block = s.block ∧ t.pending = [] ∧
      t.gen.mode = .stopped (some (.command e)) ∧ t.gen.log = .failed (.command e) time :: s.gen.log)) ∧
  ∀ (s : State) (c : GeneratorConfig) (dst : Destination), s.params.multiMaster = false → s.pending = [] →
    s.gen.mode = .running c .selecting →
    drawnDestination c (nextAnswer s.gen.draws (Config.rngDraw s.free)).1 = some dst →
    (BierEn s.block → InRange s.block.hdrOf) →
    ∃ t earlier, Host.Core.run core (((s.gen.serialize c dst).length + 3) / 4 + 4) s = .next t ∧ t.pending = [] ∧
      t.gen.mode = .running c (.marshalling dst) ∧
      t.replies = .data (if s.params.l3Max < (s.gen.serialize c dst).length then
        CmdError.statusWord (.lengthError .l3Length) else 0x00000001) :: earlier

/-- 60_exceptions.md R223 step 3, R225: each frame is handed to `send` once; a fatal transport error is logged and stops
the host, any other is logged and the iteration goes on to its log record. -/
def Obligations.TransportErrorsStopOnlyWhenFatal : Prop :=
  ∀ (s : State) (c : GeneratorConfig) (dst : Destination) (frame : List Byte) (r : SendResult)
    (later : List SendResult), s.params.multiMaster = false → s.pending = [] →
    s.gen.mode = .running c (.sending dst frame) →
    nextAnswer s.gen.sends (Config.sendResult s.free c.ifName frame) = (r, later) →
    ∃ t, step s = .next t ∧ t.block = s.block ∧ t.pending = [] ∧ t.gen.sent = frame :: s.gen.sent ∧
      t.gen.sends = later ∧
      (r = .ok → t.gen.mode = .running c (.logging dst frame.length) ∧ t.gen.log = s.gen.log) ∧
      (∀ kind, r = .transportError kind → ∃ time, t.gen.log = .sendFailed dst frame.length time kind :: s.gen.log ∧
        (s.gen.isFatal kind = true → t.gen.mode = .stopped (some (.transportError kind))) ∧
        (s.gen.isFatal kind = false → t.gen.mode = .running c (.logging dst frame.length)))

/-- 60_exceptions.md R223 steps 4 and 5, R226, R227: every send is logged with its destination, length and time; then the
host suspends, or with INTERVAL = 0 starts the next iteration at once, unless a stop signal has arrived: then it stops at
the end of the iteration (R228, with the signal polled there as log 11 infers). -/
def Obligations.EverySendIsLogged : Prop :=
  ∀ (s : State) (c : GeneratorConfig) (dst : Destination) (len : Nat), s.params.multiMaster = false → s.pending = [] →
    s.gen.mode = .running c (.logging dst len) →
    ∃ t time, step s = .next t ∧ t.block = s.block ∧ t.gen.log = .sent dst len time :: s.gen.log ∧
      (c.interval ≠ 0 → t.gen.mode = .running c .suspended) ∧
      (c.interval = 0 → ∀ stop later,
        nextAnswer s.gen.stops (Config.stopSignal (drawsAfter s.gen.times s.free)) = (stop, later) →
        t.gen.mode = if stop then .stopped none else .running c .selecting)

/-- 60_exceptions.md R228: a stop signal that has arrived by the suspension, polled there as log 11 infers, ends the run;
without one the next iteration starts. -/
def Obligations.CancellationEndsTheSuspension : Prop :=
  ∀ (s : State) (c : GeneratorConfig) (stop : Bool) (later : List Bool), s.params.multiMaster = false →
    s.pending = [] → s.gen.mode = .running c .suspended →
    nextAnswer s.gen.stops (Config.stopSignal s.free) = (stop, later) →
    ∃ t, step s = .next t ∧ t.block = s.block ∧ t.pending = [] ∧ t.gen.sent = s.gen.sent ∧
      t.gen.mode = if stop then .stopped none else .running c .selecting

/-- 60_exceptions.md R223 step 2: the host reads FLEN, then the frame word by word, and hands on exactly
FBUF[0 .. FLEN.LEN-1]. First clause: after the answer `w` to its read of FLEN it issues the reads of the words that hold
`LEN` bytes. Second: it takes from their answers the words' bytes, big-endian, cut to that length. Third, the whole: from
the answer FLEN on, those steps end with the buffer's bytes in hand, whatever the lanes above FLEN.LEN read as. That the
reads are issued together is the model's choice (log 14). -/
def Obligations.CollectedFrameIsTheBuffersBytes : Prop :=
  (∀ (s : State) (c : GeneratorConfig) (dst : Destination) (w : Word) (earlier : List Reply),
    s.params.multiMaster = false → s.pending = [] → s.gen.mode = .running c (.sizing dst) →
    s.replies = .data w :: earlier →
    ∃ t, step s = .next t ∧ t.block = s.block ∧ t.replies = s.replies ∧
      t.gen.mode = .running c (.collecting dst (lenOf w)) ∧
      t.pending = accesses s.params ((List.range ((lenOf w + 3) / 4)).map fun j => .rd (.fbuf j))) ∧
  (∀ (s : State) (c : GeneratorConfig) (dst : Destination) (frame : List Byte) (earlier : List Reply)
    (words : List Word), s.params.multiMaster = false → s.pending = [] →
    s.gen.mode = .running c (.collecting dst frame.length) → words.length = (frame.length + 3) / 4 →
    (∀ k < frame.length, (words.getD (k / 4) 0).extractLsb' (24 - 8 * (k % 4)) 8 = frame.getD k 0) →
    s.replies = (words.map Reply.data).reverse ++ earlier →
    step s = .next (s.setMode (.running c (.sending dst frame)))) ∧
  ∀ (s : State) (c : GeneratorConfig) (dst : Destination) (earlier : List Reply), s.params.multiMaster = false →
    s.pending = [] → s.gen.mode = .running c (.sizing dst) → s.replies = .data s.block.flen :: earlier →
    lenOf s.block.flen ≤ s.params.frameMax →
    ∃ t, Host.Core.run core ((lenOf s.block.flen + 3) / 4 + 2) s = .next t ∧ t.block = s.block ∧ t.pending = [] ∧
      t.gen.mode = .running c (.sending dst (s.block.bytes fbufBase (lenOf s.block.flen)))
end

