-- ==== Sys2Proof/Laws/Bytes.lean ====
section
/-! SUPPORT. Byte order: the bytes of a value and the value of bytes undo each other (00_scope.md R8). -/

namespace Sys2Proof

@[simp] theorem beBytes_length (n v : Nat) : (beBytes n v).length = n := by simp [beBytes]

@[simp] theorem beBytes_zero (v : Nat) : beBytes 0 v = [] := rfl

theorem beBytes_succ (n v : Nat) : beBytes (n + 1) v = beBytes n (v / 256) ++ [BitVec.ofNat 8 v] := by
  unfold beBytes
  rw [List.range_succ, List.map_append]
  congr 1
  · apply List.map_congr_left
    intro i hi
    have hi := List.mem_range.mp hi
    have : 8 * (n + 1 - 1 - i) = 8 + 8 * (n - 1 - i) := by omega
    rw [this, Nat.shiftRight_add]
    simp [Nat.shiftRight_eq_div_pow]
  · simp

@[simp] theorem catBytes_nil : catBytes [] = 0 := rfl

theorem catBytes_snoc (l : List Byte) (b : Byte) : catBytes (l ++ [b]) = catBytes l * 256 + b.toNat := by
  simp [catBytes, List.foldl_append]

theorem catBytes_append (l m : List Byte) : catBytes (l ++ m) = catBytes l * 256 ^ m.length + catBytes m := by
  induction m using List.reverseRecOn with
  | nil => simp
  | append_singleton m b ih =>
    rw [← List.append_assoc, catBytes_snoc, catBytes_snoc, ih, List.length_append, List.length_singleton, pow_succ]
    ring

theorem catBytes_lt (l : List Byte) : catBytes l < 256 ^ l.length := by
  induction l using List.reverseRecOn with
  | nil => simp
  | append_singleton l b ih =>
    rw [catBytes_snoc, List.length_append, List.length_singleton, pow_succ]
    have := b.isLt
    omega

theorem catBytes_beBytes (n v : Nat) : catBytes (beBytes n v) = v % 256 ^ n := by
  induction n generalizing v with
  | zero => simp [Nat.mod_one]
  | succ n ih =>
    have h : 256 ^ (n + 1) = 256 * 256 ^ n := Nat.pow_succ'
    rw [beBytes_succ, catBytes_snoc, ih, BitVec.toNat_ofNat, h, Nat.mod_mul]
    omega

theorem beBytes_catBytes (l : List Byte) : beBytes l.length (catBytes l) = l := by
  induction l using List.reverseRecOn with
  | nil => rfl
  | append_singleton l b ih =>
    have hb := b.isLt
    rw [List.length_append, List.length_singleton, beBytes_succ, catBytes_snoc]
    have h1 : (catBytes l * 256 + b.toNat) / 256 = catBytes l := by omega
    rw [h1, ih]
    congr 2
    apply BitVec.eq_of_toNat_eq
    rw [BitVec.toNat_ofNat]
    omega

/-- Lane `i` of the word of four bytes is byte `i`: the first byte is the most significant (20_memory.md R67). -/
theorem catBytes_lane (l : List Byte) (hl : l.length = 4) {i : Nat} (hi : i < 4) :
    (BitVec.ofNat 32 (catBytes l)).extractLsb' (24 - 8 * i) 8 = l.getD i 0 := by
  match l, hl with
  | [b0, b1, b2, b3], _ =>
    have := b0.isLt
    have := b1.isLt
    have := b2.isLt
    have := b3.isLt
    have : i = 0 ∨ i = 1 ∨ i = 2 ∨ i = 3 := by omega
    rcases this with rfl | rfl | rfl | rfl <;> apply BitVec.eq_of_toNat_eq <;>
      simp [catBytes, BitVec.extractLsb'_toNat, Nat.shiftRight_eq_div_pow] <;> omega

theorem beBytes_mod (n v : Nat) : beBytes n (v % 256 ^ n) = beBytes n v := by
  have h := beBytes_catBytes (beBytes n v)
  rwa [beBytes_length, catBytes_beBytes] at h

@[simp] theorem catWords_nil : catWords [] = 0 := rfl

theorem catWords_snoc (l : List Word) (w : Word) : catWords (l ++ [w]) = catWords l * 2 ^ 32 + w.toNat := by
  simp [catWords, List.foldl_append]

theorem catWords_lt (l : List Word) : catWords l < (2 ^ 32) ^ l.length := by
  induction l using List.reverseRecOn with
  | nil => simp
  | append_singleton l w ih =>
    rw [catWords_snoc, List.length_append, List.length_singleton, Nat.pow_succ (2 ^ 32)]
    have := w.isLt
    omega

theorem slice_lt (v hi lo : Nat) : slice v hi lo < 2 ^ (hi - lo + 1) := Nat.mod_lt _ (by positivity)

@[simp] theorem be32_length (v : Nat) : (be32 v).length = 4 := beBytes_length 4 v

@[simp] theorem be256_length (v : Nat) : (be256 v).length = 32 := beBytes_length 32 v

@[simp] theorem be16_length (v : BitVec 16) : (be16 v).length = 2 := beBytes_length 2 v.toNat

@[simp] theorem be48_length (v : BitVec 48) : (be48 v).length = 6 := beBytes_length 6 v.toNat

end Sys2Proof
end

