-- ==== Sys2Proof/Laws/Memory.lean ====
section
/-! SUPPORT. The memory: a read after a write, what a write leaves alone, and that every operation keeps the canonical
form. -/

namespace Sys2Proof.Machine

@[simp] theorem byte?_nil (a : Nat) : Memory.byte? [] a = none := rfl

theorem byte?_cons (c : Host.Cell) (m : Memory) (a : Nat) :
    Memory.byte? (c :: m) a = if c.1 = a then some c.2 else Memory.byte? m a := rfl

/-- What a write does to every byte. -/
theorem byte?_write (m : Memory) (a : Nat) (v : Byte) (x : Nat) :
    Memory.byte? (Memory.write m a v) x = if a = x then some v else Memory.byte? m x := by
  induction m with
  | nil => rfl
  | cons c m ih =>
    unfold Memory.write
    split
    · rw [byte?_cons]
    · split
      · rename_i h
        simp only [byte?_cons, ← h]
        split <;> rfl
      · rw [byte?_cons, byte?_cons, ih]
        split <;> split <;> first | rfl | omega

/-- What writing a sequence does to every byte. -/
theorem byte?_writeBytes (m : Memory) (a : Nat) (l : List Byte) (x : Nat) :
    Memory.byte? (Memory.writeBytes m a l) x =
      if a ≤ x ∧ x < a + l.length then l[x - a]? else Memory.byte? m x := by
  induction l generalizing m a with
  | nil => rw [if_neg (by simp)]; rfl
  | cons v l ih =>
    rw [Memory.writeBytes, ih, byte?_write, List.length_cons]
    by_cases hx : a = x
    · subst hx
      simp
    · by_cases h : a ≤ x ∧ x < a + (l.length + 1)
      · rw [if_pos (by omega), if_pos h, show x - a = (x - (a + 1)) + 1 by omega, List.getElem?_cons_succ]
      · rw [if_neg (by omega), if_neg hx, if_neg h]

/-- What forgetting a range does to every byte. -/
theorem byte?_forget (m : Memory) (lo hi x : Nat) :
    Memory.byte? (Memory.forget m lo hi) x = if lo ≤ x ∧ x < hi then none else Memory.byte? m x := by
  induction m with
  | nil => simp [Memory.forget]
  | cons c m ih =>
    have ih : Memory.byte? (m.filter fun c => c.1 < lo || hi ≤ c.1) x =
        if lo ≤ x ∧ x < hi then none else Memory.byte? m x := ih
    unfold Memory.forget
    rw [List.filter_cons]
    split
    · rename_i h
      rw [byte?_cons, byte?_cons, ih]
      have h : c.1 < lo ∨ hi ≤ c.1 := by simpa using h
      split <;> split <;> first | rfl | omega
    · rename_i h
      have h : ¬ (c.1 < lo ∨ hi ≤ c.1) := by simpa using h
      rw [ih, byte?_cons]
      split
      · rfl
      · rw [if_neg (by omega)]

/-- The addresses a write leaves listed. -/
theorem mem_write {m : Memory} {a : Nat} {v : Byte} {c : Host.Cell} (h : c ∈ Memory.write m a v) :
    c = (a, v) ∨ c ∈ m := by
  induction m with
  | nil => simpa [Memory.write] using h
  | cons d m ih =>
    unfold Memory.write at h
    split at h
    · simpa using h
    · split at h
      · simp at h ⊢; tauto
      · simp only [List.mem_cons] at h ⊢
        rcases h with h | h
        · exact .inr (.inl h)
        · rcases ih h with h | h
          · exact .inl h
          · exact .inr (.inr h)

/-- A write keeps the canonical form. -/
theorem wf_write {m : Memory} (h : Memory.wf m) (a : Nat) (v : Byte) : Memory.wf (Memory.write m a v) := by
  induction m with
  | nil => simp [Memory.wf, Memory.write]
  | cons c m ih =>
    obtain ⟨hc, hm⟩ := List.pairwise_cons.mp h
    unfold Memory.write
    split
    · refine List.pairwise_cons.mpr ⟨?_, h⟩
      intro d hd
      rcases List.mem_cons.mp hd with rfl | hd
      · assumption
      · exact Nat.lt_trans ‹_› (hc d hd)
    · split
      · rename_i ha
        exact List.pairwise_cons.mpr ⟨fun d hd => by simpa [ha] using hc d hd, hm⟩
      · refine List.pairwise_cons.mpr ⟨?_, ih hm⟩
        intro d hd
        rcases mem_write hd with rfl | hd
        · show c.1 < a
          omega
        · exact hc d hd

/-- Writing a sequence keeps the canonical form. -/
theorem wf_writeBytes {m : Memory} (h : Memory.wf m) (a : Nat) (l : List Byte) :
    Memory.wf (Memory.writeBytes m a l) := by
  induction l generalizing m a with
  | nil => exact h
  | cons v l ih => exact ih (wf_write h a v) (a + 1)

/-- Forgetting a range keeps the canonical form. -/
theorem wf_forget {m : Memory} (h : Memory.wf m) (lo hi : Nat) : Memory.wf (Memory.forget m lo hi) := h.filter _

/-- The addresses listed after writing a sequence. -/
theorem mem_writeBytes {m : Memory} {a : Nat} {l : List Byte} {c : Host.Cell} (h : c ∈ Memory.writeBytes m a l) :
    (a ≤ c.1 ∧ c.1 < a + l.length) ∨ c ∈ m := by
  induction l generalizing m a with
  | nil => exact .inr h
  | cons v l ih =>
    rcases ih h with h | h
    · left; simp only [List.length_cons]; omega
    · rcases mem_write h with rfl | h
      · left; simp
      · exact .inr h

/-- The addresses listed after forgetting a range. -/
theorem mem_forget {m : Memory} {lo hi : Nat} {c : Host.Cell} :
    c ∈ Memory.forget m lo hi ↔ c ∈ m ∧ (c.1 < lo ∨ hi ≤ c.1) := by
  simp [Memory.forget]

/-- A listed address has a byte. -/
theorem byte?_isSome_of_mem {m : Memory} {c : Host.Cell} (h : c ∈ m) : (Memory.byte? m c.1).isSome := by
  induction m with
  | nil => simp at h
  | cons d m ih =>
    rw [byte?_cons]
    split
    · rfl
    · rename_i hne
      rcases List.mem_cons.mp h with rfl | h
      · exact absurd rfl hne
      · exact ih h

/-- A byte that is there is listed. -/
theorem mem_of_byte?_isSome {m : Memory} {a : Nat} (h : (Memory.byte? m a).isSome) : ∃ c ∈ m, c.1 = a := by
  induction m with
  | nil => simp at h
  | cons d m ih =>
    rw [byte?_cons] at h
    split at h
    · exact ⟨d, by simp, ‹_›⟩
    · obtain ⟨c, hc, ha⟩ := ih h
      exact ⟨c, by simp [hc], ha⟩

/-- The reset memory has the canonical form. -/
theorem wf_reset : Memory.wf State.reset.block.mem := List.Pairwise.nil

end Sys2Proof.Machine
end

