-- ==== Sys2Proof/Laws/State.lean ====
section
/-! SUPPORT. What each update of the state leaves in each field, true by unfolding it once. -/

namespace Sys2Proof.Machine

/-! ### The block -/
@[simp] theorem complete_status (b : Block) : b.complete.status = okStatus := rfl
@[simp] theorem complete_wlen (b : Block) : b.complete.wlen = b.wlen := rfl
@[simp] theorem complete_mcfg (b : Block) : b.complete.mcfg = b.mcfg := rfl
@[simp] theorem complete_ethDstHi (b : Block) : b.complete.ethDstHi = b.ethDstHi := rfl
@[simp] theorem complete_ethDstLo (b : Block) : b.complete.ethDstLo = b.ethDstLo := rfl
@[simp] theorem complete_ethSrcHi (b : Block) : b.complete.ethSrcHi = b.ethSrcHi := rfl
@[simp] theorem complete_ethSrcLo (b : Block) : b.complete.ethSrcLo = b.ethSrcLo := rfl
@[simp] theorem complete_etypeBier (b : Block) : b.complete.etypeBier = b.etypeBier := rfl
@[simp] theorem complete_etypeIp (b : Block) : b.complete.etypeIp = b.etypeIp := rfl
@[simp] theorem complete_l3len (b : Block) : b.complete.l3len = b.l3len := rfl
@[simp] theorem complete_flen (b : Block) : b.complete.flen = b.flen := rfl
@[simp] theorem complete_mem (b : Block) : b.complete.mem = b.mem := rfl
@[simp] theorem complete_epoch (b : Block) : b.complete.epoch = b.epoch := rfl
@[simp] theorem raise_status (b : Block) (e : CmdError) : (b.raise e).status = e.statusWord := rfl
@[simp] theorem raise_wlen (b : Block) (e : CmdError) : (b.raise e).wlen = b.wlen := rfl
@[simp] theorem raise_mcfg (b : Block) (e : CmdError) : (b.raise e).mcfg = b.mcfg := rfl
@[simp] theorem raise_ethDstHi (b : Block) (e : CmdError) : (b.raise e).ethDstHi = b.ethDstHi := rfl
@[simp] theorem raise_ethDstLo (b : Block) (e : CmdError) : (b.raise e).ethDstLo = b.ethDstLo := rfl
@[simp] theorem raise_ethSrcHi (b : Block) (e : CmdError) : (b.raise e).ethSrcHi = b.ethSrcHi := rfl
@[simp] theorem raise_ethSrcLo (b : Block) (e : CmdError) : (b.raise e).ethSrcLo = b.ethSrcLo := rfl
@[simp] theorem raise_etypeBier (b : Block) (e : CmdError) : (b.raise e).etypeBier = b.etypeBier := rfl
@[simp] theorem raise_etypeIp (b : Block) (e : CmdError) : (b.raise e).etypeIp = b.etypeIp := rfl
@[simp] theorem raise_l3len (b : Block) (e : CmdError) : (b.raise e).l3len = b.l3len := rfl
@[simp] theorem raise_flen (b : Block) (e : CmdError) : (b.raise e).flen = b.flen := rfl
@[simp] theorem raise_mem (b : Block) (e : CmdError) : (b.raise e).mem = b.mem := rfl
@[simp] theorem raise_epoch (b : Block) (e : CmdError) : (b.raise e).epoch = b.epoch := rfl
@[simp] theorem store_status (b : Block) (a : Nat) (l : List Byte) : (b.store a l).status = b.status := rfl
@[simp] theorem store_wlen (b : Block) (a : Nat) (l : List Byte) : (b.store a l).wlen = b.wlen := rfl
@[simp] theorem store_mcfg (b : Block) (a : Nat) (l : List Byte) : (b.store a l).mcfg = b.mcfg := rfl
@[simp] theorem store_ethDstHi (b : Block) (a : Nat) (l : List Byte) : (b.store a l).ethDstHi = b.ethDstHi := rfl
@[simp] theorem store_ethDstLo (b : Block) (a : Nat) (l : List Byte) : (b.store a l).ethDstLo = b.ethDstLo := rfl
@[simp] theorem store_ethSrcHi (b : Block) (a : Nat) (l : List Byte) : (b.store a l).ethSrcHi = b.ethSrcHi := rfl
@[simp] theorem store_ethSrcLo (b : Block) (a : Nat) (l : List Byte) : (b.store a l).ethSrcLo = b.ethSrcLo := rfl
@[simp] theorem store_etypeBier (b : Block) (a : Nat) (l : List Byte) : (b.store a l).etypeBier = b.etypeBier := rfl
@[simp] theorem store_etypeIp (b : Block) (a : Nat) (l : List Byte) : (b.store a l).etypeIp = b.etypeIp := rfl
@[simp] theorem store_l3len (b : Block) (a : Nat) (l : List Byte) : (b.store a l).l3len = b.l3len := rfl
@[simp] theorem store_flen (b : Block) (a : Nat) (l : List Byte) : (b.store a l).flen = b.flen := rfl
@[simp] theorem store_mem (b : Block) (a : Nat) (l : List Byte) : (b.store a l).mem = Memory.writeBytes b.mem a l := rfl
@[simp] theorem store_epoch (b : Block) (a : Nat) (l : List Byte) : (b.store a l).epoch = b.epoch := rfl
@[simp] theorem forget_status (b : Block) (lo hi : Nat) : (b.forget lo hi).status = b.status := rfl
@[simp] theorem forget_wlen (b : Block) (lo hi : Nat) : (b.forget lo hi).wlen = b.wlen := rfl
@[simp] theorem forget_mcfg (b : Block) (lo hi : Nat) : (b.forget lo hi).mcfg = b.mcfg := rfl
@[simp] theorem forget_ethDstHi (b : Block) (lo hi : Nat) : (b.forget lo hi).ethDstHi = b.ethDstHi := rfl
@[simp] theorem forget_ethDstLo (b : Block) (lo hi : Nat) : (b.forget lo hi).ethDstLo = b.ethDstLo := rfl
@[simp] theorem forget_ethSrcHi (b : Block) (lo hi : Nat) : (b.forget lo hi).ethSrcHi = b.ethSrcHi := rfl
@[simp] theorem forget_ethSrcLo (b : Block) (lo hi : Nat) : (b.forget lo hi).ethSrcLo = b.ethSrcLo := rfl
@[simp] theorem forget_etypeBier (b : Block) (lo hi : Nat) : (b.forget lo hi).etypeBier = b.etypeBier := rfl
@[simp] theorem forget_etypeIp (b : Block) (lo hi : Nat) : (b.forget lo hi).etypeIp = b.etypeIp := rfl
@[simp] theorem forget_l3len (b : Block) (lo hi : Nat) : (b.forget lo hi).l3len = b.l3len := rfl
@[simp] theorem forget_flen (b : Block) (lo hi : Nat) : (b.forget lo hi).flen = b.flen := rfl
@[simp] theorem forget_mem (b : Block) (lo hi : Nat) : (b.forget lo hi).mem = Memory.forget b.mem lo hi := rfl
@[simp] theorem forget_epoch (b : Block) (lo hi : Nat) : (b.forget lo hi).epoch = b.epoch := rfl
@[simp] theorem store_hdrOf (b : Block) (a : Nat) (l : List Byte) : (b.store a l).hdrOf = b.hdrOf := rfl
@[simp] theorem store_frameCfg (b : Block) (a : Nat) (l : List Byte) : (b.store a l).frameCfg = b.frameCfg := rfl
@[simp] theorem forget_hdrOf (b : Block) (lo hi : Nat) : (b.forget lo hi).hdrOf = b.hdrOf := rfl
@[simp] theorem forget_frameCfg (b : Block) (lo hi : Nat) : (b.forget lo hi).frameCfg = b.frameCfg := rfl
@[simp] theorem setHdr_status (b : Block) (h : Header) : (b.setHdr h).status = b.status := rfl
@[simp] theorem setHdr_wlen (b : Block) (h : Header) : (b.setHdr h).wlen = b.wlen := rfl
@[simp] theorem setHdr_mcfg (b : Block) (h : Header) : (b.setHdr h).mcfg = b.mcfg := rfl
@[simp] theorem setHdr_ethDstHi (b : Block) (h : Header) : (b.setHdr h).ethDstHi = b.ethDstHi := rfl
@[simp] theorem setHdr_ethDstLo (b : Block) (h : Header) : (b.setHdr h).ethDstLo = b.ethDstLo := rfl
@[simp] theorem setHdr_ethSrcHi (b : Block) (h : Header) : (b.setHdr h).ethSrcHi = b.ethSrcHi := rfl
@[simp] theorem setHdr_ethSrcLo (b : Block) (h : Header) : (b.setHdr h).ethSrcLo = b.ethSrcLo := rfl
@[simp] theorem setHdr_etypeBier (b : Block) (h : Header) : (b.setHdr h).etypeBier = b.etypeBier := rfl
@[simp] theorem setHdr_etypeIp (b : Block) (h : Header) : (b.setHdr h).etypeIp = b.etypeIp := rfl
@[simp] theorem setHdr_l3len (b : Block) (h : Header) : (b.setHdr h).l3len = b.l3len := rfl
@[simp] theorem setHdr_flen (b : Block) (h : Header) : (b.setHdr h).flen = b.flen := rfl
@[simp] theorem setHdr_mem (b : Block) (h : Header) : (b.setHdr h).mem = b.mem := rfl
@[simp] theorem setHdr_epoch (b : Block) (h : Header) : (b.setHdr h).epoch = b.epoch := rfl
@[simp] theorem setHdr_fBiftId (b : Block) (h : Header) : (b.setHdr h).fBiftId = BitVec.ofNat 32 h.biftId := rfl
@[simp] theorem setHdr_fTc (b : Block) (h : Header) : (b.setHdr h).fTc = BitVec.ofNat 32 h.tc := rfl
@[simp] theorem setHdr_fS (b : Block) (h : Header) : (b.setHdr h).fS = BitVec.ofNat 32 h.s := rfl
@[simp] theorem setHdr_fTtl (b : Block) (h : Header) : (b.setHdr h).fTtl = BitVec.ofNat 32 h.ttl := rfl
@[simp] theorem setHdr_fNibble (b : Block) (h : Header) : (b.setHdr h).fNibble = BitVec.ofNat 32 h.nibble := rfl
@[simp] theorem setHdr_fVersion (b : Block) (h : Header) : (b.setHdr h).fVersion = BitVec.ofNat 32 h.version := rfl
@[simp] theorem setHdr_fBsl (b : Block) (h : Header) : (b.setHdr h).fBsl = BitVec.ofNat 32 h.bsl := rfl
@[simp] theorem setHdr_fEntropy (b : Block) (h : Header) : (b.setHdr h).fEntropy = BitVec.ofNat 32 h.entropy := rfl
@[simp] theorem setHdr_fOam (b : Block) (h : Header) : (b.setHdr h).fOam = BitVec.ofNat 32 h.oam := rfl
@[simp] theorem setHdr_fRsv (b : Block) (h : Header) : (b.setHdr h).fRsv = BitVec.ofNat 32 h.rsv := rfl
@[simp] theorem setHdr_fDscp (b : Block) (h : Header) : (b.setHdr h).fDscp = BitVec.ofNat 32 h.dscp := rfl
@[simp] theorem setHdr_fProto (b : Block) (h : Header) : (b.setHdr h).fProto = BitVec.ofNat 32 h.proto := rfl
@[simp] theorem setHdr_fBfirId (b : Block) (h : Header) : (b.setHdr h).fBfirId = BitVec.ofNat 32 h.bfirId := rfl
@[simp] theorem setHdr_bs0 (b : Block) (h : Header) : (b.setHdr h).bs0 = bsWord h.bitstring 0 := rfl
@[simp] theorem setHdr_bs1 (b : Block) (h : Header) : (b.setHdr h).bs1 = bsWord h.bitstring 1 := rfl
@[simp] theorem setHdr_bs2 (b : Block) (h : Header) : (b.setHdr h).bs2 = bsWord h.bitstring 2 := rfl
@[simp] theorem setHdr_bs3 (b : Block) (h : Header) : (b.setHdr h).bs3 = bsWord h.bitstring 3 := rfl
@[simp] theorem setHdr_bs4 (b : Block) (h : Header) : (b.setHdr h).bs4 = bsWord h.bitstring 4 := rfl
@[simp] theorem setHdr_bs5 (b : Block) (h : Header) : (b.setHdr h).bs5 = bsWord h.bitstring 5 := rfl
@[simp] theorem setHdr_bs6 (b : Block) (h : Header) : (b.setHdr h).bs6 = bsWord h.bitstring 6 := rfl
@[simp] theorem setHdr_bs7 (b : Block) (h : Header) : (b.setHdr h).bs7 = bsWord h.bitstring 7 := rfl
@[simp] theorem finish_ok (b b' : Block) : b.finish (.ok b') = b'.complete := rfl
@[simp] theorem finish_error (b : Block) (e : CmdError) : b.finish (.error e) = b.raise e := rfl
@[simp] theorem complete_hdrOf (b : Block) : b.complete.hdrOf = b.hdrOf := rfl
@[simp] theorem complete_frameCfg (b : Block) : b.complete.frameCfg = b.frameCfg := rfl
@[simp] theorem raise_hdrOf (b : Block) (e : CmdError) : (b.raise e).hdrOf = b.hdrOf := rfl
@[simp] theorem raise_frameCfg (b : Block) (e : CmdError) : (b.raise e).frameCfg = b.frameCfg := rfl
@[simp] theorem setHdr_frameCfg (b : Block) (h : Header) : (b.setHdr h).frameCfg = b.frameCfg := rfl


/-! ### The machine -/
@[simp] theorem reply_params (s : State) (r : Reply) : (s.reply r).params = s.params := rfl
@[simp] theorem reply_block (s : State) (r : Reply) : (s.reply r).block = s.block := rfl
@[simp] theorem reply_pending (s : State) (r : Reply) : (s.reply r).pending = s.pending := rfl
@[simp] theorem reply_replies (s : State) (r : Reply) : (s.reply r).replies = r :: s.replies := rfl
@[simp] theorem reply_free (s : State) (r : Reply) : (s.reply r).free = s.free := rfl
@[simp] theorem reply_gen (s : State) (r : Reply) : (s.reply r).gen = s.gen := rfl
@[simp] theorem setMode_params (s : State) (m : Mode) : (s.setMode m).params = s.params := rfl
@[simp] theorem setMode_block (s : State) (m : Mode) : (s.setMode m).block = s.block := rfl
@[simp] theorem setMode_pending (s : State) (m : Mode) : (s.setMode m).pending = s.pending := rfl
@[simp] theorem setMode_replies (s : State) (m : Mode) : (s.setMode m).replies = s.replies := rfl
@[simp] theorem setMode_free (s : State) (m : Mode) : (s.setMode m).free = s.free := rfl
@[simp] theorem issue_params (s : State) (l : List Line) : (s.issue l).params = s.params := rfl
@[simp] theorem issue_block (s : State) (l : List Line) : (s.issue l).block = s.block := rfl
@[simp] theorem issue_pending (s : State) (l : List Line) : (s.issue l).pending = s.pending ++ accesses s.params l := rfl
@[simp] theorem issue_replies (s : State) (l : List Line) : (s.issue l).replies = s.replies := rfl
@[simp] theorem issue_free (s : State) (l : List Line) : (s.issue l).free = s.free := rfl
@[simp] theorem issue_gen (s : State) (l : List Line) : (s.issue l).gen = s.gen := rfl
@[simp] theorem answered_params (s : State) (rest : List Input) (r : Reply) : (s.answered rest r).params = s.params := rfl
@[simp] theorem answered_block (s : State) (rest : List Input) (r : Reply) : (s.answered rest r).block = s.block := rfl
@[simp] theorem answered_pending (s : State) (rest : List Input) (r : Reply) : (s.answered rest r).pending = rest := rfl
@[simp] theorem answered_replies (s : State) (rest : List Input) (r : Reply) : (s.answered rest r).replies = r :: s.replies := rfl
@[simp] theorem answered_free (s : State) (rest : List Input) (r : Reply) : (s.answered rest r).free = s.free := rfl
@[simp] theorem answered_gen (s : State) (rest : List Input) (r : Reply) : (s.answered rest r).gen = s.gen := rfl

@[simp] theorem wrote_params (s : State) (rest : List Input) (n : Nat) (b : Block) : (s.wrote rest n b).params = s.params := rfl
@[simp] theorem wrote_block (s : State) (rest : List Input) (n : Nat) (b : Block) : (s.wrote rest n b).block = b := rfl
@[simp] theorem wrote_pending (s : State) (rest : List Input) (n : Nat) (b : Block) : (s.wrote rest n b).pending = rest := rfl
@[simp] theorem wrote_free (s : State) (rest : List Input) (n : Nat) (b : Block) : (s.wrote rest n b).free = s.free := rfl
@[simp] theorem wrote_gen (s : State) (rest : List Input) (n : Nat) (b : Block) : (s.wrote rest n b).gen = s.gen := rfl
@[simp] theorem wrote_replies (s : State) (rest : List Input) (n : Nat) (b : Block) :
    (s.wrote rest n b).replies = List.replicate n .ok ++ s.replies := rfl
@[simp] theorem withStatus_params (s : State) (w : Word) : (s.withStatus w).params = s.params := rfl
@[simp] theorem withStatus_pending (s : State) (w : Word) : (s.withStatus w).pending = s.pending := rfl
@[simp] theorem withStatus_replies (s : State) (w : Word) : (s.withStatus w).replies = s.replies := rfl
@[simp] theorem withStatus_free (s : State) (w : Word) : (s.withStatus w).free = s.free := rfl
@[simp] theorem withStatus_gen (s : State) (w : Word) : (s.withStatus w).gen = s.gen := rfl
@[simp] theorem resetBlock_params (s : State) : (resetBlock s).params = s.params := rfl
@[simp] theorem resetBlock_block (s : State) : (resetBlock s).block = Block.reset (s.block.epoch + 1) := rfl
@[simp] theorem resetBlock_pending (s : State) : (resetBlock s).pending = s.pending := rfl
@[simp] theorem resetBlock_replies (s : State) : (resetBlock s).replies = s.replies := rfl
@[simp] theorem resetBlock_free (s : State) : (resetBlock s).free = s.free := rfl
@[simp] theorem resetBlock_gen (s : State) : (resetBlock s).gen = s.gen := rfl
@[simp] theorem withFetchWord_params (s : State) (n w : Nat) : (s.withFetchWord n w).params = s.params := rfl
@[simp] theorem withFetchWord_block (s : State) (n w : Nat) : (s.withFetchWord n w).block = s.block := rfl
@[simp] theorem withFetchWord_pending (s : State) (n w : Nat) : (s.withFetchWord n w).pending = .access (fetchAccess s.params n w) :: s.pending := rfl
@[simp] theorem withFetchWord_replies (s : State) (n w : Nat) : (s.withFetchWord n w).replies = s.replies := rfl
@[simp] theorem withFetchWord_free (s : State) (n w : Nat) : (s.withFetchWord n w).free = s.free := rfl
@[simp] theorem withFetchWord_gen (s : State) (n w : Nat) : (s.withFetchWord n w).gen = s.gen := rfl
@[simp] theorem setMode_mode (s : State) (m : Mode) : (s.setMode m).gen.mode = m := rfl
@[simp] theorem setMode_draws (s : State) (m : Mode) : (s.setMode m).gen.draws = s.gen.draws := rfl
@[simp] theorem setMode_sends (s : State) (m : Mode) : (s.setMode m).gen.sends = s.gen.sends := rfl
@[simp] theorem setMode_stops (s : State) (m : Mode) : (s.setMode m).gen.stops = s.gen.stops := rfl
@[simp] theorem setMode_times (s : State) (m : Mode) : (s.setMode m).gen.times = s.gen.times := rfl
@[simp] theorem setMode_serialized (s : State) (m : Mode) : (s.setMode m).gen.serialized = s.gen.serialized := rfl
@[simp] theorem setMode_fatal (s : State) (m : Mode) : (s.setMode m).gen.fatal = s.gen.fatal := rfl
@[simp] theorem setMode_log (s : State) (m : Mode) : (s.setMode m).gen.log = s.gen.log := rfl
@[simp] theorem setMode_sent (s : State) (m : Mode) : (s.setMode m).gen.sent = s.gen.sent := rfl
@[simp] theorem withStatus_status (s : State) (w : Word) : (s.withStatus w).block.status = w := rfl
@[simp] theorem withStatus_wlen (s : State) (w : Word) : (s.withStatus w).block.wlen = s.block.wlen := rfl
@[simp] theorem withStatus_mcfg (s : State) (w : Word) : (s.withStatus w).block.mcfg = s.block.mcfg := rfl
@[simp] theorem withStatus_ethDstHi (s : State) (w : Word) : (s.withStatus w).block.ethDstHi = s.block.ethDstHi := rfl
@[simp] theorem withStatus_ethDstLo (s : State) (w : Word) : (s.withStatus w).block.ethDstLo = s.block.ethDstLo := rfl
@[simp] theorem withStatus_ethSrcHi (s : State) (w : Word) : (s.withStatus w).block.ethSrcHi = s.block.ethSrcHi := rfl
@[simp] theorem withStatus_ethSrcLo (s : State) (w : Word) : (s.withStatus w).block.ethSrcLo = s.block.ethSrcLo := rfl
@[simp] theorem withStatus_etypeBier (s : State) (w : Word) : (s.withStatus w).block.etypeBier = s.block.etypeBier := rfl
@[simp] theorem withStatus_etypeIp (s : State) (w : Word) : (s.withStatus w).block.etypeIp = s.block.etypeIp := rfl
@[simp] theorem withStatus_l3len (s : State) (w : Word) : (s.withStatus w).block.l3len = s.block.l3len := rfl
@[simp] theorem withStatus_flen (s : State) (w : Word) : (s.withStatus w).block.flen = s.block.flen := rfl
@[simp] theorem withStatus_mem (s : State) (w : Word) : (s.withStatus w).block.mem = s.block.mem := rfl
@[simp] theorem withStatus_epoch (s : State) (w : Word) : (s.withStatus w).block.epoch = s.block.epoch := rfl
@[simp] theorem tick_params (s : State) : s.tick.2.params = s.params := rfl
@[simp] theorem addLog_params (s : State) (e : Nat → LogEntry) : (s.addLog e).params = s.params := rfl
@[simp] theorem tick_block (s : State) : s.tick.2.block = s.block := rfl
@[simp] theorem addLog_block (s : State) (e : Nat → LogEntry) : (s.addLog e).block = s.block := rfl
@[simp] theorem tick_pending (s : State) : s.tick.2.pending = s.pending := rfl
@[simp] theorem addLog_pending (s : State) (e : Nat → LogEntry) : (s.addLog e).pending = s.pending := rfl
@[simp] theorem tick_replies (s : State) : s.tick.2.replies = s.replies := rfl
@[simp] theorem addLog_replies (s : State) (e : Nat → LogEntry) : (s.addLog e).replies = s.replies := rfl
@[simp] theorem addLog_mode (s : State) (e : Nat → LogEntry) : (s.addLog e).gen.mode = s.gen.mode := rfl
@[simp] theorem addLog_sent (s : State) (e : Nat → LogEntry) : (s.addLog e).gen.sent = s.gen.sent := rfl
@[simp] theorem mapNext_next (f : State → State) (s : State) : mapNext f (.next s) = .next (f s) := rfl


end Sys2Proof.Machine
end

