-- ==== Sys2Proof/Laws/Ops.lean ====
section
/-! SUPPORT. What the named operations do to every register and every buffer byte. -/

namespace Sys2Proof.Machine

/-! ### Registers -/

/-- CMD is not stored (10_state.md R22). -/
@[simp] theorem reg_cmd (b : Block) : b.reg .cmd = 0 := rfl

/-- A register write, seen at the register. -/
theorem reg_setReg_self (b : Block) (r : Reg) (v : Word) (h : r ≠ .cmd) : (b.setReg r v).reg r = v := by
  cases r <;> first | rfl | exact absurd rfl h

/-- A register write, seen at every other register. -/
theorem reg_setReg_of_ne (b : Block) (v : Word) {q r : Reg} (h : q ≠ r) : (b.setReg r v).reg q = b.reg q := by
  cases r <;> cases q <;> first | rfl | exact absurd rfl h

/-- A register write leaves the buffers. -/
@[simp] theorem setReg_mem (b : Block) (r : Reg) (v : Word) : (b.setReg r v).mem = b.mem := by cases r <;> rfl

@[simp] theorem setReg_epoch (b : Block) (r : Reg) (v : Word) : (b.setReg r v).epoch = b.epoch := by cases r <;> rfl

/-- A buffer write leaves the registers. -/
@[simp] theorem store_reg (b : Block) (a : Nat) (l : List Byte) (r : Reg) : (b.store a l).reg r = b.reg r := by
  cases r <;> rfl

@[simp] theorem forget_reg (b : Block) (lo hi : Nat) (r : Reg) : (b.forget lo hi).reg r = b.reg r := by cases r <;> rfl

/-- A successful end writes STATUS. -/
theorem complete_reg_of_ne (b : Block) {r : Reg} (h : r ≠ .status) : b.complete.reg r = b.reg r := by
  cases r <;> first | rfl | exact absurd rfl h

/-- A failing end writes STATUS. -/
theorem raise_reg_of_ne (b : Block) (e : CmdError) {r : Reg} (h : r ≠ .status) : (b.raise e).reg r = b.reg r := by
  cases r <;> first | rfl | exact absurd rfl h

/-- Writing a header leaves the control registers. -/
theorem setHdr_reg_control (b : Block) (h : Header) {r : Reg} (hr : r ∈ Reg.control) : (b.setHdr h).reg r = b.reg r := by
  cases r <;> first | rfl | exact absurd hr (by decide)

/-- A control register plays no part in the header. -/
theorem setReg_hdrOf_control (b : Block) {r : Reg} (v : Word) (h : r ∈ Reg.control) : (b.setReg r v).hdrOf = b.hdrOf := by
  cases r <;> first | exact absurd h (by decide) | rfl

/-- STATUS and the header are written independently. -/
theorem complete_setHdr (b : Block) (h : Header) : b.complete.setHdr h = (b.setHdr h).complete := rfl

/-! ### Buffer bytes -/

/-- Two blocks with the same memory and the same draws have the same bytes. -/
theorem byte_congr {b c : Block} (hm : b.mem = c.mem) (he : b.epoch = c.epoch) (a : Nat) : b.byte a = c.byte a := by
  unfold Block.byte
  rw [hm, he]

theorem bytes_congr {b c : Block} (hm : b.mem = c.mem) (he : b.epoch = c.epoch) (a n : Nat) :
    b.bytes a n = c.bytes a n := by
  unfold Block.bytes
  exact List.map_congr_left fun i _ => byte_congr hm he (a + i)

@[simp] theorem bytes_length (b : Block) (a n : Nat) : (b.bytes a n).length = n := by simp [Block.bytes]

theorem getElem_bytes (b : Block) (a n i : Nat) (h : i < (b.bytes a n).length) : (b.bytes a n)[i] = b.byte (a + i) := by
  simp [Block.bytes]

/-- The bytes just stored. -/
theorem bytes_store (b : Block) (a : Nat) (l : List Byte) : (b.store a l).bytes a l.length = l := by
  apply List.ext_getElem
  · simp
  · intro i h1 h2
    rw [getElem_bytes, Block.byte, store_mem, byte?_writeBytes, if_pos (by omega)]
    simp [h2]

/-- A byte inside what was stored. -/
theorem byte_store_of_mem (b : Block) (a : Nat) (l : List Byte) (i : Nat) (h : i < l.length) :
    (b.store a l).byte (a + i) = l[i] := by
  rw [Block.byte, store_mem, byte?_writeBytes, if_pos (by omega)]
  simp [h]

/-- Every byte outside what was stored. -/
theorem byte_store_of_not_mem (b : Block) (a : Nat) (l : List Byte) (x : Nat) (h : ¬(a ≤ x ∧ x < a + l.length)) :
    (b.store a l).byte x = b.byte x := by
  rw [Block.byte, store_mem, byte?_writeBytes, if_neg h]
  rfl

/-- Every byte outside what was forgotten. -/
theorem byte_forget_of_not_mem (b : Block) (lo hi x : Nat) (h : ¬(lo ≤ x ∧ x < hi)) :
    (b.forget lo hi).byte x = b.byte x := by
  rw [Block.byte, forget_mem, byte?_forget, if_neg h]
  rfl

/-- A stretch of a stretch of bytes. -/
theorem bytes_drop_take (b : Block) (a n i m : Nat) (h : i + m ≤ n) :
    ((b.bytes a n).drop i).take m = b.bytes (a + i) m := by
  apply List.ext_getElem
  · simp; omega
  · intro k h1 h2
    simp [Block.bytes, Nat.add_assoc]

end Sys2Proof.Machine
end

