-- ==== Sys2Proof/Laws/Bus.lean ====
section
/-! SUPPORT. What one transaction and one step can do. -/

namespace Sys2Proof.Machine

/-! ### The window -/

theorem mem_regAll (r : Reg) : r ∈ Reg.all := by cases r <;> decide

/-- A register stands at its own offset and no other register does. -/
theorem find_offset (r : Reg) : Reg.all.find? (fun q => q.offset = r.offset) = some r := by cases r <;> rfl

/-- No register stands at an offset that is none of theirs. -/
theorem find_offset_none {off : Nat} (h : ∀ r : Reg, r.offset ≠ off) :
    Reg.all.find? (fun q => q.offset = off) = none :=
  List.find?_eq_none.mpr fun r _ => by simpa using h r

/-- Every register's offset lies below the buffers and is word aligned. -/
theorem offset_lt (r : Reg) : r.offset < 0x00A0 := by cases r <;> decide

theorem offset_mod (r : Reg) : r.offset % 4 = 0 := by cases r <;> decide

/-- Two registers at one offset are one register. -/
theorem offset_inj {q r : Reg} (h : q.offset = r.offset) : q = r := by
  have h1 := find_offset q
  rw [h, find_offset r] at h1
  exact (Option.some.inj h1).symm

/-- A host address inside the window is at its offset. -/
theorem offsetOf_base_add (p : Params) {off : Nat} (h : off < 0x4000) : p.offsetOf (p.base + off) = some off := by
  unfold Params.offsetOf windowSize
  rw [if_pos (by omega)]
  congr 1
  omega

/-- A host address outside the window has no offset. -/
theorem offsetOf_eq_none (p : Params) {addr : Nat} (h : addr < p.base ∨ p.base + 0x4000 ≤ addr) :
    p.offsetOf addr = none := by
  unfold Params.offsetOf windowSize
  rw [if_neg (by omega)]

/-- An address that has an offset is the base plus it. -/
theorem offsetOf_eq_some {p : Params} {addr off : Nat} (h : p.offsetOf addr = some off) :
    addr = p.base + off ∧ off < 0x4000 := by
  unfold Params.offsetOf windowSize at h
  split at h
  · cases h
    omega
  · cases h

/-! ### One step -/

/-- With one bus master and a transaction pending, the step performs it. -/
theorem step_access {s : State} {a : Access} {rest : List Input} (h : Issued s a rest) :
    step s = perform exec a { s with pending := rest } := by
  unfold step advance
  rw [h.pending, if_neg (by simp [h.oneMaster])]

/-- With the reset input pending, the step resets the block. -/
theorem step_reset {s : State} {rest : List Input} (h : s.params.multiMaster = false) (hp : s.pending = .reset :: rest) :
    step s = .next (resetBlock { s with pending := rest }) := by
  unfold step advance
  rw [hp, if_neg (by simp [h])]

/-- With the start of the generator pending, the step starts it. -/
theorem step_start {s : State} {c : GeneratorConfig} {rest : List Input} (h : s.params.multiMaster = false)
    (hp : s.pending = .start c :: rest) : step s = .next (startGenerator c { s with pending := rest }) := by
  unfold step advance
  rw [hp, if_neg (by simp [h])]

/-- With nothing pending, the host agent acts. -/
theorem step_host {s : State} (h : s.params.multiMaster = false) (hp : s.pending = []) : step s = hostStep s := by
  unfold step advance
  rw [hp, if_neg (by simp [h])]

/-- What a step that answers a next state was. -/
theorem step_cases {s t : State} (h : step s = .next t) :
    s.params.multiMaster = false ∧
    ((∃ a rest, s.pending = .access a :: rest ∧ perform exec a { s with pending := rest } = .next t) ∨
     (∃ rest, s.pending = .reset :: rest ∧ t = resetBlock { s with pending := rest }) ∨
     (∃ c rest, s.pending = .start c :: rest ∧ t = startGenerator c { s with pending := rest }) ∨
     (s.pending = [] ∧ hostStep s = .next t)) := by
  unfold step advance at h
  split at h
  · cases h
  · rename_i hm
    refine ⟨by simpa using hm, ?_⟩
    split at h
    · exact .inl ⟨_, _, ‹_›, h⟩
    · cases h; exact .inr (.inl ⟨_, ‹_›, rfl⟩)
    · cases h; exact .inr (.inr (.inl ⟨_, _, ‹_›, rfl⟩))
    · exact .inr (.inr (.inr ⟨‹_›, h⟩))

/-- What a transaction does, at its address and width. -/
theorem perform_cases (run : Instr → State → Host.Outcome State Fault Refusal) (a : Access) (s : State) :
    (s.params.offsetOf a.addr = none ∧ perform run a s = .next (s.reply .platform)) ∨
    (∃ off, s.params.offsetOf a.addr = some off ∧ busSlot s.params a.bits off = none ∧
      perform run a s = .next (s.reply .buserr)) ∨
    (∃ off slot, s.params.offsetOf a.addr = some off ∧ busSlot s.params a.bits off = some slot ∧
      ((a.op = .read ∧ perform run a s = .next (busRead slot s)) ∨
       (∃ v, a.op = .write v ∧ perform run a s = busWrite run slot v s))) := by
  unfold perform
  split
  · exact .inl ⟨‹_›, rfl⟩
  · rename_i off hoff
    split
    · exact .inr (.inl ⟨off, hoff, ‹_›, rfl⟩)
    · rename_i slot hslot
      refine .inr (.inr ⟨off, slot, hoff, hslot, ?_⟩)
      split
      · exact .inl ⟨‹_›, rfl⟩
      · exact .inr ⟨_, ‹_›, rfl⟩

/-- A command answers a next state in which only the block has changed: it is written and completes, or records an
error. -/
theorem exec_finish (i : Instr) (s : State) : ∃ r, exec i s = .next { s with block := s.block.finish r } := by
  cases i <;> exact ⟨_, rfl⟩

/-- A word written to CMD runs its command, or raises IllegalCommand. -/
theorem command_cases (v : Word) (s : State) :
    (∃ i, decode v = .ok i ∧ command exec v s = exec i s) ∨
    (∃ r, decode v = .error r ∧
      command exec v s = .next { s with block := s.block.raise (.illegalCommand r.opc) }) := by
  unfold command
  split
  · exact .inl ⟨_, ‹_›, rfl⟩
  · exact .inr ⟨_, ‹_›, rfl⟩

/-- A write is answered OK: it runs a command at CMD, and elsewhere writes its slot. -/
theorem busWrite_cases (slot : Slot) (v : Word) (s : State) :
    (slot = .reg .cmd ∧ busWrite exec slot v s = mapNext (fun t => t.reply .ok) (command exec v s)) ∨
    (slot ≠ .reg .cmd ∧
      busWrite exec slot v s = .next ({ s with block := s.block.writeSlot v slot }.reply .ok)) := by
  unfold busWrite
  split
  · exact .inl ⟨‹_›, rfl⟩
  · exact .inr ⟨‹_›, rfl⟩

/-- The fields a read leaves. -/
@[simp] theorem busRead_block (slot : Slot) (s : State) : (busRead slot s).block = s.block := by
  unfold busRead
  dsimp only
  split <;> rfl

@[simp] theorem busRead_params (slot : Slot) (s : State) : (busRead slot s).params = s.params := by
  unfold busRead
  dsimp only
  split <;> rfl

@[simp] theorem busRead_gen (slot : Slot) (s : State) : (busRead slot s).gen = s.gen := by
  unfold busRead
  dsimp only
  split <;> rfl

@[simp] theorem busRead_pending (slot : Slot) (s : State) : (busRead slot s).pending = s.pending := by
  unfold busRead
  dsimp only
  split <;> rfl

/-- A read is answered with the value of its slot. -/
@[simp] theorem busRead_replies (slot : Slot) (s : State) :
    (busRead slot s).replies = .data (s.block.readSlot s.params (Config.freeWord s.free) slot) :: s.replies := by
  unfold busRead
  dsimp only
  split <;> rfl

/-- A read that takes no free value changes nothing but the replies. -/
theorem busRead_of_no_draw (slot : Slot) (s : State) (h : s.block.takesDraw s.params slot = false) :
    busRead slot s = s.reply (.data (s.block.readSlot s.params (Config.freeWord s.free) slot)) := by
  unfold busRead
  dsimp only
  rw [if_neg (by simp [h])]

end Sys2Proof.Machine
end

