-- ==== Sys2Proof/Laws/Generator.lean ====
section
/-! SUPPORT. What the host agent's continuations and its step can do (60_exceptions.md R221 to R230). -/

namespace Sys2Proof.Machine

/-- Every transaction of a host program is an access. -/
theorem mem_accesses {p : Params} {lines : List Line} {i : Input} (h : i ∈ accesses p lines) : ∃ a, i = .access a := by
  obtain ⟨l, -, rfl⟩ := List.mem_map.mp h
  exact ⟨_, rfl⟩

@[simp] theorem accesses_nil (p : Params) : accesses p [] = [] := rfl

@[simp] theorem accesses_cons (p : Params) (l : Line) (lines : List Line) :
    accesses p (l :: lines) = .access (Line.access p l) :: accesses p lines := rfl

@[simp] theorem accesses_append (p : Params) (l m : List Line) : accesses p (l ++ m) = accesses p l ++ accesses p m := by
  simp [accesses]

/-! ### LDHDR -/

theorem heldField_of_lt {v : Nat} (f : Field) (h : v < 2 ^ 32) : heldField f v = v := if_pos h

theorem heldField_lt (f : Field) (v : Nat) : heldField f v < 2 ^ 32 := by
  unfold heldField
  split
  · assumption
  · exact (Config.heldWord f v).isLt

/-- A scalar field of the held header is the field's held value. -/
theorem heldHeader_field (h : Header) {f : Field} (hf : f ≠ .bitstring) :
    (heldHeader h).field f = heldField f (h.field f) := by
  cases f <;> first | rfl | exact absurd rfl hf

@[simp] theorem heldHeader_bitstring (h : Header) : (heldHeader h).bitstring = h.bitstring := rfl

/-- The registers hold every scalar field of the header that LDHDR writes. -/
theorem heldHeader_field_lt (h : Header) {f : Field} (hf : f ≠ .bitstring) : (heldHeader h).field f < 2 ^ 32 :=
  heldHeader_field h hf ▸ heldField_lt f _

/-! ### LDBUF -/

theorem lengthWord_of_lt {n : Nat} (h : n < 2 ^ 32) : lengthWord n = BitVec.ofNat 32 n := if_pos h

theorem hostLengthWord_of_seen {p : Params} {n : Nat} (h : lengthIsSeen p n = true) :
    hostLengthWord p n = lengthWord n := if_pos h

/-- L3LEN.LEN of what the host writes is above L3_MAX exactly when the number of bytes is (60_exceptions.md R229). -/
theorem l3Max_lt_hostLengthWord (p : Params) (n : Nat) :
    p.l3Max < (hostLengthWord p n).toNat % 2 ^ 16 ↔ p.l3Max < n := by
  have hmax : p.l3Max ≤ 4096 := by
    unfold Params.l3Max
    have := p.l3Sel.isLt
    omega
  unfold hostLengthWord lengthIsSeen
  split
  · rename_i h
    simp only [Bool.or_eq_true, Bool.and_eq_true, decide_eq_true_eq] at h
    rw [lengthWord_of_lt (by omega), BitVec.toNat_ofNat]
    omega
  · rename_i h
    simp only [Bool.or_eq_true, Bool.and_eq_true, decide_eq_true_eq] at h
    have := Nat.mod_lt (Config.overLength n) (y := 0xFFFF - p.l3Max) (by omega)
    rw [BitVec.toNat_ofNat]
    omega

/-- Where LDBUF's own length serves, the host issues LDBUF as it stands. -/
theorem hostLdBuf_of_seen {p : Params} {bytes : List Byte} (h : lengthIsSeen p bytes.length = true) :
    hostLdBuf p bytes = Pseudo.expand (.ldBufL3 bytes) := by
  unfold hostLdBuf Pseudo.expand
  rw [hostLengthWord_of_seen h]

/-- Lane `i` of a LDBUF word is byte `4 * j + i`, or 0x00 where there is none (30_encoding.md R105). -/
theorem bufWord_lane (bytes : List Byte) (j : Nat) {i : Nat} (h : i < 4) :
    (bufWord bytes j).extractLsb' (24 - 8 * i) 8 = bytes.getD (4 * j + i) 0 := by
  unfold bufWord
  rw [catBytes_lane _ (by simp) h]
  simp [h]

/-- Going on with a reply answers only where the last reply was data. -/
theorem onReply_cases {s t : State} {k : Word → Host.Outcome State Fault Refusal} (h : onReply s k = .next t) :
    ∃ w earlier, s.replies = .data w :: earlier ∧ k w = .next t := by
  unfold onReply at h
  split at h
  · exact ⟨_, _, ‹_›, h⟩
  · cases h

/-- Going on with an outcome takes the success, or the error that STATUS carries. -/
theorem onStatus_cases {s t : State} {done : Host.Outcome State Fault Refusal}
    {failed : CmdError → Host.Outcome State Fault Refusal} (h : onStatus s done failed = .next t) :
    ∃ w earlier, s.replies = .data w :: earlier ∧
      ((statusErr w = false ∧ done = .next t) ∨
       (statusErr w = true ∧ ∃ e, CmdError.ofStatus w = some e ∧ failed e = .next t)) := by
  obtain ⟨w, earlier, hr, h⟩ := onReply_cases h
  refine ⟨w, earlier, hr, ?_⟩
  split at h
  · split at h
    · exact .inr ⟨‹_›, _, ‹_›, h⟩
    · cases h
  · rename_i he
    exact .inl ⟨Bool.eq_false_iff.mpr he, h⟩

/-! ### The host's step, mode by mode -/

theorem hostStep_idle {s : State} (h : s.gen.mode = .idle) : hostStep s = .next s := by
  unfold hostStep
  rw [h]

theorem hostStep_starting {s : State} {c : GeneratorConfig} (h : s.gen.mode = .starting c) :
    hostStep s = construct c s := by
  unfold hostStep
  rw [h]

theorem hostStep_configuring {s : State} {c : GeneratorConfig} (h : s.gen.mode = .configuring c) :
    hostStep s = .next (s.setMode (.running c .selecting)) := by
  unfold hostStep
  rw [h]

theorem hostStep_validating {s : State} {c : GeneratorConfig} (h : s.gen.mode = .validating c) :
    hostStep s = onStatus s (.next (s.setMode (.running c .selecting)))
      fun e => .next (s.failConstruction (.command e)) := by
  unfold hostStep
  rw [h]

theorem hostStep_constructionFailed {s : State} {e : HostError} (h : s.gen.mode = .constructionFailed e) :
    hostStep s = .next s := by
  unfold hostStep
  rw [h]

theorem hostStep_running {s : State} {c : GeneratorConfig} {p : Phase} (h : s.gen.mode = .running c p) :
    hostStep s = iterate c s p := by
  unfold hostStep
  rw [h]

theorem hostStep_stopped {s : State} {e : Option HostError} (h : s.gen.mode = .stopped e) : hostStep s = .next s := by
  unfold hostStep
  rw [h]

/-- What the start of the generator leaves. -/
theorem startGenerator_frame (c : GeneratorConfig) (s : State) :
    (startGenerator c s).block = s.block ∧ (startGenerator c s).params = s.params ∧
      (startGenerator c s).pending = s.pending ∧ (startGenerator c s).replies = s.replies := by
  unfold startGenerator
  split <;> exact ⟨rfl, rfl, rfl, rfl⟩

/-- A send hands the frame on once and leaves the block and the bus. -/
theorem send_frame (c : GeneratorConfig) (dst : Destination) (frame : List Byte) (s : State) :
    (send c dst frame s).block = s.block ∧ (send c dst frame s).params = s.params ∧
      (send c dst frame s).pending = s.pending ∧ (send c dst frame s).replies = s.replies ∧
      (send c dst frame s).gen.sent = frame :: s.gen.sent := by
  unfold send
  dsimp only
  split
  · exact ⟨rfl, rfl, rfl, rfl, rfl⟩
  · split <;> exact ⟨rfl, rfl, rfl, rfl, rfl⟩

/-- A suspension point changes only the host's mode, its stop answers and the draws. -/
theorem pollStop_frame (c : GeneratorConfig) (s : State) :
    (pollStop c s).block = s.block ∧ (pollStop c s).params = s.params ∧ (pollStop c s).pending = s.pending ∧
      (pollStop c s).replies = s.replies ∧ (pollStop c s).gen.sent = s.gen.sent ∧
      (pollStop c s).gen.log = s.gen.log := ⟨rfl, rfl, rfl, rfl, rfl, rfl⟩

end Sys2Proof.Machine
end

