-- ==== Sys2Proof/Laws/PerInstr.lean ====
section
/-! SUPPORT. The laws stated per command. Family `CommandWord`: the word the encoder gives (30_encoding.md R99, R100). -/

namespace Sys2Proof.Laws.CommandWord

/-- A command is well formed, its word has OPC in bits [3:0] and RSVD = 0 above them, and the table's reading of that
word gives the command back (30_encoding.md R99, R100). -/
def Statement (i : Instr) : Prop :=
  i.wellFormed = true ∧ (encode i).extractLsb' 0 4 = i.opc ∧ (encode i).extractLsb' 4 28 = 0 ∧
    decodeTableWord 32 (encode i).toNat = some i

theorem validate : Statement .validate := by
  unfold Statement
  decide

theorem encode : Statement .encode := by
  unfold Statement
  decide

theorem decode : Statement .decode := by
  unfold Statement
  decide

theorem marshal : Statement .marshal := by
  unfold Statement
  decide

end Sys2Proof.Laws.CommandWord
end

