-- ==== Sys2Proof/Tests/Slice0.lean ====
section
/-! SUPPORT. Tests of the model against the spec's own vectors (95_test_vectors.md, cited by their ids), the refusals of
every check of WellFormed, and for every statement with hypotheses a witness that meets them. -/

namespace Sys2Proof.Tests

open Sys2Proof Sys2Proof.Machine

/-! ### Small states -/

/-- The reset state with another block. -/
def withBlock (b : Block) : State := { State.reset with block := b }

/-- The reset state with a header in the registers (LDHDR). -/
def withHdr (h : Header) : State := withBlock ((Block.reset 0).setHdr h)

/-- The reset state with inputs pending. -/
def issuing (inputs : List Input) : State := { State.reset with pending := inputs }

/-- The reset state with one 32-bit transaction pending. -/
def oneAccess (off : Nat) (op : Op) : State := issuing [.access (wordAccess defaultParams off op)]

/-- The reset state with the host agent in a mode. -/
def hosting (m : Mode) : State := { State.reset with gen := { Generator.reset with mode := m } }

/-- A check of the block after a command. -/
def after (i : Instr) (s : State) (check : Block → Bool) : Bool :=
  match exec i s with
  | .next t => check t.block
  | .fault _ => false
  | .refused _ => false

/-- A check of the state after a step. -/
def stepped (s : State) (check : State → Bool) : Bool :=
  match step s with
  | .next t => check t
  | .fault _ => false
  | .refused _ => false

/-- The all-zero header. -/
def zeros : Header where
  biftId := 0
  tc := 0
  s := 0
  ttl := 0
  nibble := 0
  version := 0
  bsl := 0
  entropy := 0
  oam := 0
  rsv := 0
  dscp := 0
  proto := 0
  bfirId := 0
  bitstring := 0

/-- The golden header `G` (95_test_vectors.md). -/
def golden : Header :=
  { zeros with
    biftId := 0x12345, tc := 1, s := 1, ttl := 64, nibble := 5, bsl := 3, entropy := 0x0FFFFF, proto := 4,
    bfirId := 0x42 }

/-- The header of L2-E7. -/
def e7 : Header where
  biftId := 0xABCDE
  tc := 5
  s := 0
  ttl := 255
  nibble := 5
  version := 1
  bsl := 3
  entropy := 0x12345
  oam := 1
  rsv := 2
  dscp := 46
  proto := 17
  bfirId := 0x0102
  bitstring := 2 ^ 255 + 0xA5 * 2 ^ 128 + 1

/-- Every field at its maximum (L2-E2). -/
def maxima : Header where
  biftId := 0xFFFFF
  tc := 7
  s := 1
  ttl := 255
  nibble := 15
  version := 15
  bsl := 15
  entropy := 0xFFFFF
  oam := 3
  rsv := 3
  dscp := 63
  proto := 63
  bfirId := 0xFFFF
  bitstring := 2 ^ 256 - 1

/-- `tc` out of range (L1-7). -/
def badTc : Header := { golden with tc := 8 }

/-- The wire input of L2-D1, with WLEN = 44. -/
def d1 : State :=
  withBlock (((Block.reset 0).store wbufBase
    ([0xDE, 0xAD, 0xBE, 0xEF, 0x12, 0x34, 0x56, 0x78, 0x9A, 0xBC, 0xDE, 0xF0] ++
      (List.range 32).map (BitVec.ofNat 8))).setReg .wlen 44)

/-- The common setup `M` of 95_test_vectors.md 2.4 over a header, with a value of MCFG and of L3LEN. -/
def m (h : Header) (mcfg l3len : Word) : State :=
  withBlock { ((Block.reset 0).setHdr h).store l3bufBase [0x45, 0x00, 0x00, 0x1C] with
    ethDstHi := 0x0200, ethDstLo := 0x00000002, ethSrcHi := 0x0200, ethSrcLo := 0x00000001, mcfg := mcfg,
    l3len := l3len }

/-- A generator configuration with a pool and a template. -/
def config (pool : List Destination) (template : Option Header) : GeneratorConfig where
  interval := 0
  ethDst := 0x020000000002
  ethSrc := 0x020000000001
  etypeBier := 0xAB37
  etypeIp := 0x0800
  template := template
  pool := pool
  payload := []
  ifName := "eth0"

/-- Two destinations. -/
def destA : Destination := .ipv4 0x0A000001
def destB : Destination := .ipv6 1

/-- A value of `tc` that its register cannot hold (log 13). -/
def overTc : Header := { zeros with tc := 2 ^ 32 }

/-- A bitstring of more than 256 bits. -/
def overBits : Header := { zeros with bitstring := 2 ^ 256 + 2 ^ 255 + 7 }

/-- The host running with one destination, in a phase, with stop signals injected. -/
def running (p : Phase) (stops : List Bool) : State :=
  { State.reset with gen := { Generator.reset with mode := .running (config [destA] none) p, stops := stops } }

/-- The host about to draw from two destinations, with draws injected. -/
def drawing (draws : List Nat) : State :=
  { State.reset with
    gen := { Generator.reset with mode := .running (config [destA, destB] none) .selecting, draws := draws } }

/-- The host about to send a frame that fails with a transport error of kind 7, fatal or not. -/
def failingSend (fatal : Bool) : State :=
  { State.reset with
    gen := { Generator.reset with
      mode := .running (config [destA] none) (.sending destA [0x45])
      sends := [.transportError 7]
      fatal := [(7, fatal)] } }

/-! ### WellFormed refuses what is ill formed -/

theorem test_each_field_over_its_width_is_ill_formed :
    ([{ zeros with biftId := 2 ^ 20 }, { zeros with tc := 8 }, { zeros with s := 2 }, { zeros with ttl := 256 },
      { zeros with nibble := 16 }, { zeros with version := 16 }, { zeros with bsl := 16 },
      { zeros with entropy := 2 ^ 20 }, { zeros with oam := 4 }, { zeros with rsv := 4 }, { zeros with dscp := 64 },
      { zeros with proto := 64 }, { zeros with bfirId := 2 ^ 16 }, { zeros with bitstring := 2 ^ 256 }] :
      List Header).all (fun h => !h.wellFormed) = true := by decide

theorem test_headers_in_range_are_well_formed :
    [zeros, golden, e7, maxima].all Header.wellFormed = true := by decide

theorem test_one_field_out_of_range : Header.inRange badTc .tc = false ∧ Header.inRange badTc .ttl = true := by decide

theorem test_values_the_registers_cannot_hold :
    Header.representable { zeros with tc := 2 ^ 32 } = false ∧
    Header.representable { zeros with bitstring := 2 ^ 256 } = false ∧
    Header.representable { zeros with tc := 2 ^ 32 - 1 } = true := by decide

theorem test_ill_formed_accesses :
    legalForm 8 0x0040 = false ∧ legalForm 16 0x0040 = false ∧ legalForm 32 0x0002 = false ∧
    legalForm 32 0x0040 = true := by decide

theorem test_ill_formed_targets :
    (Target.wbuf 11).wellFormed defaultParams = false ∧ (Target.l3buf 512).wellFormed defaultParams = false ∧
    (Target.fbuf 527).wellFormed defaultParams = false ∧ (Target.raw 0x4000).wellFormed defaultParams = false ∧
    (Target.wbuf 10).wellFormed defaultParams = true ∧ (Target.fbuf 526).wellFormed defaultParams = true := by
  decide

theorem test_ill_formed_lines :
    (Line.wr (.wbuf 11) 0).wellFormed defaultParams = false ∧ (Line.rd (.raw 0x4000)).wellFormed defaultParams = false ∧
    (Line.rd (.reg .status)).wellFormed defaultParams = true := by decide

theorem test_ill_formed_pseudo_instructions :
    (Pseudo.ldHdr { zeros with ttl := 2 ^ 32 }).wellFormed defaultParams = false ∧
    (Pseudo.ldBufL3 (List.replicate 2049 0)).wellFormed defaultParams = false ∧
    (Pseudo.ldBufW (List.replicate 43 0)).wellFormed defaultParams = false ∧
    (Pseudo.ldHdr badTc).wellFormed defaultParams = true := by decide +kernel

/-! ### Decoding, against 30_encoding.md R100 -/

theorem test_decode_validate : decodeTableWord 32 0b00000000000000000000000000000001 = some .validate := by decide
theorem test_decode_encode : decodeTableWord 32 0b00000000000000000000000000000010 = some .encode := by decide
theorem test_decode_decode : decodeTableWord 32 0b00000000000000000000000000000011 = some .decode := by decide
theorem test_decode_marshal : decodeTableWord 32 0b00000000000000000000000000000100 = some .marshal := by decide

/-- 95_test_vectors.md 2.5. -/
theorem test_illegal_words :
    [0x00000000, 0x00000005, 0x0000000F, 0x00000012, 0x80000001, 0xFFFFFFFF, 0x00000010].all
      (fun w => decodeTableWord 32 w == none) = true := by decide

/-- The step after a command word is placed runs that command as the first after reset. -/
theorem test_first_command_runs :
    [1, 2, 4].all (fun w => stepped (State.reset.withFetchWord 32 w) fun t =>
      t.block.status == 0x00000001 && t.replies == [.ok]) = true ∧
    stepped (State.reset.withFetchWord 32 3) (fun t => t.block.status == 0x00000023) = true := by decide

/-! ### The commands -/

/-- L2-V6: the lowest index wins. -/
theorem test_validate_lowest_field :
    after .validate (withHdr { zeros with tc := 8, ttl := 0x100 }) (fun b => b.status == 0x00000113) = true := by
  decide

/-- L2-V7, L2-V9: no semantic check, and the bitstring is always in range. -/
theorem test_validate_no_semantic_check :
    after .validate (withHdr { zeros with bsl := 15, version := 15, rsv := 3, bitstring := 2 ^ 256 - 1 })
      (fun b => b.status == 0x00000001) = true := by decide

/-- L2-E7. -/
theorem test_encode_words :
    after .encode (withHdr e7) (fun b => (List.range 11).map (fun j => b.loadWord (0x0100 + 4 * j)) ==
      [0xABCDEAFF, 0x51312345, 0x6B910102, 0x80000000, 0x00000000, 0x00000000, 0x000000A5, 0x00000000, 0x00000000,
       0x00000000, 0x00000001] && b.wlen == 44 && b.status == 0x00000001) = true := by decide

/-- L1-3, L2-E9: bift_id = 2^20 fails and keeps WLEN. -/
theorem test_encode_range_error :
    after .encode (withHdr { golden with biftId := 2 ^ 20 })
      (fun b => b.status == 0x00000013 && b.wlen == 0 && b.mem == []) = true := by decide

/-- L2-D1. -/
theorem test_decode_fields :
    after .decode d1 (fun b => Reg.fields.map b.reg == [0x000DEADB, 7, 0, 0xEF, 1, 2, 3, 0x00045678, 2, 1, 0x2A, 0x3C,
      0xDEF0] && Reg.bitstring.map b.reg == [0x00010203, 0x04050607, 0x08090A0B, 0x0C0D0E0F, 0x10111213, 0x14151617,
      0x18191A1B, 0x1C1D1E1F] && b.status == 0x00000001) = true := by decide

/-- L2-D4: a length of 45 fails and changes nothing else. -/
theorem test_decode_length_error :
    after .decode (withBlock (d1.block.setReg .wlen 45))
      (fun b => b == { d1.block.setReg .wlen 45 with status := 0x00000023 }) = true := by decide

/-- L2-M1. -/
theorem test_marshal_bier_frame :
    after .marshal (m golden 1 4) (fun b => b.flen == 62 && b.status == 0x00000001 &&
      (List.range 15).map (fun j => b.loadWord (0x2000 + 4 * j)) ==
      [0x02000000, 0x00020200, 0x00000001, 0xAB371234, 0x5340503F, 0xFFFF0004, 0x00420000, 0, 0, 0, 0, 0, 0, 0,
       0x00004500] && b.bytes 0x203C 2 == [0x00, 0x1C]) = true := by decide

/-- L2-M2, L2-M8, L2-M7: without BIER the bad header is not read; with it, RANGE comes before LENGTH. -/
theorem test_marshal_checks :
    after .marshal (m badTc 0 4) (fun b => b.flen == 18 && b.status == 0x00000001 &&
      b.bytes 0x2000 18 == [2, 0, 0, 0, 0, 2, 2, 0, 0, 0, 0, 1, 0x08, 0x00, 0x45, 0x00, 0x00, 0x1C]) = true ∧
    after .marshal (m badTc 1 4096) (fun b => b.status == 0x00000113) = true ∧
    after .marshal (m golden 0 2049) (fun b => b.status == 0x00000123 && b.flen == 0) = true := by decide

/-! ### The bus and the host agent -/

/-- L2-B1 to L2-B8. -/
theorem test_bus_errors :
    ([(0x0002, 32, Op.read), (0x0040, 8, .read), (0x0040, 16, .write 0), (0x0030, 32, .read), (0x0074, 32, .write 1),
      (0x00A0, 32, .read), (0x012C, 32, .read), (0x1800, 32, .read), (0x283C, 32, .read)] :
      List (Nat × Nat × Op)).all (fun a => stepped (issuing [.access { addr := a.1, bits := a.2.1, op := a.2.2 }])
        fun t => t == { State.reset with replies := [.buserr] }) = true := by decide

/-- L2-B11 to L2-B17, L2-B21: what one write leaves in its register. -/
theorem test_register_writes :
    ([(.status, 0xFFFFFFFF, 0), (.wlen, 0x12345678, 0x00005678), (.mcfg, 0xFFFFFFFF, 1),
      (.ethDstHi, 0xFFFFFFFF, 0x0000FFFF), (.ethSrcLo, 0xDEADBEEF, 0xDEADBEEF), (.fTc, 0xFFFFFFFF, 0xFFFFFFFF),
      (.flen, 5, 0), (.etypeBier, 0x1234ABCD, 0x0000ABCD)] : List (Reg × Word × Word)).all
      (fun a => stepped (oneAccess a.1.offset (.write a.2.1)) fun t => t.block.reg a.1 == a.2.2 && t.replies == [.ok]) =
        true := by decide

/-- 95_test_vectors.md 2.5: the outcome of an illegal word, whose write is answered OK. -/
theorem test_illegal_command_status :
    ([(0x00000000, 0x00000033), (0x00000005, 0x00000533), (0x0000000F, 0x00000F33), (0x00000012, 0x00000233),
      (0x80000001, 0x00000133), (0xFFFFFFFF, 0x00000F33), (0x00000010, 0x00000033)] : List (Word × Word)).all
      (fun a => stepped (oneAccess 0x0000 (.write a.1)) fun t => t.block == { Block.reset 0 with status := a.2 } &&
        t.replies == [.ok]) = true := by decide

/-- L2-H6: draw 1 of a pool of two names the second destination. -/
theorem test_draw_names_the_destination :
    drawnDestination (config [destA, destB] none) 1 = some destB ∧
    drawnDestination (config [destA, destB] none) 0 = some destA := by decide

/-- L2-H1, L2-H2: only a fatal transport error stops the host. -/
theorem test_transport_errors :
    [true, false].all (fun fatal =>
      let s := failingSend fatal
      stepped { s with gen := { s.gen with times := [99] } } fun t =>
        t.gen.log == [.sendFailed destA 1 99 7] && t.gen.sent == [[0x45]] &&
        t.gen.mode == if fatal then .stopped (some (.transportError 7))
          else .running (config [destA] none) (.logging destA 1)) = true := by decide

/-- R222 step 4 for a template value of 2^32 (92_eei_decisions.md D7): construction goes on, with all its 7 + 21 + 2
transactions (R105, R222), and the other values are written as they are: BIFT-ID, the first after the seven. -/
theorem test_template_beyond_the_registers_is_written :
    stepped (hosting (.starting (config [destA] (some { overTc with biftId := 0x12345 })))) (fun t =>
      t.gen.mode.hostState == .idle && t.pending.length == 30 &&
      t.pending[7]? == some (.access (wordAccess defaultParams 0x0040 (.write 0x12345)))) = true := by decide

/-- 95_test_vectors.md 2.4: `LDBUF L3BUF, 45 00 00 1C` writes word 0 = 0x4500001C and L3LEN = 4. A fifth byte stands in
bits [31:24] of a second word, padded with 0x00 (30_encoding.md R105). -/
theorem test_ldbuf_l3buf_writes :
    Pseudo.expand (.ldBufL3 [0x45, 0x00, 0x00, 0x1C]) = [.wr (.l3buf 0) 0x4500001C, .wr (.reg .l3len) 4] ∧
    Pseudo.expand (.ldBufL3 [0x45, 0x00, 0x00, 0x1C, 0xAB]) =
      [.wr (.l3buf 0) 0x4500001C, .wr (.l3buf 1) 0xAB000000, .wr (.reg .l3len) 5] := by decide

/-- LDBUF writes the length itself, also one above L3_MAX or 0xFFFF (30_encoding.md R105); L3LEN keeps its low 16 bits
(20_memory.md R65). -/
theorem test_ldbuf_length_is_not_clamped :
    lengthWord 2049 = 2049 ∧ lengthWord 0x11000 = 0x11000 ∧ Reg.l3len.written (lengthWord 0x11000) = some 0x1000 := by
  decide

/-- The host writes LDBUF's own length up to L3_MAX and wherever the low 16 bits of a larger one are above L3_MAX too; for
0x10000 it does not, since L3LEN.LEN would be 0 (60_exceptions.md R229, 20_memory.md R65). -/
theorem test_host_length :
    [0, 4, 2048, 2049, 0xFFFF, 0x11000].all (fun n => hostLengthWord defaultParams n = BitVec.ofNat 32 n) = true ∧
    lengthIsSeen defaultParams 0x10000 = false ∧ lengthIsSeen defaultParams 0x10800 = false := by decide

/-- `LDBUF WBUF` writes the 11 words of 44 bytes, here those of L2-D1, and no register (30_encoding.md R105). -/
theorem test_ldbuf_wbuf_writes :
    let lines := Pseudo.expand (.ldBufW ([0xDE, 0xAD, 0xBE, 0xEF, 0x12, 0x34, 0x56, 0x78, 0x9A, 0xBC, 0xDE, 0xF0] ++
      (List.range 32).map (BitVec.ofNat 8)))
    lines.length = 11 ∧ lines[0]? = some (.wr (.wbuf 0) 0xDEADBEEF) ∧ lines[2]? = some (.wr (.wbuf 2) 0x9ABCDEF0) ∧
      lines[10]? = some (.wr (.wbuf 10) 0x1C1D1E1F) := by decide

/-- LDHDR writes `bitstring[255:224]` to `bitstring[31:0]` of a longer bitstring too (30_encoding.md R105). -/
theorem test_ldhdr_slices_the_bitstring :
    (Pseudo.expand (.ldHdr overBits))[13]? = some (.wr (.reg .bs0) 0x80000000) ∧
    (Pseudo.expand (.ldHdr overBits))[20]? = some (.wr (.reg .bs7) 7) := by decide

/-! ### Witnesses: the hypotheses of each statement are met together -/

theorem zeros_inRange : InRange zeros := by intro f; cases f <;> decide
theorem golden_inRange : InRange golden := by intro f; cases f <;> decide
theorem maxima_inRange : InRange maxima := by intro f; cases f <;> decide
theorem badTc_lowest : LowestFailing badTc .tc := ⟨by decide, by intro g; cases g <;> decide⟩

/-- The last field of the registers, out of range by one. -/
def badBfirId : Header := { maxima with bfirId := 2 ^ 16 }

theorem badBfirId_lowest : LowestFailing badBfirId .bfirId := ⟨by decide, by intro g; cases g <;> decide⟩

/-- The registers hold the header that was put there. -/
theorem withHdr_hdrOf : (withHdr golden).block.hdrOf = golden ∧ (withHdr maxima).block.hdrOf = maxima ∧
    (withHdr badTc).block.hdrOf = badTc ∧ (withHdr badBfirId).block.hdrOf = badBfirId := by decide

theorem witness_ExactlyFourWordsAreCommands :
    [0x00000000#32, 0x00000005#32, 0x00000014#32, 0xFFFFFFFF#32].all
      (fun v => v ≠ 1 && v ≠ 2 && v ≠ 3 && v ≠ 4) = true := by decide

theorem witness_TableWordsDecode : Instr.encode.wellFormed = true := rfl

theorem witness_EncodedHeaderDecodesToItself :
    validateHeader golden = .ok () ∧ validateHeader maxima = .ok () ∧ validateHeader zeros = .ok () := ⟨rfl, rfl, rfl⟩

theorem witness_DecodedBytesEncodeToThemselves : (List.replicate 44 (0xFF : Byte)).length = 44 := rfl

theorem witness_DecodedHeaderIsInRange : (List.replicate 44 (0xFF : Byte)).length = 44 := rfl

theorem witness_DecodeFailsOnlyOnLength :
    (List.replicate 43 (0 : Byte)).length ≠ 44 ∧ (List.replicate 45 (0 : Byte)).length ≠ 44 ∧
    (List.replicate 44 (0 : Byte)).length = 44 := by decide

theorem witness_EncodedFieldsStandInTheirHeaderBits : InRange maxima := maxima_inRange

theorem witness_FieldsPartitionTheHeaderBits :
    (0 < 352 ∧ 351 < 352) ∧ (List.replicate 44 (0 : Byte)).length = 44 ∧ InRange maxima ∧ 0 < 16 ∧ 15 < 16 :=
  ⟨by decide, rfl, maxima_inRange, by decide, by decide⟩

theorem witness_BitstringBitHasItsWireBit : InRange golden ∧ 0 < 256 ∧ 255 < 256 := ⟨golden_inRange, by decide, by decide⟩

theorem witness_HeaderViewIsTheRegisters : Field.biftId ≠ .bitstring ∧ Field.bfirId ≠ .bitstring ∧ 0 < 8 ∧ 7 < 8 := by
  decide

theorem witness_ValidateWritesStatusOnly :
    InRange (withHdr maxima).block.hdrOf ∧ LowestFailing (withHdr badTc).block.hdrOf .tc ∧
    LowestFailing (withHdr badBfirId).block.hdrOf .bfirId := by
  obtain ⟨-, h1, h2, h3⟩ := withHdr_hdrOf
  rw [h1, h2, h3]
  exact ⟨maxima_inRange, badTc_lowest, badBfirId_lowest⟩

theorem witness_EncodeWritesWbufAndWlen :
    InRange (withHdr maxima).block.hdrOf ∧ LowestFailing (withHdr badTc).block.hdrOf .tc := by
  obtain ⟨-, h1, h2, -⟩ := withHdr_hdrOf
  rw [h1, h2]
  exact ⟨maxima_inRange, badTc_lowest⟩

theorem witness_EncodedWordsOfWbuf :
    InRange (withHdr golden).block.hdrOf ∧ Reg.bitstring[0]? = some .bs0 ∧ Reg.bitstring[7]? = some .bs7 := by
  rw [withHdr_hdrOf.1]
  exact ⟨golden_inRange, rfl, rfl⟩

theorem witness_DecodeWritesHeaderRegisters :
    d1.block.wlen.extractLsb' 0 16 = 44 ∧ State.reset.block.wlen.extractLsb' 0 16 ≠ 44 ∧
    (withBlock (d1.block.setReg .wlen 45)).block.wlen.extractLsb' 0 16 ≠ 44 := by decide

/-- The clauses of MARSHAL: a bad header; a length of L3_MAX + 1 with and without BIER; the longest frame of either
layout. -/
theorem witness_MarshalBuildsTheFrame :
    (BierEn (m badTc 1 4).block ∧ LowestFailing (m badTc 1 4).block.hdrOf .tc) ∧
    (BierEn (m golden 1 2049).block ∧ InRange (m golden 1 2049).block.hdrOf ∧
      (m golden 1 2049).params.l3Max < lenOf (m golden 1 2049).block.l3len) ∧
    (¬BierEn (m badTc 0 2049).block ∧ (m badTc 0 2049).params.l3Max < lenOf (m badTc 0 2049).block.l3len) ∧
    (BierEn (m golden 1 2048).block ∧ InRange (m golden 1 2048).block.hdrOf ∧
      lenOf (m golden 1 2048).block.l3len ≤ (m golden 1 2048).params.l3Max) ∧
    (¬BierEn (m badTc 0 2048).block ∧ lenOf (m badTc 0 2048).block.l3len ≤ (m badTc 0 2048).params.l3Max) := by
  refine ⟨⟨rfl, by decide, ?_⟩, ⟨rfl, ?_, by decide⟩, ⟨Bool.false_ne_true, by decide⟩, ⟨rfl, ?_, by decide⟩,
    ⟨Bool.false_ne_true, by decide⟩⟩
  · intro g
    cases g <;> decide
  · intro g
    cases g <;> decide
  · intro g
    cases g <;> decide

theorem witness_FramePartsStandAtTheirBytes :
    lenOf (m golden 1 2048).block.l3len ≤ (m golden 1 2048).params.l3Max ∧ BierEn (m golden 1 2048).block ∧
    InRange (m golden 1 2048).block.hdrOf ∧ 2047 < lenOf (m golden 1 2048).block.l3len ∧
    lenOf (m badTc 0 4).block.l3len ≤ (m badTc 0 4).params.l3Max ∧ ¬BierEn (m badTc 0 4).block ∧
    3 < lenOf (m badTc 0 4).block.l3len := by
  refine ⟨by decide, rfl, ?_, by decide, by decide, Bool.false_ne_true, by decide⟩
  intro g
  cases g <;> decide

theorem witness_MarshalWithoutBierIgnoresTheHeader : ¬BierEn (m badTc 0 4).block := Bool.false_ne_true

theorem witness_EncodeIgnoresTheFrameRegisters :
    Reg.mcfg ∈ [Reg.mcfg, .ethDstHi, .ethDstLo, .ethSrcHi, .ethSrcLo, .etypeBier, .etypeIp, .l3len] ∧
    Reg.l3len ∈ [Reg.mcfg, .ethDstHi, .ethDstLo, .ethSrcHi, .ethSrcLo, .etypeBier, .etypeIp, .l3len] := by decide

theorem witness_FailedCommandReplacesStatusOnly :
    ∀ i : Instr, decode 0x00000005 ≠ .ok i ∧ decode 0x80000001 ≠ .ok i := by
  intro i
  cases i <;> decide

theorem witness_CommandsWriteOnlyTheirResults :
    exec .validate State.reset = .next (State.reset.withStatus 0x00000001) ∧
    ¬(Instr.validate = .encode ∧ wbufBase ≤ 0x0100 ∧ 0x0100 < wbufBase + 44) ∧
    ¬(Instr.encode = .encode ∧ wbufBase ≤ 0x012C ∧ 0x012C < wbufBase + 44) ∧
    ¬(Instr.marshal = .marshal ∧ fbufBase ≤ 0x1FFF ∧ 0x1FFF < fbufBase + State.reset.params.frameMax) :=
  ⟨rfl, by decide, by decide, by decide⟩

theorem witness_RoundTripThroughTheRegisters : InRange (withHdr golden).block.hdrOf ∧ lenOf d1.block.wlen = 44 := by
  rw [withHdr_hdrOf.1]
  exact ⟨golden_inRange, by decide⟩

theorem witness_DecodedRegistersValidate : lenOf d1.block.wlen = 44 := by decide

/-- VALIDATE through the bus changes STATUS, from a state whose STATUS is 0. -/
theorem witness_OnlyCommandsAndResetWriteStatus :
    stepped (oneAccess 0x0000 (.write 0x00000001))
      (fun t => t.block.status ≠ (oneAccess 0x0000 (.write 0x00000001)).block.status) = true ∧
    stepped { issuing [.reset] with block := { Block.reset 0 with status := 1 } }
      (fun t => t.block.status ≠ 1) = true := by decide

theorem witness_OnlyMarshalAndResetWriteFlen :
    stepped (oneAccess 0x0000 (.write 0x00000004))
      (fun t => t.block.flen ≠ (oneAccess 0x0000 (.write 0x00000004)).block.flen) = true ∧
    stepped { issuing [.reset] with block := { Block.reset 0 with flen := 14 } } (fun t => t.block.flen ≠ 14) = true := by
  decide

theorem witness_StepRunsTheDecodedCommand :
    Issued (oneAccess 0x0000 (.write 0x00000004)) (wordAccess defaultParams 0x0000 (.write 0x00000004)) [] ∧
    decode 0x00000004 = .ok .marshal ∧ State.reset.params.multiMaster = false ∧
    decodeTableWord 32 0x00000004 = some .marshal := ⟨⟨rfl, rfl⟩, by decide, rfl, by decide⟩

theorem witness_IllegalWordRaisesIllegalCommand :
    Issued (oneAccess 0x0000 (.write 0x00000005)) (wordAccess defaultParams 0x0000 (.write 0x00000005)) [] ∧
    (0x00000005#32).extractLsb' 0 4 ∉ [0x1#4, 0x2#4, 0x3#4, 0x4#4] ∧
    Issued (oneAccess 0x0000 (.write 0x00000012)) (wordAccess defaultParams 0x0000 (.write 0x00000012)) [] ∧
    (0x00000012#32).extractLsb' 4 28 ≠ 0 := ⟨⟨rfl, rfl⟩, by decide, ⟨rfl, rfl⟩, by decide⟩

theorem witness_EveryTransactionCompletes :
    Issued (oneAccess 0x3FFC .read) (wordAccess defaultParams 0x3FFC .read) [] := ⟨rfl, rfl⟩

/-- The three clauses, and both ends of an unmapped range. -/
theorem witness_BusErrorChangesNothing :
    Issued (issuing [.access { addr := defaultParams.base + 0x0040, bits := 16, op := .read }])
      { addr := defaultParams.base + 0x0040, bits := 16, op := .read } [] ∧ 16 ≠ 32 ∧
    Issued (oneAccess 0x0002 .read) (wordAccess defaultParams 0x0002 .read) [] ∧ 0x0002 % 4 ≠ 0 ∧
    Issued (oneAccess 0x0030 .read) (wordAccess defaultParams 0x0030 .read) [] ∧ Unmapped defaultParams 0x0030 ∧
    Unmapped defaultParams 0x283C ∧ Unmapped defaultParams 0x3FFF ∧ Unmapped defaultParams 0x1800 ∧
    Unmapped defaultParams 0x012C ∧
    Issued (oneAccess 0x0000 (.write 0xFFFFFFFF)) (wordAccess defaultParams 0x0000 (.write 0xFFFFFFFF)) [] := by
  have unmapped : Unmapped defaultParams 0x0030 ∧ Unmapped defaultParams 0x283C ∧ Unmapped defaultParams 0x3FFF ∧
      Unmapped defaultParams 0x1800 ∧ Unmapped defaultParams 0x012C := by
    unfold Unmapped
    decide
  obtain ⟨h1, h2, h3, h4, h5⟩ := unmapped
  exact ⟨⟨rfl, rfl⟩, by decide, ⟨rfl, rfl⟩, by decide, ⟨rfl, rfl⟩, h1, h2, h3, h4, h5, ⟨rfl, rfl⟩⟩

theorem witness_AccessOutsideTheWindowLeavesTheBlock :
    Issued (oneAccess 0x4000 .read) (wordAccess defaultParams 0x4000 .read) [] ∧
    defaultParams.base + 0x4000 ≤ (wordAccess defaultParams 0x4000 .read).addr ∧
    Issued { oneAccess 0x0000 .read with params := { defaultParams with baseSel := 1 } }
      (wordAccess defaultParams 0x0000 .read) [] ∧
    (wordAccess defaultParams 0x0000 .read).addr < ({ defaultParams with baseSel := 1 } : Params).base :=
  ⟨⟨rfl, rfl⟩, by decide, ⟨rfl, rfl⟩, by decide⟩

theorem witness_WindowMapIsTheTable :
    (0x3FFC % 4 = 0 ∧ 0x3FFC < 0x4000) ∧ 10 < 11 ∧ 4 * 511 < defaultParams.l3Max ∧ 526 < defaultParams.frameWords := by
  decide

theorem witness_ReadsLeaveTheBlock :
    Issued (oneAccess 0x2000 .read) (wordAccess defaultParams 0x2000 .read) [] ∧
    (wordAccess defaultParams 0x2000 .read).op = .read := ⟨⟨rfl, rfl⟩, rfl⟩

theorem witness_RegisterReadReturnsTheRegister :
    Issued (oneAccess (Reg.offset .bs7) .read) (wordAccess defaultParams (Reg.offset .bs7) .read) [] := ⟨rfl, rfl⟩

theorem witness_BufferReadIsBigEndian :
    Issued (oneAccess (0x0100 + 4 * 10) .read) (wordAccess defaultParams (0x0100 + 4 * 10) .read) [] ∧
    Issued (oneAccess (0x1000 + 4 * 511) .read) (wordAccess defaultParams (0x1000 + 4 * 511) .read) [] ∧
    4 * 511 < defaultParams.l3Max ∧
    Issued { oneAccess (0x2000 + 4 * 14) .read with block := { Block.reset 0 with flen := 62 } }
      (wordAccess defaultParams (0x2000 + 4 * 14) .read) [] ∧ 4 * 14 + 3 < lenOf 62 ∧
    4 * 14 + 3 < defaultParams.frameMax := ⟨⟨rfl, rfl⟩, ⟨rfl, rfl⟩, by decide, ⟨rfl, rfl⟩, by decide, by decide⟩

/-- The word that straddles the end of the frame of L2-M1: its lanes 0 and 1 are the frame's, lanes 2 and 3 are not. -/
theorem witness_FrameBytesAreReadInTheirLanes :
    15 < defaultParams.frameWords ∧
    Issued { oneAccess (0x2000 + 4 * 15) .read with block := { Block.reset 0 with flen := 62 } }
      (wordAccess defaultParams (0x2000 + 4 * 15) .read) [] ∧ 4 * 15 + 1 < lenOf 62 ∧
    4 * 15 + 1 < defaultParams.frameMax := ⟨by decide, ⟨rfl, rfl⟩, by decide, by decide⟩

theorem witness_RegisterWriteKeepsImplementedBits :
    [Reg.wlen, .mcfg, .ethDstLo, .bs7, .status].all (fun r =>
      (oneAccess r.offset (.write 0xFFFFFFFF)).pending ==
        [.access (wordAccess defaultParams r.offset (.write 0xFFFFFFFF))]) = true ∧
    (oneAccess 0x0008 (.write 0xFFFFFFFF)).params.multiMaster = false ∧
    Reg.wlen ∈ [Reg.wlen, .l3len, .ethDstHi, .ethSrcHi, .etypeBier, .etypeIp] ∧
    Reg.bs7 ∈ [Reg.ethDstLo, .ethSrcLo] ++ Reg.fields ++ Reg.bitstring ∧ Reg.status ∈ [Reg.status, .flen] := by decide

theorem witness_BufferWriteIsBigEndian :
    Issued (oneAccess (0x0100 + 4 * 10) (.write 0x01020304))
      (wordAccess defaultParams (0x0100 + 4 * 10) (.write 0x01020304)) [] ∧
    Issued (oneAccess (0x1000 + 4 * 511) (.write 0x01020304))
      (wordAccess defaultParams (0x1000 + 4 * 511) (.write 0x01020304)) [] ∧ 4 * 511 < defaultParams.l3Max ∧
    Issued (oneAccess (0x2000 + 4 * 526) (.write 0x01020304))
      (wordAccess defaultParams (0x2000 + 4 * 526) (.write 0x01020304)) [] ∧ 526 < defaultParams.frameWords :=
  ⟨⟨rfl, rfl⟩, ⟨rfl, rfl⟩, by decide, ⟨rfl, rfl⟩, by decide⟩

theorem witness_ReadReturnsTheWordJustWritten :
    Issued (issuing [.access (wordAccess defaultParams 0x0100 (.write 7)), .access (wordAccess defaultParams 0x0100 .read)])
      (wordAccess defaultParams 0x0100 (.write 7)) [.access (wordAccess defaultParams 0x0100 .read)] ∧
    (∃ j < 11, 0x0100 = 0x0100 + 4 * j) ∧ (∃ j, 4 * j < defaultParams.l3Max ∧ 0x17FC = 0x1000 + 4 * j) :=
  ⟨⟨rfl, rfl⟩, ⟨0, by decide⟩, ⟨511, by decide⟩⟩

theorem witness_UnwrittenBytesReadTheSameTwice :
    Issued (issuing [.access (wordAccess defaultParams 0x17FC .read), .access (wordAccess defaultParams 0x17FC .read)])
      (wordAccess defaultParams 0x17FC .read) [.access (wordAccess defaultParams 0x17FC .read)] ∧
    (∃ j < 11, 0x0128 = 0x0100 + 4 * j) ∧ (∃ j, 4 * j < defaultParams.l3Max ∧ 0x17FC = 0x1000 + 4 * j) :=
  ⟨⟨rfl, rfl⟩, ⟨10, by decide⟩, ⟨511, by decide⟩⟩

theorem witness_ResetValues : Reg.cmd ≠ .etypeBier ∧ Reg.cmd ≠ .etypeIp := by decide

theorem witness_ResetInputReplacesTheBlock :
    (issuing [.reset]).params.multiMaster = false ∧ (issuing [.reset]).pending = .reset :: [] := ⟨rfl, rfl⟩

theorem witness_ParameterRanges : 2048 ≤ defaultParams.l3Max := by decide

/-- A state after a VALIDATE meets the invariant, and a step leads on from it. -/
theorem witness_StepKeepsTheInvariant :
    (withBlock { Block.reset 0 with status := 0x00000001 }).Inv ∧
    step (withBlock { Block.reset 0 with status := 0x00000001 }) =
      .next (withBlock { Block.reset 0 with status := 0x00000001 }) := by
  refine ⟨⟨List.Pairwise.nil, ?_, ?_, by decide, by decide, by decide, by decide, by decide, by decide, by decide,
    by decide, ?_⟩, rfl⟩
  · intro c hc
    cases hc
  · intro k
    exact ⟨fun h => absurd h Bool.false_ne_true, fun h => absurd h (Nat.not_lt_zero k)⟩
  · unfold StatusForm
    decide

/-- A running host in its two outcomes: it goes on, and it stops. -/
theorem witness_ParametersAreFixed :
    step State.reset = .next State.reset ∧
    stepped (running .suspended [false]) (fun t => t.gen.mode = .running (config [destA] none) .selecting) = true ∧
    stepped (running .suspended [true]) (fun t => t.gen.mode = .stopped none) = true := ⟨rfl, by decide, by decide⟩

/-- A header the registers can hold, the bounds of what they can hold, and headers with one value they cannot. -/
theorem witness_LdHdrLoadsTheHeader :
    (issuing (accesses defaultParams (Pseudo.expand (.ldHdr badTc)))).params.multiMaster = false ∧
    badTc.representable = true ∧
    (issuing (accesses defaultParams (Pseudo.expand (.ldHdr badTc)))).pending =
      accesses defaultParams (Pseudo.expand (.ldHdr badTc)) ++ [] ∧
    ({ zeros with tc := 2 ^ 32 - 1 } : Header).field .tc < 2 ^ 32 ∧
    (issuing (accesses defaultParams (Pseudo.expand (.ldHdr overTc)))).pending =
      accesses defaultParams (Pseudo.expand (.ldHdr overTc)) ++ [] ∧
    overTc.representable = false ∧ overTc.field .ttl < 2 ^ 32 ∧ Field.ttl ≠ .bitstring ∧
    overBits.representable = false ∧ Reg.bitstring[0]? = some .bs0 ∧ Reg.bitstring[7]? = some .bs7 :=
  ⟨rfl, by decide, rfl, by decide, rfl, by decide, by decide, by decide, by decide, rfl, rfl⟩

/-- LDMAC of either address; LDBUF L3BUF of no byte, of five, whose last word is padded, and of L3_MAX bytes; LDBUF WBUF
of 44 bytes and of five. -/
theorem witness_LdMacLoadsTheAddress :
    let loads (p : Pseudo) : State := issuing (accesses defaultParams (Pseudo.expand p))
    (loads (.ldMacDst 0x020000000002)).params.multiMaster = false ∧
    (∀ p : Pseudo, (loads p).pending = accesses (loads p).params (Pseudo.expand p) ++ []) ∧
    ([] : List Byte).length ≤ defaultParams.l3Max ∧ (List.replicate 5 (1 : Byte)).length ≤ defaultParams.l3Max ∧
    (List.replicate 2048 (1 : Byte)).length ≤ defaultParams.l3Max ∧ (List.replicate 44 (1 : Byte)).length ≤ 44 ∧
    (List.replicate 5 (1 : Byte)).length ≤ 6 ∧ 6 < 4 * ((5 + 3) / 4) :=
  ⟨rfl, fun _ => (List.append_nil _).symm, by decide, by decide, by rw [List.length_replicate]; decide, by decide,
    by decide, by decide⟩

/-- A host that constructs goes on. -/
theorem witness_HostStepLeavesTheBlock :
    (hosting (.starting (config [destA] none))).pending = [] ∧
    stepped (hosting (.starting (config [destA] none))) (fun t => t.pending.length == 7) = true := by decide

/-- The clauses: a host in each of the three states and a step from it, the two ways into `Running`, and each cause of a
stop. -/
theorem witness_HostTransitions :
    stepped (hosting .idle) (fun t => t.gen.mode.hostState == .idle) = true ∧
    stepped (hosting (.configuring (config [destA] none)))
      (fun t => t.gen.mode = .running (config [destA] none) .selecting) = true ∧
    stepped { hosting (.validating (config [destA] (some golden))) with replies := [.data 1] }
      (fun t => t.gen.mode = .running (config [destA] (some golden)) .selecting) = true ∧
    stepped (running .suspended [true]) (fun t => t.gen.mode.hostState == .stopped) = true ∧
    stepped (running (.logging destA 14) [true]) (fun t => t.gen.mode.hostState == .stopped) = true ∧
    stepped (failingSend true) (fun t => t.gen.mode.hostState == .stopped) = true ∧
    stepped { running (.marshalling destA) [] with replies := [.data 0x00000123] }
      (fun t => t.gen.mode.hostState == .stopped) = true ∧
    stepped (hosting (.stopped none)) (fun t => t.gen.mode.hostState == .stopped) = true := by decide

/-- The failing step, and a step after it. -/
theorem witness_EmptyPoolFailsConstruction :
    (hosting (.starting (config [] none))).params.multiMaster = false ∧
    (hosting (.starting (config [] none))).pending = [] ∧
    (hosting (.starting (config [] none))).gen.mode = .starting (config [] none) ∧ (config [] none).pool = [] ∧
    step (hosting (.constructionFailed .emptyPoolError)) = .next (hosting (.constructionFailed .emptyPoolError)) :=
  ⟨rfl, rfl, rfl, rfl, rfl⟩

/-- A template in range, one with a value the registers cannot hold, and none. -/
theorem witness_ConstructionWritesTheConfiguration :
    (hosting (.starting (config [destA] (some golden)))).params.multiMaster = false ∧
    (hosting (.starting (config [destA] (some golden)))).pending = [] ∧
    (hosting (.starting (config [destA] (some golden)))).gen.mode = .starting (config [destA] (some golden)) ∧
    (config [destA] (some golden)).pool ≠ [] ∧ (config [destA] (some golden)).template = some golden ∧
    (hosting (.starting (config [destA] (some overTc)))).gen.mode = .starting (config [destA] (some overTc)) ∧
    (config [destA] (some overTc)).template = some overTc ∧
    (hosting (.starting (config [destA] none))).gen.mode = .starting (config [destA] none) ∧
    (config [destA] none).template = none := by decide

theorem witness_TemplateValidationDecidesConstruction :
    { hosting (.validating (config [destA] (some badTc))) with replies := [.data 0x00000113] }.params.multiMaster = false ∧
    { hosting (.validating (config [destA] (some badTc))) with replies := [.data 0x00000113] }.pending = [] ∧
    { hosting (.validating (config [destA] (some badTc))) with replies := [.data 0x00000113] }.gen.mode =
      .validating (config [destA] (some badTc)) ∧
    { hosting (.validating (config [destA] (some badTc))) with replies := [.data 0x00000113] }.replies =
      .data 0x00000113 :: [] ∧ 0x00000113#32 = rangeStatus .tc ∧ 0x00000C13#32 = rangeStatus .bfirId := by decide

/-- An injected draw below the pool's length, one above it, and a free draw; and a pool of one. -/
theorem witness_IterationMarshalsTheDrawnDestination :
    nextAnswer (drawing [1]).gen.draws (Config.rngDraw (drawing [1]).free) = (1, []) ∧
    1 < (config [destA, destB] none).pool.length ∧
    nextAnswer (drawing [7]).gen.draws (Config.rngDraw (drawing [7]).free) = (7, []) ∧
    nextAnswer (drawing []).gen.draws (Config.rngDraw (drawing []).free) = (Config.rngDraw 0, []) ∧
    (drawing [1]).params.multiMaster = false ∧ (drawing [1]).pending = [] ∧
    (drawing [1]).gen.mode = .running (config [destA, destB] none) .selecting ∧
    (config [destA, destB] none).pool ≠ [] ∧ (running .selecting []).gen.mode = .running (config [destA] none) .selecting ∧
    (config [destA] none).pool = [destA] := ⟨rfl, by decide, rfl, rfl, rfl, rfl, rfl, by decide, rfl, rfl⟩

theorem witness_BlockErrorStopsTheHost :
    { hosting (.running (config [destA] none) (.marshalling destA)) with replies := [.data 0x00000123] }.gen.mode =
      .running (config [destA] none) (.marshalling destA) ∧
    { hosting (.running (config [destA] none) (.marshalling destA)) with replies := [.data 0x00000123] }.pending = [] ∧
    { hosting (.running (config [destA] none) (.marshalling destA)) with replies := [.data 0x00000123] }.replies =
      .data 0x00000123 :: [] ∧ 0x00000123#32 = CmdError.statusWord (.lengthError .l3Length) ∧
    (drawing [1]).params.multiMaster = false ∧ (drawing [1]).pending = [] ∧
    (drawing [1]).gen.mode = .running (config [destA, destB] none) .selecting ∧
    drawnDestination (config [destA, destB] none)
      (nextAnswer (drawing [1]).gen.draws (Config.rngDraw (drawing [1]).free)).1 = some destB ∧
    ¬BierEn (drawing [1]).block := by unfold BierEn; decide

/-- A fatal and another transport error, a success, and a free answer. -/
theorem witness_TransportErrorsStopOnlyWhenFatal :
    nextAnswer (failingSend true).gen.sends (Config.sendResult 0 "eth0" [0x45]) = (.transportError 7, []) ∧
    (failingSend true).gen.isFatal 7 = true ∧ (failingSend false).gen.isFatal 7 = false ∧
    (failingSend true).gen.mode = .running (config [destA] none) (.sending destA [0x45]) ∧
    (failingSend true).pending = [] ∧ (failingSend true).params.multiMaster = false ∧
    nextAnswer ({ Generator.reset with sends := [.ok] } : Generator).sends (Config.sendResult 0 "eth0" [0x45]) =
      (.ok, []) ∧
    nextAnswer (running (.sending destA [0x45]) []).gen.sends (Config.sendResult 0 "eth0" [0x45]) =
      (Config.sendResult 0 "eth0" [0x45], []) := ⟨rfl, by decide, by decide, rfl, rfl, rfl, rfl, rfl⟩

/-- INTERVAL zero with both signals and a free one, and INTERVAL not zero. -/
theorem witness_EverySendIsLogged :
    (running (.logging destA 14) [true]).gen.mode = .running (config [destA] none) (.logging destA 14) ∧
    (running (.logging destA 14) [true]).pending = [] ∧ (running (.logging destA 14) [true]).params.multiMaster = false ∧
    (config [destA] none).interval = 0 ∧ ({ config [destA] none with interval := 1 } : GeneratorConfig).interval ≠ 0 ∧
    nextAnswer (running (.logging destA 14) [true]).gen.stops (Config.stopSignal 1) = (true, []) ∧
    nextAnswer (running (.logging destA 14) [false]).gen.stops (Config.stopSignal 1) = (false, []) ∧
    nextAnswer (running (.logging destA 14) []).gen.stops (Config.stopSignal 1) = (Config.stopSignal 1, []) :=
  ⟨rfl, rfl, rfl, rfl, by decide, rfl, rfl, rfl⟩

theorem witness_CancellationEndsTheSuspension :
    nextAnswer (running .suspended [true]).gen.stops (Config.stopSignal 0) = (true, []) ∧
    nextAnswer (running .suspended [false]).gen.stops (Config.stopSignal 0) = (false, []) ∧
    nextAnswer (running .suspended []).gen.stops (Config.stopSignal 0) = (Config.stopSignal 0, []) ∧
    (running .suspended [true]).gen.mode = .running (config [destA] none) .suspended ∧
    (running .suspended [true]).pending = [] ∧ (running .suspended [true]).params.multiMaster = false :=
  ⟨rfl, rfl, rfl, rfl, rfl, rfl⟩

/-- The answer to a read of FLEN, the words of a frame of 18 bytes (five, the last with two of its lanes outside the
frame), and a host that has read the FLEN of 62 that the block holds. -/
theorem witness_CollectedFrameIsTheBuffersBytes :
    let frame : List Byte := [2, 0, 0, 0, 0, 2, 2, 0, 0, 0, 0, 1, 0x08, 0x00, 0x45, 0x00, 0x00, 0x1C]
    let words : List Word := [0x02000000, 0x00020200, 0x00000001, 0x08004500, 0x001CFFFF]
    let s := { running (.collecting destA 18) [] with replies := (words.map Reply.data).reverse ++ [Reply.ok] }
    let u := { running (.sizing destA) [] with
      block := { Block.reset 0 with flen := 62 }, replies := [Reply.data 62, Reply.ok] }
    words.length = (frame.length + 3) / 4 ∧
    (∀ k < frame.length, (words.getD (k / 4) 0).extractLsb' (24 - 8 * (k % 4)) 8 = frame.getD k 0) ∧
    s.replies = (words.map Reply.data).reverse ++ [Reply.ok] ∧ s.pending = [] ∧
    s.gen.mode = .running (config [destA] none) (.collecting destA frame.length) ∧
    u.params.multiMaster = false ∧ u.pending = [] ∧ u.gen.mode = .running (config [destA] none) (.sizing destA) ∧
    u.replies = .data u.block.flen :: [Reply.ok] ∧ lenOf u.block.flen ≤ u.params.frameMax := by decide

end Sys2Proof.Tests
end

/-! ### The implementation parameters (00_scope.md R6) -/

namespace Sys2Proof

theorem four_dvd_l3Max (p : Params) : 4 ∣ p.l3Max := ⟨p.l3Sel.val + 1, rfl⟩

theorem four_le_l3Max (p : Params) : 4 ≤ p.l3Max := Nat.le_mul_of_pos_right 4 (Nat.succ_pos _)

/-- The largest selector is 1023. -/
theorem l3Max_le (p : Params) : p.l3Max ≤ 4096 := Nat.mul_le_mul_left 4 p.l3Sel.isLt

theorem windowSize_dvd_base (p : Params) : windowSize ∣ p.base := ⟨p.baseSel, rfl⟩

/-- Settles O44: the capacity is at most 4096, so a frame has at most 14 + 44 + 4096 = 4154 bytes. -/
theorem parameterRanges : Obligations.ParameterRanges := by
  unfold Obligations.ParameterRanges
  intro p
  have hmax := l3Max_le p
  refine ⟨four_dvd_l3Max p, four_le_l3Max p, hmax, rfl, windowSize_dvd_base p, fun n hn => ?_⟩
  omega

end Sys2Proof

namespace Sys2Proof.Machine

/-! ### What a transaction leaves of the machine around the block -/

/-- A read answers with data and takes free values at most. -/
theorem busRead_frame (slot : Slot) (s : State) :
    ∃ n v, busRead slot s = { s with free := n }.reply (.data v) := by
  unfold busRead
  dsimp only
  split
  · exact ⟨s.free + 1, _, rfl⟩
  · exact ⟨s.free, _, rfl⟩

/-- A command word changes only the block. -/
theorem command_frame (v : Word) (s : State) : ∃ b, command exec v s = .next { s with block := b } := by
  obtain ⟨i, -, hrun⟩ | ⟨r, -, hraise⟩ := command_cases v s
  · obtain ⟨r, hr⟩ := exec_finish i s
    exact ⟨_, hrun.trans hr⟩
  · exact ⟨_, hraise⟩

/-- A write changes only the block and is answered OK. -/
theorem busWrite_frame (slot : Slot) (v : Word) (s : State) :
    ∃ b, busWrite exec slot v s = .next ({ s with block := b }.reply .ok) := by
  obtain ⟨-, hcmd⟩ | ⟨-, hslot⟩ := busWrite_cases slot v s
  · obtain ⟨b, hb⟩ := command_frame v s
    exact ⟨b, by rw [hcmd, hb, mapNext_next]⟩
  · exact ⟨_, hslot⟩

/-- A transaction is answered, and changes nothing but the block and the number of free values drawn. -/
theorem perform_frame (a : Access) (s : State) :
    ∃ b n r, perform exec a s = .next ({ s with block := b, free := n }.reply r) := by
  obtain ⟨-, houtside⟩ | ⟨_, -, -, hbuserr⟩ | ⟨_, slot, -, -, ⟨-, hread⟩ | ⟨v, -, hwrite⟩⟩ := perform_cases exec a s
  · exact ⟨s.block, s.free, _, houtside⟩
  · exact ⟨s.block, s.free, _, hbuserr⟩
  · obtain ⟨n, v, hv⟩ := busRead_frame slot s
    exact ⟨s.block, n, _, hread.trans (congrArg _ hv)⟩
  · obtain ⟨b, hb⟩ := busWrite_frame slot v s
    exact ⟨b, s.free, _, hwrite.trans hb⟩

/-! ### What a step of the host agent leaves (60_exceptions.md R212, R221) -/

/-- `t` differs from `s` only in the host agent, in the free values drawn, and in transactions issued after all that was
pending. -/
structure HostFrame (s t : State) : Prop where
  params  : t.params = s.params
  block   : t.block = s.block
  replies : t.replies = s.replies
  pending : ∃ lines, t.pending = s.pending ++ accesses s.params lines

/-- The frame of a host step that issues nothing. -/
theorem HostFrame.of_pending_eq {s t : State} (hparams : t.params = s.params) (hblock : t.block = s.block)
    (hreplies : t.replies = s.replies) (hpending : t.pending = s.pending) : HostFrame s t :=
  ⟨hparams, hblock, hreplies, [], by simp [hpending]⟩

theorem HostFrame.refl (s : State) : HostFrame s s := .of_pending_eq rfl rfl rfl rfl

theorem hostFrame_setMode (s : State) (m : Mode) : HostFrame s (s.setMode m) := .of_pending_eq rfl rfl rfl rfl

theorem hostFrame_issue_setMode (s : State) (lines : List Line) (m : Mode) :
    HostFrame s ((s.issue lines).setMode m) := ⟨rfl, rfl, rfl, lines, rfl⟩

theorem hostFrame_failConstruction (s : State) (e : HostError) : HostFrame s (s.failConstruction e) :=
  .of_pending_eq rfl rfl rfl rfl

theorem hostFrame_stopOn (s : State) (e : HostError) : HostFrame s (s.stopOn e) := .of_pending_eq rfl rfl rfl rfl

theorem hostFrame_send (c : GeneratorConfig) (dst : Destination) (frame : List Byte) (s : State) :
    HostFrame s (send c dst frame s) := by
  obtain ⟨hblock, hparams, hpending, hreplies, -⟩ := send_frame c dst frame s
  exact .of_pending_eq hparams hblock hreplies hpending

theorem hostFrame_pollStop (c : GeneratorConfig) (s : State) : HostFrame s (pollStop c s) :=
  .of_pending_eq rfl rfl rfl rfl

theorem hostFrame_logSend (c : GeneratorConfig) (dst : Destination) (len : Nat) (s : State) :
    HostFrame s (logSend c dst len s) := by
  unfold logSend
  dsimp only
  split <;> exact .of_pending_eq rfl rfl rfl rfl

/-- Where a destination is drawn, the host goes on to marshal for it (60_exceptions.md R223). -/
theorem select_cases {c : GeneratorConfig} {s t : State} (h : select c s = .next t) :
    ∃ dst, t.gen.mode = .running c (.marshalling dst) ∧ HostFrame s t := by
  unfold select at h
  dsimp only at h
  split at h
  · cases h
  · cases h
    exact ⟨_, rfl, rfl, rfl, rfl, _, rfl⟩

theorem construct_frame {c : GeneratorConfig} {s t : State} (h : construct c s = .next t) : HostFrame s t := by
  unfold construct at h
  split at h
  · cases h
    exact hostFrame_failConstruction s _
  · split at h <;> cases h <;> exact hostFrame_issue_setMode s _ _

/-- The host still runs with configuration `c`, or has stopped. -/
def RunsOrStops (c : GeneratorConfig) (m : Mode) : Prop :=
  (∃ p, m = .running c p) ∨ ∃ e, m = .stopped e

theorem runsOrStops_running (c : GeneratorConfig) (p : Phase) : RunsOrStops c (.running c p) := .inl ⟨p, rfl⟩

theorem runsOrStops_stopped (c : GeneratorConfig) (e : Option HostError) : RunsOrStops c (.stopped e) := .inr ⟨e, rfl⟩

/-- A send goes on to log, or stops on a fatal error. -/
theorem send_runsOrStops (c : GeneratorConfig) (dst : Destination) (frame : List Byte) (s : State) :
    RunsOrStops c (send c dst frame s).gen.mode := by
  unfold send
  dsimp only
  split
  · exact runsOrStops_running c _
  · split
    · exact runsOrStops_stopped c _
    · exact runsOrStops_running c _

/-- A suspension point stops on the stop signal, or starts the next iteration. -/
theorem pollStop_runsOrStops (c : GeneratorConfig) (s : State) : RunsOrStops c (pollStop c s).gen.mode := by
  unfold pollStop
  rw [setMode_mode]
  split
  · exact runsOrStops_stopped c none
  · exact runsOrStops_running c .selecting

theorem logSend_runsOrStops (c : GeneratorConfig) (dst : Destination) (len : Nat) (s : State) :
    RunsOrStops c (logSend c dst len s).gen.mode := by
  unfold logSend
  dsimp only
  split
  · exact pollStop_runsOrStops c _
  · exact runsOrStops_running c .suspended

/-- Each phase of an iteration leaves the block and the run's configuration (60_exceptions.md R220, R223). -/
theorem iterate_frame {c : GeneratorConfig} {s t : State} {p : Phase} (h : iterate c s p = .next t) :
    HostFrame s t ∧ RunsOrStops c t.gen.mode := by
  cases p with
  | selecting =>
    obtain ⟨dst, hmode, hframe⟩ := select_cases h
    exact ⟨hframe, .inl ⟨_, hmode⟩⟩
  | marshalling dst =>
    obtain ⟨w, _, -, ⟨-, h⟩ | ⟨-, e, -, h⟩⟩ := onStatus_cases h
    · cases h
      exact ⟨hostFrame_issue_setMode s _ _, runsOrStops_running c _⟩
    · cases h
      exact ⟨hostFrame_stopOn s _, runsOrStops_stopped c _⟩
  | sizing dst =>
    obtain ⟨w, _, -, h⟩ := onReply_cases h
    cases h
    exact ⟨hostFrame_issue_setMode s _ _, runsOrStops_running c _⟩
  | collecting dst len =>
    unfold iterate at h
    dsimp only at h
    split at h <;> cases h
    exact ⟨hostFrame_setMode s _, runsOrStops_running c _⟩
  | sending dst frame =>
    cases h
    exact ⟨hostFrame_send c dst frame s, send_runsOrStops c dst frame s⟩
  | logging dst len =>
    cases h
    exact ⟨hostFrame_logSend c dst len s, logSend_runsOrStops c dst len s⟩
  | suspended =>
    cases h
    exact ⟨hostFrame_pollStop c s, pollStop_runsOrStops c s⟩

/-- In every mode the host agent reaches the block only by the transactions it issues (60_exceptions.md R212). -/
theorem hostStep_frame {s t : State} (h : hostStep s = .next t) : HostFrame s t := by
  cases hm : s.gen.mode with
  | idle =>
    cases (hostStep_idle hm).symm.trans h
    exact .refl s
  | starting c => exact construct_frame ((hostStep_starting hm).symm.trans h)
  | configuring c =>
    cases (hostStep_configuring hm).symm.trans h
    exact hostFrame_setMode s _
  | validating c =>
    obtain ⟨w, _, -, ⟨-, h⟩ | ⟨-, e, -, h⟩⟩ := onStatus_cases ((hostStep_validating hm).symm.trans h)
    · cases h
      exact hostFrame_setMode s _
    · cases h
      exact hostFrame_failConstruction s _
  | constructionFailed e =>
    cases (hostStep_constructionFailed hm).symm.trans h
    exact .refl s
  | running c p => exact (iterate_frame ((hostStep_running hm).symm.trans h)).1
  | stopped e =>
    cases (hostStep_stopped hm).symm.trans h
    exact .refl s

/-! ### What every step leaves -/

/-- A start outside Idle is ignored (log 14). -/
theorem startGenerator_running {s : State} {c : GeneratorConfig} {p : Phase} (c' : GeneratorConfig)
    (h : s.gen.mode = .running c p) : startGenerator c' s = s := by
  unfold startGenerator
  rw [h]

/-- No step changes an implementation parameter (00_scope.md R6). -/
theorem step_params {s t : State} (h : step s = .next t) : t.params = s.params := by
  obtain ⟨-, ⟨a, rest, -, haccess⟩ | ⟨rest, -, rfl⟩ | ⟨c, rest, -, rfl⟩ | ⟨-, hhost⟩⟩ := step_cases h
  · obtain ⟨b, n, r, hperform⟩ := perform_frame a { s with pending := rest }
    cases hperform.symm.trans haccess
    rfl
  · rfl
  · exact (startGenerator_frame c _).2.1
  · exact (hostStep_frame hhost).params

/-- A running host goes on with its configuration or stops, whatever the step is (60_exceptions.md R220). -/
theorem step_running {s t : State} {c : GeneratorConfig} {p : Phase} (hrun : s.gen.mode = .running c p)
    (h : step s = .next t) : RunsOrStops c t.gen.mode := by
  have hstays : RunsOrStops c s.gen.mode := .inl ⟨p, hrun⟩
  obtain ⟨-, ⟨a, rest, -, haccess⟩ | ⟨rest, -, rfl⟩ | ⟨c', rest, -, rfl⟩ | ⟨-, hhost⟩⟩ := step_cases h
  · obtain ⟨b, n, r, hperform⟩ := perform_frame a { s with pending := rest }
    cases hperform.symm.trans haccess
    exact hstays
  · exact hstays
  · rw [startGenerator_running (s := { s with pending := rest }) c' hrun]
    exact hstays
  · exact (iterate_frame ((hostStep_running hrun).symm.trans hhost)).2

/-- Settles O47: transactions and the reset input leave the host agent, a start is ignored outside Idle, and each phase
of an iteration goes on with the configuration it has or stops. -/
theorem parametersAreFixed : Obligations.ParametersAreFixed := by
  unfold Obligations.ParametersAreFixed
  exact ⟨fun _ _ => step_params, fun _ _ _ _ => step_running⟩

end Sys2Proof.Machine

namespace Sys2Proof

/-! ### STATUS words (10_state.md R23, 60_exceptions.md R203, R204) -/

/-- The bits appended below a value count below it. -/
theorem toNat_append_add {m n : Nat} (x : BitVec m) (y : BitVec n) :
    (x ++ y).toNat = x.toNat * 2 ^ n + y.toNat := by
  rw [BitVec.toNat_append, ← Nat.shiftLeft_add_eq_or_of_lt y.isLt, Nat.shiftLeft_eq]

/-- The STATUS word of an error as a number: ERRINFO from bit 8, ERRCODE from bit 4, ERR and DONE set. -/
theorem statusWord_toNat (e : CmdError) : e.statusWord.toNat = 256 * e.info.toNat + 16 * e.code.toNat + 3 := by
  have hcode := e.code.isLt
  have hinfo := e.info.isLt
  have hone : (1 : BitVec 1).toNat = 1 := rfl
  have hzero : (0 : BitVec 2).toNat = 0 := rfl
  rw [CmdError.statusWord, BitVec.toNat_setWidth]
  simp only [toNat_append_add, hone, hzero]
  omega

@[simp] theorem statusErrCode_statusWord (e : CmdError) : statusErrCode e.statusWord = e.code.toNat := by
  have hcode := e.code.isLt
  rw [statusErrCode, slice, statusWord_toNat, Nat.shiftRight_eq_div_pow]
  omega

@[simp] theorem statusErrInfo_statusWord (e : CmdError) : statusErrInfo e.statusWord = e.info.toNat := by
  have hcode := e.code.isLt
  have hinfo := e.info.isLt
  rw [statusErrInfo, slice, statusWord_toNat, Nat.shiftRight_eq_div_pow]
  omega

@[simp] theorem statusErr_statusWord (e : CmdError) : statusErr e.statusWord = true := by
  rw [statusErr, BitVec.getLsbD, statusWord_toNat, Nat.testBit_eq_decide_div_mod_eq, decide_eq_true_eq]
  omega

@[simp] theorem statusDone_statusWord (e : CmdError) : statusDone e.statusWord = true := by
  rw [statusDone, BitVec.getLsbD, statusWord_toNat, Nat.testBit_eq_decide_div_mod_eq, decide_eq_true_eq]
  omega

/-- Every error has one of the three codes of 60_exceptions.md R200. -/
theorem code_toNat (e : CmdError) : 1 ≤ e.code.toNat ∧ e.code.toNat ≤ 3 := by
  cases e <;> simp [CmdError.code]

/-- ERRINFO and ERRCODE name the error (60_exceptions.md R200, R204). -/
theorem ofStatus_statusWord (e : CmdError) : CmdError.ofStatus e.statusWord = some e := by
  unfold CmdError.ofStatus
  rw [statusErrCode_statusWord, statusErrInfo_statusWord]
  cases e with
  | rangeError f => cases f <;> rfl
  | lengthError cause => cases cause <;> rfl
  | illegalCommand opc =>
    have hopc := opc.isLt
    have hinfo : (CmdError.illegalCommand opc).info.toNat = opc.toNat := by
      simp only [CmdError.info, BitVec.toNat_setWidth]
      omega
    rw [hinfo]
    simp [CmdError.code, hopc]

end Sys2Proof

namespace Sys2Proof.Machine

theorem statusForm_statusWord (e : CmdError) : StatusForm e.statusWord := by
  have hcode := code_toNat e
  have hinfo := e.info.isLt
  refine ⟨?_, ?_, ?_, ?_, ?_, ?_⟩
  · apply BitVec.eq_of_toNat_eq
    rw [BitVec.extractLsb'_toNat, statusWord_toNat, Nat.shiftRight_eq_div_pow, BitVec.ofNat_eq_ofNat, BitVec.toNat_zero]
    omega
  · apply BitVec.eq_of_toNat_eq
    rw [BitVec.extractLsb'_toNat, statusWord_toNat, Nat.shiftRight_eq_div_pow, BitVec.ofNat_eq_ofNat, BitVec.toNat_zero]
    omega
  · rw [statusErr_statusWord, statusErrCode_statusWord]
    exact ⟨fun _ => by omega, fun _ => rfl⟩
  · rw [statusErrCode_statusWord]
    exact hcode.2
  · simp
  · simp

theorem statusForm_okStatus : StatusForm okStatus := by
  unfold StatusForm
  decide

theorem statusForm_zero : StatusForm 0 := by
  unfold StatusForm
  decide

/-- Settles O25: the fields of the word are the error's code and detail. -/
theorem statusCarriesTheError : Obligations.StatusCarriesTheError := by
  unfold Obligations.StatusCarriesTheError
  exact fun e => ⟨ofStatus_statusWord e, statusForm_statusWord e⟩

end Sys2Proof.Machine

namespace Sys2Proof.Machine

/-! ### The window's slots (20_memory.md R61) -/

/-- The window offset of a slot. -/
def slotOffset : Slot → Nat
  | .reg r => r.offset
  | .wbuf j => wbufBase + 4 * j
  | .l3buf j => l3bufBase + 4 * j
  | .fbuf j => fbufBase + 4 * j

/-- The slot is one of the window's: a buffer word lies in its buffer. -/
def SlotMapped (p : Params) : Slot → Prop
  | .reg _ => True
  | .wbuf j => 4 * j < hdrBytes
  | .l3buf j => 4 * j < p.l3Max
  | .fbuf j => j < p.frameWords

/-- A mapped, word-aligned offset is that of its slot. -/
theorem slotAt_eq_some {p : Params} {off : Nat} {slot : Slot} (haligned : off % 4 = 0)
    (h : p.slotAt off = some slot) : off = slotOffset slot ∧ SlotMapped p slot := by
  unfold Params.slotAt at h
  split at h
  · rename_i r hfind
    cases h
    exact ⟨(by simpa using List.find?_some hfind : r.offset = off).symm, trivial⟩
  · unfold wbufBase l3bufBase fbufBase at h
    split at h
    · cases h
      simp only [slotOffset, SlotMapped, wbufBase]
      omega
    · split at h
      · cases h
        simp only [slotOffset, SlotMapped, l3bufBase]
        omega
      · split at h
        · cases h
          simp only [slotOffset, SlotMapped, fbufBase]
          omega
        · cases h

/-- A transaction that reaches a slot is 32 bits wide and at the slot's offset (20_memory.md R62). -/
theorem busSlot_eq_some {p : Params} {bits off : Nat} {slot : Slot} (h : busSlot p bits off = some slot) :
    bits = 32 ∧ off = slotOffset slot ∧ SlotMapped p slot := by
  unfold busSlot legalForm at h
  split at h
  · rename_i hform
    obtain ⟨hbits, haligned⟩ : bits = 32 ∧ off % 4 = 0 := by simpa using hform
    exact ⟨hbits, slotAt_eq_some haligned h⟩
  · cases h

/-- No register stands in the buffers' part of the window. -/
theorem find_offset_buffer {off : Nat} (h : 0x00A0 ≤ off) : Reg.all.find? (fun r => r.offset = off) = none :=
  find_offset_none fun r => by have := offset_lt r; omega

/-- The words of FBUF stand behind L3BUF, whose capacity ends before them. -/
theorem slotAt_fbuf (p : Params) {j : Nat} (h : j < p.frameWords) : p.slotAt (fbufBase + 4 * j) = some (.fbuf j) := by
  have hmax := l3Max_le p
  unfold Params.slotAt wbufBase l3bufBase fbufBase hdrBytes
  rw [find_offset_buffer (by omega)]
  dsimp only
  rw [if_neg (by omega), if_neg (by omega), if_pos (by omega)]
  congr 2
  omega

/-- All of FBUF lies in the window. -/
theorem fbuf_lt_window (p : Params) {j : Nat} (h : j < p.frameWords) : fbufBase + 4 * j < 0x4000 := by
  have hmax := l3Max_le p
  unfold Params.frameWords Params.frameMax at h
  unfold fbufBase
  omega

/-! ### Reads of FBUF (10_state.md R36, 20_memory.md R64) -/

/-- A read of a mapped FBUF word is performed as a read of its slot. -/
theorem step_read_fbuf {s : State} {rest : List Input} {j : Nat} (hj : j < s.params.frameWords)
    (h : Issued s (wordAccess s.params (fbufBase + 4 * j) .read) rest) :
    step s = .next (busRead (.fbuf j) { s with pending := rest }) := by
  have hoff := offsetOf_base_add s.params (fbuf_lt_window s.params hj)
  have hslot : busSlot s.params 32 (fbufBase + 4 * j) = some (.fbuf j) := by
    have haligned : legalForm 32 (fbufBase + 4 * j) = true := by simp [legalForm, fbufBase]
    rw [busSlot, if_pos haligned, slotAt_fbuf s.params hj]
  rw [step_access h]
  simp only [perform, wordAccess, hoff, hslot]

/-- Each lane of an FBUF word is the byte a read of FBUF gives there. -/
theorem fbufWord_lane (p : Params) (b : Block) (draw : Word) (j : Nat) {i : Nat} (h : i < 4) :
    (b.fbufWord p draw j).extractLsb' (24 - 8 * i) 8 = b.fbufByte p draw (4 * j + i) := by
  rw [Block.fbufWord, catBytes_lane _ (by simp) h]
  simp [h]

/-- Below FLEN.LEN and FRAME_MAX a read of FBUF gives the frame's byte. -/
theorem fbufByte_of_lt {p : Params} {b : Block} (draw : Word) {k : Nat} (hlen : k < lenOf b.flen)
    (hmax : k < p.frameMax) : b.fbufByte p draw k = b.byte (fbufBase + k) :=
  if_pos (by simp [Block.isFrameByte, hlen, hmax])

/-- A read changes the pending inputs, the replies and the number of free values drawn. -/
theorem busRead_eq_answered (slot : Slot) (s : State) (rest : List Input) :
    busRead slot { s with pending := rest } =
      { s.answered rest (.data (s.block.readSlot s.params (Config.freeWord s.free) slot)) with
        free := (busRead slot { s with pending := rest }).free } := by
  unfold busRead
  dsimp only
  split <;> rfl

/-- Settles O37: the word's lanes are the bytes a read of FBUF gives, which below FLEN.LEN are the frame's. -/
theorem frameBytesAreReadInTheirLanes : Obligations.FrameBytesAreReadInTheirLanes := by
  unfold Obligations.FrameBytesAreReadInTheirLanes
  intro s rest j hj hissued
  refine ⟨_, _, step_read_fbuf hj hissued, busRead_eq_answered _ s rest, fun i hi hlen hmax => ?_⟩
  rw [Block.readSlot, fbufWord_lane _ _ _ _ hi, fbufByte_of_lt _ hlen hmax, ← Nat.add_assoc]
  rfl

end Sys2Proof.Machine

namespace Sys2Proof

/-- A command word is RSVD above OPC (30_encoding.md R99). -/
theorem rsvd_append_opc (v : Word) : v.extractLsb' 4 28 ++ v.extractLsb' 0 4 = v := by
  have h : v.extractLsb' 4 28 ++ v.extractLsb' 0 4 = v.extractLsb' 0 32 :=
    BitVec.extractLsb'_append_extractLsb'_eq_extractLsb' rfl
  rw [h, BitVec.extractLsb'_eq_self]

/-- OPC of a word that decodes to a command is the command's, and RSVD is 0. -/
theorem fields_of_decode {v : Word} {i : Instr} (h : decode v = .ok i) :
    v.extractLsb' 4 28 = 0 ∧ v.extractLsb' 0 4 = i.opc := by
  unfold decode at h
  dsimp only at h
  split at h
  · cases h
  · refine ⟨not_not.mp ‹_›, ?_⟩
    split_ifs at h <;> cases h <;> assumption

/-- A command's word is the only one that decodes to it (30_encoding.md R100). -/
theorem eq_encode_of_decode {v : Word} {i : Instr} (h : decode v = .ok i) : v = encode i := by
  obtain ⟨hrsvd, hopc⟩ := fields_of_decode h
  rw [encode, ← hrsvd, ← hopc, rsvd_append_opc]

end Sys2Proof

namespace Sys2Proof.Machine

/-! ### What a command writes (40_codec.md R141 to R143, 41_marshal.md R173) -/

/-- The result writes of a command. -/
def commandResult (p : Params) (b : Block) : Instr → Except CmdError Block
  | .validate => validateResult b
  | .encode => encodeResult b
  | .decode => decodeResult b
  | .marshal => marshalResult p b

/-- A command ends as its result writes say. -/
theorem exec_eq_finish (i : Instr) (s : State) : exec i s = s.finish (commandResult s.params s.block i) := by
  cases i <;> rfl

theorem encodeHeader_ok {h : Header} {bytes : List Byte} (hok : encodeHeader h = .ok bytes) :
    validateHeader h = .ok () ∧ bytes = headerBytes h := by
  unfold encodeHeader at hok
  split at hok
  · cases hok
  · cases hok
    exact ⟨‹_›, rfl⟩

@[simp] theorem headerBytes_length (h : Header) : (headerBytes h).length = hdrBytes := by simp [headerBytes, hdrBytes]

@[simp] theorem linkHeader_length (c : FrameCfg) (etype : BitVec 16) : (linkHeader c etype).length = 14 := by
  simp [linkHeader]

/-- A frame is the link-layer header, the encoded header where there is one, and the layer-3 bytes. -/
theorem frameBytes_length_le {c : FrameCfg} {h : Header} {l3 frame : List Byte} (hok : frameBytes c h l3 = .ok frame) :
    frame.length ≤ 14 + hdrBytes + l3.length := by
  unfold frameBytes at hok
  split at hok
  · split at hok
    · cases hok
    · rename_i hbytes
      cases hok
      simp [(encodeHeader_ok hbytes).2, Nat.add_assoc]
  · cases hok
    simp

theorem validateResult_ok {b b' : Block} (h : validateResult b = .ok b') :
    validateHeader b.hdrOf = .ok () ∧ b' = b := by
  unfold validateResult at h
  split at h
  · cases h
  · cases h
    exact ⟨‹_›, rfl⟩

theorem encodeResult_ok {b b' : Block} (h : encodeResult b = .ok b') :
    validateHeader b.hdrOf = .ok () ∧
      b' = (b.store wbufBase (headerBytes b.hdrOf)).setReg .wlen (BitVec.ofNat 32 hdrBytes) := by
  unfold encodeResult at h
  split at h
  · cases h
  · rename_i hbytes
    obtain ⟨hvalid, rfl⟩ := encodeHeader_ok hbytes
    cases h
    exact ⟨hvalid, rfl⟩

theorem decodeResult_ok {b b' : Block} (h : decodeResult b = .ok b') :
    lenOf b.wlen = hdrBytes ∧ ∃ hdr, decodeHeader (b.bytes wbufBase hdrBytes) = .ok hdr ∧ b' = b.setHdr hdr := by
  unfold decodeResult at h
  split at h
  · cases h
  · split at h
    · cases h
    · cases h
      exact ⟨not_not.mp ‹_›, _, ‹_›, rfl⟩

/-- FBUF and FLEN as a successful MARSHAL leaves them (41_marshal.md R173). -/
def Block.withFrame (p : Params) (b : Block) (frame : List Byte) : Block :=
  ((b.forget fbufBase (fbufBase + p.frameMax)).store fbufBase frame).setReg .flen (BitVec.ofNat 32 frame.length)

theorem marshalResult_ok {p : Params} {b b' : Block} (h : marshalResult p b = .ok b') :
    lenOf b.l3len ≤ p.l3Max ∧
      ∃ frame, frameBytes b.frameCfg b.hdrOf (b.bytes l3bufBase (lenOf b.l3len)) = .ok frame ∧
        b' = b.withFrame p frame := by
  unfold marshalResult at h
  dsimp only at h
  split at h
  · cases h
  · split at h
    · cases h
    · split at h
      · cases h
      · cases h
        exact ⟨Nat.le_of_not_lt ‹_›, _, ‹_›, rfl⟩

/-- Only MARSHAL's result writes FLEN (20_memory.md R74). -/
theorem commandResult_flen {p : Params} {b b' : Block} {i : Instr} (hi : i ≠ .marshal)
    (h : commandResult p b i = .ok b') : b'.flen = b.flen := by
  cases i with
  | validate => rw [(validateResult_ok h).2]
  | encode =>
    obtain ⟨-, rfl⟩ := encodeResult_ok h
    exact (reg_setReg_of_ne _ _ (q := .flen) (r := .wlen) nofun).trans (store_reg b wbufBase _ .flen)
  | decode =>
    obtain ⟨-, hdr, -, rfl⟩ := decodeResult_ok h
    rfl
  | marshal => exact absurd rfl hi

/-! ### What a step does to the block -/

/-- The ways a step of `s` to `t` treats the block: it is left alone, it is reset, a word written to CMD runs a command or
is rejected, or a write reaches another slot of the window (20_memory.md R65, 30_encoding.md R101). -/
inductive BlockStep (s t : State) : Prop where
  | unchanged (block : t.block = s.block)
  | reset (rest : List Input) (pending : s.pending = .reset :: rest)
      (block : t.block = Block.reset (s.block.epoch + 1))
  | command (v : Word) (i : Instr) (rest : List Input) (decoded : decode v = .ok i)
      (pending : s.pending = .access (wordAccess s.params 0x0000 (.write v)) :: rest)
      (block : t.block = s.block.finish (commandResult s.params s.block i))
  | rejected (v : Word) (r : Reject) (rest : List Input) (decoded : decode v = .error r)
      (pending : s.pending = .access (wordAccess s.params 0x0000 (.write v)) :: rest)
      (block : t.block = s.block.raise (.illegalCommand r.opc))
  | write (slot : Slot) (v : Word) (rest : List Input) (mapped : SlotMapped s.params slot) (notCmd : slot ≠ .reg .cmd)
      (pending : s.pending = .access (wordAccess s.params (slotOffset slot) (.write v)) :: rest)
      (block : t.block = s.block.writeSlot v slot)

/-- A write transaction that reaches a slot. -/
theorem busWrite_blockStep {s t : State} {a : Access} {rest : List Input} {off : Nat} {slot : Slot} {v : Word}
    (hpending : s.pending = .access a :: rest) (hoff : s.params.offsetOf a.addr = some off)
    (hslot : busSlot s.params a.bits off = some slot) (hop : a.op = .write v)
    (h : busWrite exec slot v { s with pending := rest } = .next t) : BlockStep s t := by
  obtain ⟨haddr, -⟩ := offsetOf_eq_some hoff
  obtain ⟨hbits, hslotOff, hmapped⟩ := busSlot_eq_some hslot
  have ha : a = wordAccess s.params (slotOffset slot) (.write v) := by
    obtain ⟨addr, bits, op⟩ := a
    subst hslotOff hbits hop haddr
    rfl
  rw [ha] at hpending
  obtain ⟨rfl, hcmd⟩ | ⟨hne, hwrite⟩ := busWrite_cases slot v { s with pending := rest }
  · rw [hcmd] at h
    obtain ⟨i, hdecode, hrun⟩ | ⟨r, hdecode, hraise⟩ := command_cases v { s with pending := rest }
    · rw [hrun, exec_eq_finish] at h
      cases h
      exact .command v i rest hdecode hpending rfl
    · rw [hraise] at h
      cases h
      exact .rejected v r rest hdecode hpending rfl
  · cases hwrite.symm.trans h
    exact .write slot v rest hmapped hne hpending rfl

/-- Every step treats the block in one of these ways (20_memory.md R62 to R65, 60_exceptions.md R212). -/
theorem step_blockStep {s t : State} (h : step s = .next t) : BlockStep s t := by
  obtain ⟨-, ⟨a, rest, hpending, haccess⟩ | ⟨rest, hpending, rfl⟩ | ⟨c, rest, -, rfl⟩ | ⟨-, hhost⟩⟩ := step_cases h
  · obtain ⟨-, houtside⟩ | ⟨_, -, -, hbuserr⟩ | ⟨off, slot, hoff, hslot, ⟨-, hread⟩ | ⟨v, hop, hwrite⟩⟩ :=
      perform_cases exec a { s with pending := rest }
    · cases houtside.symm.trans haccess
      exact .unchanged rfl
    · cases hbuserr.symm.trans haccess
      exact .unchanged rfl
    · cases hread.symm.trans haccess
      exact .unchanged (busRead_block slot _)
    · exact busWrite_blockStep hpending hoff hslot hop (hwrite.symm.trans haccess)
  · exact .reset rest hpending rfl
  · exact .unchanged (startGenerator_frame c _).1
  · exact .unchanged (hostStep_frame hhost).block

/-- STATUS and FLEN are read-only to the bus (20_memory.md R65). -/
theorem writeSlot_status_flen (b : Block) (v : Word) (slot : Slot) :
    (b.writeSlot v slot).status = b.status ∧ (b.writeSlot v slot).flen = b.flen := by
  cases slot with
  | reg r => cases r <;> exact ⟨rfl, rfl⟩
  | wbuf j => exact ⟨rfl, rfl⟩
  | l3buf j => exact ⟨rfl, rfl⟩
  | fbuf j => exact ⟨rfl, rfl⟩

/-- Settles O26: a step that is neither a reset nor a write to CMD leaves the block or writes a slot, and no slot's write
reaches STATUS. -/
theorem onlyCommandsAndResetWriteStatus : Obligations.OnlyCommandsAndResetWriteStatus := by
  unfold Obligations.OnlyCommandsAndResetWriteStatus
  intro s t h hne
  cases step_blockStep h with
  | unchanged hblock => exact absurd (congrArg Block.status hblock) hne
  | reset rest hpending => exact ⟨rest, .inl hpending⟩
  | command v i rest hdecode hpending => exact ⟨rest, .inr ⟨v, hpending⟩⟩
  | rejected v r rest hdecode hpending => exact ⟨rest, .inr ⟨v, hpending⟩⟩
  | write slot v rest hmapped hcmd hpending hblock =>
    exact absurd ((congrArg Block.status hblock).trans (writeSlot_status_flen s.block v slot).1) hne

/-- A command that changes FLEN is a MARSHAL that succeeded (10_state.md R31). -/
theorem finish_commandResult_flen {p : Params} {b : Block} {i : Instr}
    (h : (b.finish (commandResult p b i)).flen ≠ b.flen) :
    i = .marshal ∧ (b.finish (commandResult p b i)).status = okStatus := by
  cases hresult : commandResult p b i with
  | error e =>
    rw [hresult] at h
    exact absurd rfl h
  | ok b' =>
    rw [hresult] at h
    rw [finish_ok, complete_flen] at h
    exact ⟨by_contra fun hi => h (commandResult_flen hi hresult), rfl⟩

/-- Settles O27: a failed command records its error alone, and of the four results only MARSHAL's writes FLEN. -/
theorem onlyMarshalAndResetWriteFlen : Obligations.OnlyMarshalAndResetWriteFlen := by
  unfold Obligations.OnlyMarshalAndResetWriteFlen
  intro s t h hne
  cases step_blockStep h with
  | unchanged hblock => exact absurd (congrArg Block.flen hblock) hne
  | reset rest hpending => exact ⟨rest, .inl hpending⟩
  | command v i rest hdecode hpending hblock =>
    rw [hblock] at hne ⊢
    obtain ⟨rfl, hstatus⟩ := finish_commandResult_flen hne
    rw [eq_encode_of_decode hdecode] at hpending
    exact ⟨rest, .inr ⟨hpending, hstatus⟩⟩
  | rejected v r rest hdecode hpending hblock => exact absurd (congrArg Block.flen hblock) hne
  | write slot v rest hmapped hcmd hpending hblock =>
    exact absurd ((congrArg Block.flen hblock).trans (writeSlot_status_flen s.block v slot).2) hne

end Sys2Proof.Machine

namespace Sys2Proof.Machine

/-! ### What keeps the invariant of the block (10_state.md R22 to R36) -/

theorem lenOf_le (w : Word) : lenOf w ≤ w.toNat := Nat.mod_le _ _

section
variable {p : Params} {b : Block}

theorem inv_reset (p : Params) (epoch : Nat) : (Block.reset epoch).Inv p := by
  have hzero : (0x00000000 : Word).toNat < 2 ^ 16 := by decide
  have hbier : (0x0000AB37 : Word).toNat < 2 ^ 16 := by decide
  have hip : (0x00000800 : Word).toNat < 2 ^ 16 := by decide
  exact {
    memWf := List.Pairwise.nil
    memInBuffer := fun _ hc => absurd hc List.not_mem_nil
    frameStored := fun _ => ⟨fun h => absurd h Bool.false_ne_true, fun h => absurd h (Nat.not_lt_zero _)⟩
    flenBound := Nat.zero_le _
    wlenRes0 := hzero
    mcfgRes0 := Nat.two_pos
    dstHiRes0 := hzero
    srcHiRes0 := hzero
    etBierRes0 := hbier
    etIpRes0 := hip
    l3lenRes0 := hzero
    statusForm := statusForm_zero }

theorem inv_complete (h : b.Inv p) : b.complete.Inv p := { h with statusForm := statusForm_okStatus }

theorem inv_raise (h : b.Inv p) (e : CmdError) : (b.raise e).Inv p := { h with statusForm := statusForm_statusWord e }

theorem inv_setHdr (h : b.Inv p) (hdr : Header) : (b.setHdr hdr).Inv p := { h with }

theorem inv_setReg_wlen (h : b.Inv p) {w : Word} (hw : w.toNat < 2 ^ 16) : (b.setReg .wlen w).Inv p :=
  { h with wlenRes0 := hw }

/-- Below FBUF, a write inside a buffer keeps the stored frame. -/
theorem inv_store (h : b.Inv p) {a : Nat} {l : List Byte} (hbuffer : ∀ x, a ≤ x → x < a + l.length → InBuffer p x)
    (hbelow : a + l.length ≤ fbufBase) : (b.store a l).Inv p :=
  { h with
    memWf := wf_writeBytes h.memWf a l
    memInBuffer := fun c hc => (mem_writeBytes hc).elim (fun hx => hbuffer c.1 hx.1 hx.2) (h.memInBuffer c)
    frameStored := fun k => by
      rw [store_mem, byte?_writeBytes, if_neg (by omega)]
      exact h.frameStored k }

/-- Only the implemented bits of a bus write reach a register (20_memory.md R65). -/
theorem inv_writeReg (h : b.Inv p) (r : Reg) (v : Word) : (b.writeSlot v (.reg r)).Inv p := by
  have hlow (n : Nat) (hn : n ≤ 32) : ((v.extractLsb' 0 n).setWidth 32).toNat < 2 ^ n := by
    rw [BitVec.toNat_setWidth_of_le hn]
    exact (v.extractLsb' 0 n).isLt
  have hhalf := hlow 16 (by omega)
  cases r
  case wlen => exact { h with wlenRes0 := hhalf }
  case l3len => exact { h with l3lenRes0 := hhalf }
  case ethDstHi => exact { h with dstHiRes0 := hhalf }
  case ethSrcHi => exact { h with srcHiRes0 := hhalf }
  case etypeBier => exact { h with etBierRes0 := hhalf }
  case etypeIp => exact { h with etIpRes0 := hhalf }
  case mcfg => exact { h with mcfgRes0 := hlow 1 (by omega) }
  all_goals exact { h with }

/-- A bus write keeps the invariant: a word of WBUF or L3BUF lies in its buffer, below FBUF. -/
theorem inv_writeSlot (h : b.Inv p) {slot : Slot} (hmapped : SlotMapped p slot) (v : Word) :
    (b.writeSlot v slot).Inv p := by
  have hmax := l3Max_le p
  cases slot with
  | reg r => exact inv_writeReg h r v
  | wbuf j =>
    have hj : 4 * j < 44 := hmapped
    refine inv_store h (fun x hlo hhi => .inl ?_) ?_ <;>
      simp only [wbufBase, fbufBase, hdrBytes, be32_length] at * <;> omega
  | l3buf j =>
    have hj : 4 * j < p.l3Max := hmapped
    have hdvd := four_dvd_l3Max p
    refine inv_store h (fun x hlo hhi => .inr (.inl ?_)) ?_ <;>
      simp only [l3bufBase, fbufBase, be32_length] at * <;> omega
  | fbuf j => exact h

@[simp] theorem withFrame_mem (p : Params) (b : Block) (frame : List Byte) : (b.withFrame p frame).mem =
    Memory.writeBytes (Memory.forget b.mem fbufBase (fbufBase + p.frameMax)) fbufBase frame := rfl

@[simp] theorem withFrame_flen (p : Params) (b : Block) (frame : List Byte) :
    (b.withFrame p frame).flen = BitVec.ofNat 32 frame.length := rfl

/-- MARSHAL leaves the new frame's bytes stored, and above FRAME_MAX those stored before. -/
theorem byte?_withFrame_isSome (p : Params) (b : Block) (frame : List Byte) (k : Nat) :
    (Memory.byte? (b.withFrame p frame).mem (fbufBase + k)).isSome ↔
      k < frame.length ∨ p.frameMax ≤ k ∧ (Memory.byte? b.mem (fbufBase + k)).isSome := by
  rw [withFrame_mem, byte?_writeBytes, byte?_forget]
  by_cases hk : k < frame.length
  · simp [hk]
  · by_cases hmax : k < p.frameMax
    · simp [hk, hmax]
    · simp [hk, hmax, Nat.le_of_not_lt hmax]

/-- No byte is stored above the bound of the last frame (10_state.md R36). -/
theorem not_stored_of_frameMax_le (h : b.Inv p) {k : Nat} (hk : p.frameMax ≤ k) :
    ¬(Memory.byte? b.mem (fbufBase + k)).isSome := fun hstored =>
  absurd (((h.frameStored k).mp hstored).trans_le ((lenOf_le _).trans h.flenBound)) (Nat.not_lt.mpr hk)

/-- A frame that fits FBUF replaces the last one (41_marshal.md R173). -/
theorem inv_withFrame (h : b.Inv p) {frame : List Byte} (hfits : frame.length ≤ p.frameMax) :
    (b.withFrame p frame).Inv p := by
  have hbound : frame.length < 2 ^ 16 := by
    have hmax := l3Max_le p
    rw [Params.frameMax] at hfits
    omega
  have hflen : (b.withFrame p frame).flen.toNat = frame.length := by
    rw [withFrame_flen, BitVec.toNat_ofNat]
    omega
  have hlen : lenOf (b.withFrame p frame).flen = frame.length := by
    rw [lenOf, hflen]
    exact Nat.mod_eq_of_lt hbound
  refine { h with
    memWf := wf_writeBytes (wf_forget h.memWf _ _) _ _
    memInBuffer := fun c hc => (mem_writeBytes hc).elim ?_ fun hc => h.memInBuffer c (mem_forget.mp hc).1
    frameStored := fun k => ?_
    flenBound := hflen.trans_le hfits }
  · exact fun hx => .inr (.inr ⟨hx.1, hx.2.trans_le (Nat.add_le_add_left hfits _)⟩)
  · rw [byte?_withFrame_isSome, hlen]
    exact or_iff_left fun hk => not_stored_of_frameMax_le h hk.1 hk.2

/-- The result writes of a command keep the invariant. -/
theorem inv_commandResult (h : b.Inv p) {i : Instr} {b' : Block} (hresult : commandResult p b i = .ok b') :
    b'.Inv p := by
  cases i with
  | validate =>
    rw [(validateResult_ok hresult).2]
    exact h
  | encode =>
    obtain ⟨-, rfl⟩ := encodeResult_ok hresult
    have hstore : (b.store wbufBase (headerBytes b.hdrOf)).Inv p := by
      refine inv_store h (fun x hlo hhi => .inl ⟨hlo, ?_⟩) ?_
      · rwa [headerBytes_length] at hhi
      · rw [headerBytes_length]
        decide
    exact inv_setReg_wlen hstore (by decide)
  | decode =>
    obtain ⟨-, hdr, -, rfl⟩ := decodeResult_ok hresult
    exact inv_setHdr h hdr
  | marshal =>
    obtain ⟨hl3, frame, hframe, rfl⟩ := marshalResult_ok hresult
    have hlength := frameBytes_length_le hframe
    rw [bytes_length] at hlength
    exact inv_withFrame h (hlength.trans (Nat.add_le_add_left hl3 _))

/-- A command keeps the invariant, whether it completes or records an error. -/
theorem inv_finish_commandResult (h : b.Inv p) (i : Instr) : (b.finish (commandResult p b i)).Inv p := by
  cases hresult : commandResult p b i with
  | error e => exact inv_raise h e
  | ok b' => exact inv_complete (inv_commandResult h hresult)

end

/-- Settles O45: no byte is stored, FLEN and STATUS are 0. -/
theorem resetMeetsTheInvariant : Obligations.ResetMeetsTheInvariant := inv_reset defaultParams 0

/-- Settles O46: a step changes the block by a reset, a command, a rejected command word or a bus write, and each keeps
the invariant; the parameters stay. -/
theorem stepKeepsTheInvariant : Obligations.StepKeepsTheInvariant := by
  unfold Obligations.StepKeepsTheInvariant State.Inv
  intro s t hinv h
  rw [step_params h]
  cases step_blockStep h with
  | unchanged hblock => rwa [hblock]
  | reset rest hpending hblock =>
    rw [hblock]
    exact inv_reset _ _
  | command v i rest hdecode hpending hblock =>
    rw [hblock]
    exact inv_finish_commandResult hinv i
  | rejected v r rest hdecode hpending hblock =>
    rw [hblock]
    exact inv_raise hinv _
  | write slot v rest hmapped hcmd hpending hblock =>
    rw [hblock]
    exact inv_writeSlot hinv hmapped v

/-- The header that the registers hold after reset is in range (10_state.md R37). -/
theorem validateHeader_reset : validateHeader State.reset.block.hdrOf = .ok () := rfl

/-- VALIDATE completes on a header in range, writing STATUS only (40_codec.md R141). -/
theorem exec_validate_of_ok {s : State} (h : validateHeader s.block.hdrOf = .ok ()) :
    exec .validate s = .next (s.withStatus okStatus) := by
  have hresult : validateResult s.block = .ok s.block := by rw [validateResult, h]
  rw [exec_eq_finish, commandResult, hresult]
  rfl

/-- Settles O42: the registers one by one; every field register is 0, so VALIDATE finds the header in range. -/
theorem resetValues : Obligations.ResetValues := by
  unfold Obligations.ResetValues
  refine ⟨fun r hbier hip => ?_, rfl, rfl, fun _ => rfl, exec_validate_of_ok validateHeader_reset⟩
  cases r
  case etypeBier => exact absurd rfl hbier
  case etypeIp => exact absurd rfl hip
  all_goals rfl

end Sys2Proof.Machine

namespace Sys2Proof.Machine

/-! ### Transactions at the window's slots (20_memory.md R60 to R63) -/

section
variable {p : Params} {slot : Slot}

/-- Every slot is word aligned. -/
theorem slotOffset_mod (slot : Slot) : slotOffset slot % 4 = 0 := by
  cases slot with
  | reg r => exact offset_mod r
  | wbuf j => exact Nat.add_mul_mod_self_left wbufBase 4 j
  | l3buf j => exact Nat.add_mul_mod_self_left l3bufBase 4 j
  | fbuf j => exact Nat.add_mul_mod_self_left fbufBase 4 j

/-- Every slot lies in the window. -/
theorem slotOffset_lt_window (h : SlotMapped p slot) : slotOffset slot < 0x4000 := by
  have hmax := l3Max_le p
  cases slot with
  | reg r => exact (offset_lt r).trans (by decide)
  | wbuf j =>
    have hj : 4 * j < 44 := h
    simp only [slotOffset, wbufBase]
    omega
  | l3buf j =>
    have hj : 4 * j < p.l3Max := h
    simp only [slotOffset, l3bufBase]
    omega
  | fbuf j => exact fbuf_lt_window p h

theorem slotAt_reg (p : Params) (r : Reg) : p.slotAt r.offset = some (.reg r) := by
  unfold Params.slotAt
  rw [find_offset]

/-- The words of WBUF stand behind the registers. -/
theorem slotAt_wbuf (p : Params) {j : Nat} (h : 4 * j < hdrBytes) :
    p.slotAt (wbufBase + 4 * j) = some (.wbuf j) := by
  unfold Params.slotAt wbufBase
  rw [find_offset_buffer (by omega)]
  dsimp only
  rw [if_pos (by omega)]
  congr 2
  omega

/-- The words of L3BUF stand behind WBUF. -/
theorem slotAt_l3buf (p : Params) {j : Nat} (h : 4 * j < p.l3Max) :
    p.slotAt (l3bufBase + 4 * j) = some (.l3buf j) := by
  unfold Params.slotAt wbufBase l3bufBase hdrBytes
  rw [find_offset_buffer (by omega)]
  dsimp only
  rw [if_neg (by omega), if_pos (by omega)]
  congr 2
  omega

/-- The window holds each slot at its offset. -/
theorem slotAt_slotOffset (h : SlotMapped p slot) : p.slotAt (slotOffset slot) = some slot := by
  cases slot with
  | reg r => exact slotAt_reg p r
  | wbuf j => exact slotAt_wbuf p h
  | l3buf j => exact slotAt_l3buf p h
  | fbuf j => exact slotAt_fbuf p h

/-- A word access at a slot's offset reaches the slot. -/
theorem busSlot_slotOffset (h : SlotMapped p slot) : busSlot p 32 (slotOffset slot) = some slot := by
  have hform : legalForm 32 (slotOffset slot) = true := by simp [legalForm, slotOffset_mod]
  rw [busSlot, if_pos hform, slotAt_slotOffset h]

end

section
variable {s : State} {rest : List Input} {slot : Slot}

/-- A read at a slot's offset is performed as a read of the slot. -/
theorem step_read_slot (hmapped : SlotMapped s.params slot)
    (h : Issued s (wordAccess s.params (slotOffset slot) .read) rest) :
    step s = .next (busRead slot { s with pending := rest }) := by
  rw [step_access h]
  simp only [perform, wordAccess, offsetOf_base_add s.params (slotOffset_lt_window hmapped),
    busSlot_slotOffset hmapped]

/-- A read that takes no free value changes nothing but the replies (20_memory.md R64). -/
theorem step_read_slot_of_no_draw (hmapped : SlotMapped s.params slot)
    (hdraw : s.block.takesDraw s.params slot = false)
    (h : Issued s (wordAccess s.params (slotOffset slot) .read) rest) :
    step s = .next (s.answered rest (.data (s.block.readSlot s.params (Config.freeWord s.free) slot))) := by
  rw [step_read_slot hmapped h]
  exact congrArg _ (busRead_of_no_draw slot { s with pending := rest } hdraw)

/-- A write at a slot other than CMD writes the slot and is answered OK (20_memory.md R65). -/
theorem step_write_slot {v : Word} (hmapped : SlotMapped s.params slot) (hcmd : slot ≠ .reg .cmd)
    (h : Issued s (wordAccess s.params (slotOffset slot) (.write v)) rest) :
    step s = .next { s.answered rest .ok with block := s.block.writeSlot v slot } := by
  rw [step_access h]
  simp only [perform, wordAccess, offsetOf_base_add s.params (slotOffset_lt_window hmapped),
    busSlot_slotOffset hmapped, busWrite, if_neg hcmd]
  rfl

end

/-! ### The unmapped offsets (20_memory.md R61) -/

/-- The word-aligned offsets at which no register stands. -/
theorem find_offset_eq_none_iff {off : Nat} (haligned : off % 4 = 0) :
    Reg.all.find? (fun r => r.offset = off) = none ↔
      (0x0030 ≤ off ∧ off < 0x0040) ∨ (0x0074 ≤ off ∧ off < 0x0080) ∨ 0x00A0 ≤ off := by
  have hwords : ∀ k < 40, Reg.all.find? (fun r => r.offset = 4 * k) = none ↔
      (0x0030 ≤ 4 * k ∧ 4 * k < 0x0040) ∨ (0x0074 ≤ 4 * k ∧ 4 * k < 0x0080) ∨ 0x00A0 ≤ 4 * k := by decide
  by_cases hlow : off < 0x00A0
  · obtain ⟨k, rfl⟩ := Nat.dvd_of_mod_eq_zero haligned
    exact hwords k (by omega)
  · exact iff_of_true (find_offset_buffer (by omega)) (by omega)

/-- An offset is unmapped where neither a register nor a buffer is. -/
theorem slotAt_eq_none_iff (p : Params) (off : Nat) :
    p.slotAt off = none ↔ Reg.all.find? (fun r => r.offset = off) = none ∧
      ¬(wbufBase ≤ off ∧ off < wbufBase + hdrBytes) ∧ ¬(l3bufBase ≤ off ∧ off < l3bufBase + p.l3Max) ∧
      ¬(fbufBase ≤ off ∧ off < fbufBase + 4 * p.frameWords) := by
  unfold Params.slotAt
  split
  · simp [*]
  · split_ifs <;> simp [*]

/-- The word-aligned offsets that the table leaves unmapped. -/
theorem slotAt_eq_none_iff_unmapped (p : Params) {off : Nat} (haligned : off % 4 = 0) (hwindow : off < 0x4000) :
    p.slotAt off = none ↔ Unmapped p off := by
  have hmax := l3Max_le p
  rw [slotAt_eq_none_iff, find_offset_eq_none_iff haligned]
  unfold Unmapped wbufBase l3bufBase fbufBase hdrBytes
  omega

/-- Settles O33: an aligned offset holds nothing exactly in the gaps between the registers and the buffers, and each slot
of the window is found at its own offset. -/
theorem windowMapIsTheTable : Obligations.WindowMapIsTheTable := by
  unfold Obligations.WindowMapIsTheTable
  intro p
  refine ⟨fun off => slotAt_eq_none_iff_unmapped p, slotAt_reg p, fun j hj => slotAt_wbuf p ?_, fun j => slotAt_l3buf p,
    fun j => slotAt_fbuf p⟩
  exact Nat.mul_lt_mul_of_pos_left hj (by decide)

/-! ### What the block is left with -/

/-- Settles O32: the address has no offset in the window, and the reply is all that is recorded. -/
theorem accessOutsideTheWindowLeavesTheBlock : Obligations.AccessOutsideTheWindowLeavesTheBlock := by
  unfold Obligations.AccessOutsideTheWindowLeavesTheBlock
  intro s a rest hissued houtside
  refine ⟨s.answered rest .platform, ?_, rfl, rfl, rfl⟩
  rw [step_access hissued]
  simp only [perform, offsetOf_eq_none s.params houtside]
  rfl

/-- Settles O34: a read is refused, or outside the window, or performed as the read of a slot, and each leaves the
block. -/
theorem readsLeaveTheBlock : Obligations.ReadsLeaveTheBlock := by
  unfold Obligations.ReadsLeaveTheBlock
  intro s a rest hissued hread
  rw [step_access hissued]
  obtain ⟨-, houtside⟩ | ⟨_, -, -, hbuserr⟩ | ⟨_, slot, -, -, ⟨-, hslot⟩ | ⟨v, hwrite, -⟩⟩ :=
    perform_cases exec a { s with pending := rest }
  · exact ⟨_, houtside, rfl, rfl, rfl, rfl⟩
  · exact ⟨_, hbuserr, rfl, rfl, rfl, rfl⟩
  · exact ⟨_, hslot, busRead_block .., busRead_params .., busRead_gen .., busRead_pending ..⟩
  · cases hread.symm.trans hwrite

/-- Settles O50: with nothing pending the step is the host agent's, and all it issues are transactions. -/
theorem hostStepLeavesTheBlock : Obligations.HostStepLeavesTheBlock := by
  unfold Obligations.HostStepLeavesTheBlock
  intro s t hempty h
  have hhost : hostStep s = .next t := by
    obtain ⟨hmaster, -⟩ := step_cases h
    rw [← step_host hmaster hempty, h]
  obtain ⟨-, hblock, hreplies, lines, hpending⟩ := hostStep_frame hhost
  refine ⟨hblock, hreplies, fun i hi => mem_accesses (p := s.params) (lines := lines) ?_⟩
  rwa [hpending, hempty, List.nil_append] at hi

end Sys2Proof.Machine

namespace Sys2Proof.Machine

/-! ### Reads of registers and buffer words (20_memory.md R64, R67) -/

/-- Settles O35: no register read takes a free value. -/
theorem registerReadReturnsTheRegister : Obligations.RegisterReadReturnsTheRegister := by
  unfold Obligations.RegisterReadReturnsTheRegister
  exact fun s r rest hissued => ⟨step_read_slot_of_no_draw (slot := .reg r) trivial rfl hissued, reg_cmd s.block⟩

/-- The value of four bytes as a word is the bytes appended, the first the most significant (00_scope.md R8). -/
theorem ofNat_catBytes_four (b0 b1 b2 b3 : Byte) :
    BitVec.ofNat 32 (catBytes [b0, b1, b2, b3]) = b0 ++ b1 ++ b2 ++ b3 := by
  apply BitVec.eq_of_toNat_eq
  have h0 := b0.isLt
  have h1 := b1.isLt
  have h2 := b2.isLt
  have h3 := b3.isLt
  simp only [toNat_append_add, BitVec.toNat_ofNat, catBytes, List.foldl_cons, List.foldl_nil]
  omega

theorem loadWord_eq_laneWord (b : Block) (a : Nat) : b.loadWord a = laneWord b a := ofNat_catBytes_four _ _ _ _

section
variable {p : Params} {b : Block} {j : Nat}

/-- Every byte of the FBUF word is one of the frame's. -/
theorem isFrameByte_of_word_lt (hlen : 4 * j + 3 < lenOf b.flen) (hmax : 4 * j + 3 < p.frameMax) {i : Nat} (hi : i < 4) :
    b.isFrameByte p (4 * j + i) = true := by
  simp only [Block.isFrameByte, Bool.and_eq_true, decide_eq_true_eq]
  omega

theorem takesDraw_fbuf_of_word_lt (hlen : 4 * j + 3 < lenOf b.flen) (hmax : 4 * j + 3 < p.frameMax) :
    b.takesDraw p (.fbuf j) = false := by
  simp only [Block.takesDraw, Bool.not_eq_false', List.all_eq_true, List.mem_range]
  exact fun i => isFrameByte_of_word_lt hlen hmax

/-- An FBUF word that lies wholly inside the frame holds the frame's four bytes. -/
theorem fbufWord_eq_laneWord (draw : Word) (hlen : 4 * j + 3 < lenOf b.flen) (hmax : 4 * j + 3 < p.frameMax) :
    b.fbufWord p draw j = laneWord b (fbufBase + 4 * j) := by
  have hbytes : ((List.range 4).map fun i => b.fbufByte p draw (4 * j + i)) = b.bytes (fbufBase + 4 * j) 4 := by
    refine List.map_congr_left fun i hi => ?_
    have hi := List.mem_range.mp hi
    rw [fbufByte_of_lt draw (by omega) (by omega), Nat.add_assoc]
  rw [Block.fbufWord, hbytes]
  exact loadWord_eq_laneWord b _

end

/-- A word of WBUF or L3BUF at a window offset (10_state.md R34, R35). -/
def IsDataWord (p : Params) (off : Nat) : Prop :=
  (∃ j < 11, off = 0x0100 + 4 * j) ∨ (∃ j, 4 * j < p.l3Max ∧ off = 0x1000 + 4 * j)

theorem isDataWord_wbuf (p : Params) {j : Nat} (h : j < 11) : IsDataWord p (0x0100 + 4 * j) := .inl ⟨j, h, rfl⟩

theorem isDataWord_l3buf {p : Params} {j : Nat} (h : 4 * j < p.l3Max) : IsDataWord p (0x1000 + 4 * j) :=
  .inr ⟨j, h, rfl⟩

/-- What a bus transaction does at a word of WBUF or L3BUF: a read loads the word, a write stores it. -/
theorem isDataWord_slot {p : Params} {off : Nat} (h : IsDataWord p off) :
    ∃ slot, off = slotOffset slot ∧ SlotMapped p slot ∧ slot ≠ .reg .cmd ∧ ∀ b : Block,
      b.takesDraw p slot = false ∧ (∀ draw, b.readSlot p draw slot = b.loadWord off) ∧
      ∀ v, b.writeSlot v slot = b.storeWord off v := by
  obtain ⟨j, hj, rfl⟩ | ⟨j, hj, rfl⟩ := h
  · exact ⟨.wbuf j, rfl, Nat.mul_lt_mul_of_pos_left hj (by decide), nofun, fun _ => ⟨rfl, fun _ => rfl, fun _ => rfl⟩⟩
  · exact ⟨.l3buf j, rfl, hj, nofun, fun _ => ⟨rfl, fun _ => rfl, fun _ => rfl⟩⟩

/-- A read of a word of WBUF or L3BUF is answered with its four bytes. -/
theorem step_read_dataWord {s : State} {rest : List Input} {off : Nat} (hdata : IsDataWord s.params off)
    (h : Issued s (wordAccess s.params off .read) rest) :
    step s = .next (s.answered rest (.data (laneWord s.block off))) := by
  obtain ⟨slot, rfl, hmapped, -, hslot⟩ := isDataWord_slot hdata
  obtain ⟨hdraw, hread, -⟩ := hslot s.block
  rw [step_read_slot_of_no_draw hmapped hdraw h, hread, loadWord_eq_laneWord]

/-- Settles O36: the words of WBUF and L3BUF load their four bytes, and so does an FBUF word all of whose bytes are the
frame's. -/
theorem bufferReadIsBigEndian : Obligations.BufferReadIsBigEndian := by
  unfold Obligations.BufferReadIsBigEndian
  intro s rest j
  refine ⟨fun hj => step_read_dataWord (isDataWord_wbuf _ hj), fun hj => step_read_dataWord (isDataWord_l3buf hj),
    fun hlen hmax hissued => ?_⟩
  have hmapped : j < s.params.frameWords := by
    unfold Params.frameWords
    omega
  rw [step_read_slot_of_no_draw (slot := .fbuf j) hmapped (takesDraw_fbuf_of_word_lt hlen hmax) hissued,
    Block.readSlot, fbufWord_eq_laneWord _ hlen hmax, fbufBase]

/-! ### Writes of registers (20_memory.md R65) -/

/-- A register that a bus write leaves something in is not CMD. -/
theorem ne_cmd_of_written {r : Reg} {v w : Word} (h : r.written v = some w) : r ≠ .cmd := by
  rintro rfl
  cases h

section
variable {s : State} {rest : List Input} {r : Reg} {v : Word}

/-- A write leaves in the register what the register takes of the value, and touches nothing else. -/
theorem step_write_reg {w : Word} (hwritten : r.written v = some w)
    (h : Issued s (wordAccess s.params r.offset (.write v)) rest) :
    ∃ t, step s = .next t ∧ RegWritten s rest r w t := by
  have hcmd := ne_cmd_of_written hwritten
  have hwrite : s.block.writeSlot v (.reg r) = s.block.setReg r w := by rw [Block.writeSlot, hwritten]
  refine ⟨_, step_write_slot (slot := .reg r) trivial (fun hr => hcmd (Slot.reg.inj hr)) h, ?_⟩
  rw [hwrite]
  exact ⟨rfl, reg_setReg_self _ r w hcmd, fun q hq => reg_setReg_of_ne _ w hq, setReg_mem _ r w, setReg_epoch _ r w⟩

/-- A register other than CMD that takes nothing of the value ignores the write. -/
theorem step_write_reg_ignored (hcmd : r ≠ .cmd) (hwritten : r.written v = none)
    (h : Issued s (wordAccess s.params r.offset (.write v)) rest) : step s = .next (s.answered rest .ok) := by
  have hwrite : s.block.writeSlot v (.reg r) = s.block := by rw [Block.writeSlot, hwritten]
  rw [step_write_slot (slot := .reg r) trivial (fun hr => hcmd (Slot.reg.inj hr)) h, hwrite]
  rfl

end

/-- Keeping the low bits of a word, as slice and as mask. -/
theorem setWidth_extractLsb'_eq_and (v : Word) {n : Nat} (hn : n ≤ 32) :
    (v.extractLsb' 0 n).setWidth 32 = v &&& BitVec.ofNat 32 (2 ^ n - 1) := by
  apply BitVec.eq_of_toNat_eq
  have hmask : 2 ^ n - 1 < 2 ^ 32 :=
    (Nat.sub_one_lt (Nat.two_pow_pos n).ne').trans_le (Nat.pow_le_pow_right (by decide) hn)
  rw [BitVec.toNat_setWidth_of_le hn, BitVec.extractLsb'_toNat, Nat.shiftRight_zero, BitVec.toNat_and, BitVec.toNat_ofNat,
    Nat.mod_eq_of_lt hmask, Nat.and_two_pow_sub_one_eq_mod]

/-- The registers with 16 implemented bits. -/
theorem written_half {r : Reg} (h : r ∈ [Reg.wlen, .l3len, .ethDstHi, .ethSrcHi, .etypeBier, .etypeIp]) (v : Word) :
    r.written v = some (v &&& 0x0000FFFF) := by
  have hmask : (v.extractLsb' 0 16).setWidth 32 = v &&& 0x0000FFFF := setWidth_extractLsb'_eq_and v (by decide)
  rw [← hmask]
  simp only [List.mem_cons, List.not_mem_nil, or_false] at h
  rcases h with rfl | rfl | rfl | rfl | rfl | rfl <;> rfl

/-- The registers with 32 implemented bits. -/
theorem written_full {r : Reg} (h : r ∈ [Reg.ethDstLo, .ethSrcLo] ++ Reg.fields ++ Reg.bitstring) (v : Word) :
    r.written v = some v := by
  cases r <;> first | rfl | exact absurd h (by decide)

/-- Settles O38: what each register takes of the written value, by its number of implemented bits. -/
theorem registerWriteKeepsImplementedBits : Obligations.RegisterWriteKeepsImplementedBits := by
  unfold Obligations.RegisterWriteKeepsImplementedBits
  intro s r v rest hissued
  refine ⟨fun hr => step_write_reg (written_half hr v) hissued, ?_, fun hr => step_write_reg (written_full hr v) hissued,
    fun hr => ?_⟩
  · rintro rfl
    exact step_write_reg (congrArg some (setWidth_extractLsb'_eq_and v (n := 1) (by decide))) hissued
  · obtain ⟨hcmd, hwritten⟩ : r ≠ .cmd ∧ r.written v = none := by
      rcases List.mem_pair.mp hr with rfl | rfl <;> exact ⟨nofun, rfl⟩
    exact step_write_reg_ignored hcmd hwritten hissued

/-! ### Writes of buffer words (20_memory.md R65, R67, R70) -/

/-- Byte `i` of a word's four bytes is its lane `i`. -/
theorem getElem_be32 (v : Word) {i : Nat} (hi : i < (be32 v.toNat).length) :
    (be32 v.toNat)[i] = v.extractLsb' (24 - 8 * i) 8 := by
  have hword : BitVec.ofNat 32 (catBytes (be32 v.toNat)) = v := by
    rw [be32, catBytes_beBytes]
    exact BitVec.eq_of_toNat_eq ((BitVec.toNat_ofNat ..).trans (by omega))
  have hlane := catBytes_lane (be32 v.toNat) (be32_length _) (be32_length v.toNat ▸ hi)
  rw [hword, List.getD_eq_getElem _ _ hi] at hlane
  exact hlane.symm

/-- A write of a word of WBUF or L3BUF stores its four bytes and touches nothing else. -/
theorem step_write_dataWord {s : State} {rest : List Input} {off : Nat} {v : Word} (hdata : IsDataWord s.params off)
    (h : Issued s (wordAccess s.params off (.write v)) rest) :
    ∃ t, step s = .next t ∧ WordWritten s rest off v t := by
  obtain ⟨slot, rfl, hmapped, hcmd, hslot⟩ := isDataWord_slot hdata
  obtain ⟨-, -, hwrite⟩ := hslot s.block
  refine ⟨_, step_write_slot hmapped hcmd h, ?_⟩
  rw [hwrite, Block.storeWord]
  refine ⟨rfl, fun i hi => ?_, fun x hx => ?_, fun r => store_reg .., store_epoch ..⟩
  · have hbyte : i < (be32 v.toNat).length := by rwa [be32_length]
    rw [byte_store_of_mem _ _ _ _ hbyte, getElem_be32]
  · exact byte_store_of_not_mem _ _ _ _ (by rwa [be32_length])

/-- Settles O39: the words of WBUF and L3BUF take the four bytes, FBUF takes nothing. -/
theorem bufferWriteIsBigEndian : Obligations.BufferWriteIsBigEndian := by
  unfold Obligations.BufferWriteIsBigEndian
  intro s v rest j
  refine ⟨fun hj => step_write_dataWord (isDataWord_wbuf _ hj), fun hj => step_write_dataWord (isDataWord_l3buf hj),
    fun hj hissued => ?_⟩
  rw [step_write_slot (slot := .fbuf j) hj nofun hissued]
  rfl

/-- A word is its four lanes, the most significant first. -/
theorem append_lanes (v : Word) :
    v.extractLsb' 24 8 ++ v.extractLsb' 16 8 ++ v.extractLsb' 8 8 ++ v.extractLsb' 0 8 = v := by
  have high : v.extractLsb' 24 8 ++ v.extractLsb' 16 8 = v.extractLsb' 16 16 :=
    BitVec.extractLsb'_append_extractLsb'_eq_extractLsb' rfl
  have middle : v.extractLsb' 16 16 ++ v.extractLsb' 8 8 = v.extractLsb' 8 24 :=
    BitVec.extractLsb'_append_extractLsb'_eq_extractLsb' rfl
  have low : v.extractLsb' 8 24 ++ v.extractLsb' 0 8 = v.extractLsb' 0 32 :=
    BitVec.extractLsb'_append_extractLsb'_eq_extractLsb' rfl
  rw [high, middle, low, BitVec.extractLsb'_eq_self]

/-- Four bytes that are the lanes of a word read as the word. -/
theorem laneWord_of_lanes {b : Block} {a : Nat} {v : Word}
    (h : ∀ i < 4, b.byte (a + i) = v.extractLsb' (24 - 8 * i) 8) : laneWord b a = v := by
  have h0 := h 0 (by decide)
  rw [Nat.add_zero] at h0
  rw [laneWord, h0, h 1 (by decide), h 2 (by decide), h 3 (by decide)]
  exact append_lanes v

/-- Settles O40: the write leaves the word's four bytes, and the read is the next transaction. -/
theorem readReturnsTheWordJustWritten : Obligations.ReadReturnsTheWordJustWritten := by
  unfold Obligations.ReadReturnsTheWordJustWritten
  intro s v off rest hdata hissued
  obtain ⟨t, ht, hwritten⟩ := step_write_dataWord hdata hissued
  have hparams : t.params = s.params := by rw [hwritten.onlyBlock]; rfl
  have hnext : Issued t (wordAccess t.params off .read) rest := by
    refine ⟨hparams ▸ hissued.oneMaster, ?_⟩
    rw [hparams, hwritten.onlyBlock]
    rfl
  refine ⟨t, _, ht, step_read_dataWord (hparams ▸ hdata) hnext, ?_⟩
  rw [answered_replies, laneWord_of_lanes hwritten.written, hwritten.onlyBlock]
  rfl

end Sys2Proof.Machine

namespace Sys2Proof.Machine

/-! ### Which command may write which state (20_memory.md R74) -/

/-- The registers that a command's result writes. -/
def resultRegs : Instr → List Reg
  | .validate => []
  | .encode => [.wlen]
  | .decode => Reg.fields ++ Reg.bitstring
  | .marshal => [.flen]

/-- The buffer bytes that a command's result writes. -/
def ResultByte (p : Params) (i : Instr) (a : Nat) : Prop :=
  (i = .encode ∧ wbufBase ≤ a ∧ a < wbufBase + hdrBytes) ∨ (i = .marshal ∧ fbufBase ≤ a ∧ a < fbufBase + p.frameMax)

section
variable {p : Params} {b b' : Block} {i : Instr}

theorem withFrame_reg_of_ne (p : Params) (b : Block) (frame : List Byte) {r : Reg} (h : r ≠ .flen) :
    (b.withFrame p frame).reg r = b.reg r := by
  rw [Block.withFrame, reg_setReg_of_ne _ _ h, store_reg, forget_reg]

/-- A frame that fits FBUF leaves every byte outside FBUF. -/
theorem withFrame_byte_of_not_mem {frame : List Byte} (hfits : frame.length ≤ p.frameMax) {a : Nat}
    (ha : ¬(fbufBase ≤ a ∧ a < fbufBase + p.frameMax)) : (b.withFrame p frame).byte a = b.byte a := by
  rw [Block.withFrame, byte_congr (setReg_mem ..) (setReg_epoch ..), byte_store_of_not_mem _ _ _ _ (by omega),
    byte_forget_of_not_mem _ _ _ _ ha]

/-- The frame that a successful MARSHAL builds fits FBUF (41_marshal.md R173). -/
theorem marshalResult_ok_fits (h : marshalResult p b = .ok b') :
    ∃ frame, frame.length ≤ p.frameMax ∧ b' = b.withFrame p frame := by
  obtain ⟨hl3, frame, hframe, hb'⟩ := marshalResult_ok h
  have hlength := frameBytes_length_le hframe
  rw [bytes_length] at hlength
  exact ⟨frame, hlength.trans (Nat.add_le_add_left hl3 _), hb'⟩

theorem setHdr_reg_of_not_mem (b : Block) (h : Header) {r : Reg} (hr : r ∉ Reg.fields ++ Reg.bitstring) :
    (b.setHdr h).reg r = b.reg r := by
  have hall := mem_regAll r
  rw [Reg.all, List.append_assoc, List.mem_append] at hall
  exact setHdr_reg_control b h (hall.resolve_right hr)

theorem commandResult_epoch (h : commandResult p b i = .ok b') : b'.epoch = b.epoch := by
  cases i with
  | validate => rw [(validateResult_ok h).2]
  | encode =>
    obtain ⟨-, rfl⟩ := encodeResult_ok h
    rw [setReg_epoch, store_epoch]
  | decode =>
    obtain ⟨-, hdr, -, rfl⟩ := decodeResult_ok h
    exact setHdr_epoch b hdr
  | marshal =>
    obtain ⟨frame, -, rfl⟩ := marshalResult_ok_fits h
    rw [Block.withFrame, setReg_epoch, store_epoch, forget_epoch]

theorem commandResult_reg (h : commandResult p b i = .ok b') {r : Reg} (hr : r ∉ resultRegs i) :
    b'.reg r = b.reg r := by
  cases i with
  | validate => rw [(validateResult_ok h).2]
  | encode =>
    obtain ⟨-, rfl⟩ := encodeResult_ok h
    rw [reg_setReg_of_ne _ _ (List.ne_of_not_mem_cons hr), store_reg]
  | decode =>
    obtain ⟨-, hdr, -, rfl⟩ := decodeResult_ok h
    exact setHdr_reg_of_not_mem b hdr hr
  | marshal =>
    obtain ⟨frame, -, rfl⟩ := marshalResult_ok_fits h
    exact withFrame_reg_of_ne p b frame (List.ne_of_not_mem_cons hr)

theorem commandResult_byte (h : commandResult p b i = .ok b') {a : Nat} (ha : ¬ResultByte p i a) :
    b'.byte a = b.byte a := by
  cases i with
  | validate => rw [(validateResult_ok h).2]
  | encode =>
    obtain ⟨-, rfl⟩ := encodeResult_ok h
    rw [byte_congr (setReg_mem ..) (setReg_epoch ..)]
    refine byte_store_of_not_mem _ _ _ _ fun hmem => ha (.inl ⟨rfl, ?_⟩)
    rwa [headerBytes_length] at hmem
  | decode =>
    obtain ⟨-, hdr, -, rfl⟩ := decodeResult_ok h
    exact byte_congr rfl rfl a
  | marshal =>
    obtain ⟨frame, hfits, rfl⟩ := marshalResult_ok_fits h
    exact withFrame_byte_of_not_mem hfits fun hmem => ha (.inr ⟨rfl, hmem⟩)

/-- What a command leaves: beside STATUS it writes its result at most, and where it fails not even that. -/
structure CommandFrame (p : Params) (i : Instr) (b b' : Block) : Prop where
  epoch : b'.epoch = b.epoch
  reg   : ∀ r, r ≠ .status → r ∉ resultRegs i → b'.reg r = b.reg r
  byte  : ∀ a, ¬ResultByte p i a → b'.byte a = b.byte a

theorem commandFrame_finish (p : Params) (i : Instr) (b : Block) :
    CommandFrame p i b (b.finish (commandResult p b i)) := by
  cases hresult : commandResult p b i with
  | error e => exact ⟨rfl, fun r hr _ => raise_reg_of_ne b e hr, fun a _ => byte_congr rfl rfl a⟩
  | ok b' =>
    rw [finish_ok]
    exact ⟨(complete_epoch b').trans (commandResult_epoch hresult),
      fun r hr hresultReg => (complete_reg_of_ne b' hr).trans (commandResult_reg hresult hresultReg),
      fun a ha => (byte_congr rfl rfl a).trans (commandResult_byte hresult ha)⟩

end

/-- No command's result writes the registers that configure the block, nor CMD. -/
theorem not_mem_resultRegs_of_config {r : Reg}
    (h : r ∈ [Reg.cmd, .mcfg, .ethDstHi, .ethDstLo, .ethSrcHi, .ethSrcLo, .etypeBier, .etypeIp, .l3len]) (i : Instr) :
    r ≠ .status ∧ r ∉ resultRegs i := by
  cases i <;> revert r <;> decide

/-- A register of the header is written by DECODE alone. -/
theorem not_mem_resultRegs_of_header {r : Reg} (h : r ∈ Reg.fields ++ Reg.bitstring) {i : Instr} (hi : i ≠ .decode) :
    r ≠ .status ∧ r ∉ resultRegs i := by
  cases i with
  | decode => exact absurd rfl hi
  | validate => revert r; decide
  | encode => revert r; decide
  | marshal => revert r; decide

theorem wlen_not_mem_resultRegs {i : Instr} (hi : i ≠ .encode) : Reg.wlen ∉ resultRegs i := by
  cases i with
  | encode => exact absurd rfl hi
  | validate => decide
  | decode => decide
  | marshal => decide

theorem flen_not_mem_resultRegs {i : Instr} (hi : i ≠ .marshal) : Reg.flen ∉ resultRegs i := by
  cases i with
  | marshal => exact absurd rfl hi
  | validate => decide
  | encode => decide
  | decode => decide

/-- Settles O21: a command leaves all but STATUS and its result, and the rule's lists are the results' registers and
bytes. -/
theorem commandsWriteOnlyTheirResults : Obligations.CommandsWriteOnlyTheirResults := by
  unfold Obligations.CommandsWriteOnlyTheirResults
  intro i s t h
  rw [exec_eq_finish] at h
  cases h
  obtain ⟨hepoch, hreg, hbyte⟩ := commandFrame_finish s.params i s.block
  refine ⟨rfl, hepoch, fun r hr => ?_, fun hi => ?_, fun hi => ?_, fun hi r hr => ?_, fun a hencode hmarshal => ?_⟩
  · obtain ⟨hstatus, hresult⟩ := not_mem_resultRegs_of_config hr i
    exact hreg r hstatus hresult
  · exact hreg .wlen nofun (wlen_not_mem_resultRegs hi)
  · exact hreg .flen nofun (flen_not_mem_resultRegs hi)
  · obtain ⟨hstatus, hresult⟩ := not_mem_resultRegs_of_header hr hi
    exact hreg r hstatus hresult
  · exact hbyte a fun hmem => hmem.elim hencode hmarshal

end Sys2Proof.Machine

namespace Sys2Proof

/-! ### The command word's table (30_encoding.md R100 to R102) -/

theorem decode_encode (i : Instr) : decode (encode i) = .ok i := by
  cases i <;> rfl

/-- The word of each command is the only one that decodes to it. -/
theorem decode_eq_ok_iff {v : Word} {i : Instr} : decode v = .ok i ↔ v = encode i :=
  ⟨eq_encode_of_decode, fun h => h ▸ decode_encode i⟩

/-- A rejected word carries its bits [3:0] (30_encoding.md R101). -/
theorem opc_of_decode_error {v : Word} {r : Reject} (h : decode v = .error r) : r.opc = v.extractLsb' 0 4 := by
  unfold decode at h
  dsimp only at h
  split_ifs at h <;> cases h <;> rfl

/-- A word that is no command's is rejected. -/
theorem decode_error_of_forall_ne {v : Word} (h : ∀ i, v ≠ encode i) : ∃ r, decode v = .error r := by
  cases hdecode : decode v with
  | ok i => exact absurd (eq_encode_of_decode hdecode) (h i)
  | error r => exact ⟨r, rfl⟩

/-- Settles O1: a word decodes to a command exactly when it is the command's, and a rejected one carries its bits
[3:0]. -/
theorem exactlyFourWordsAreCommands : Obligations.ExactlyFourWordsAreCommands := by
  unfold Obligations.ExactlyFourWordsAreCommands
  refine fun v => ⟨decode_eq_ok_iff, decode_eq_ok_iff, decode_eq_ok_iff, decode_eq_ok_iff, fun h1 h2 h3 h4 => ?_⟩
  obtain ⟨r, hr⟩ := decode_error_of_forall_ne (v := v) fun
    | .validate => h1
    | .encode => h2
    | .decode => h3
    | .marshal => h4
  exact ⟨r, hr, opc_of_decode_error hr⟩

/-- Settles O2: each word of the table is the encoder's, bit by bit. -/
theorem tableWordsDecode : Obligations.TableWordsDecode := by
  unfold Obligations.TableWordsDecode
  exact ⟨decode_encode .validate, decode_encode .encode, decode_encode .decode, decode_encode .marshal,
    fun i _ => decode_encode i⟩

/-- The STATUS word of IllegalCommand (60_exceptions.md R203): ERRCODE 3, ERRINFO the word's bits [3:0]. -/
theorem statusWord_illegalCommand (v : Word) :
    (CmdError.illegalCommand (v.extractLsb' 0 4)).statusWord = (0x00000033 : Word) ||| ((v &&& 0x0000000F) <<< 8) := by
  have hopc : v &&& 0x0000000F = (v.extractLsb' 0 4).setWidth 32 :=
    (Machine.setWidth_extractLsb'_eq_and v (n := 4) (by decide)).symm
  have hlow : (0x00000033 : Word).toNat = 0x33 := rfl
  have hlt := (v.extractLsb' 0 4).isLt
  apply BitVec.eq_of_toNat_eq
  rw [hopc, BitVec.or_comm, BitVec.toNat_or, BitVec.toNat_shiftLeft, BitVec.toNat_setWidth_of_le (by decide), hlow,
    Nat.mod_eq_of_lt (by rw [Nat.shiftLeft_eq]; omega), ← Nat.shiftLeft_add_eq_or_of_lt (by decide), statusWord_toNat,
    Nat.shiftLeft_eq]
  have hcode : (CmdError.illegalCommand (v.extractLsb' 0 4)).code.toNat = 3 := rfl
  have hinfo : (CmdError.illegalCommand (v.extractLsb' 0 4)).info.toNat = (v.extractLsb' 0 4).toNat :=
    BitVec.toNat_setWidth_of_le (by decide)
  rw [hcode, hinfo]
  omega

end Sys2Proof

namespace Sys2Proof.Machine

/-- A write to CMD runs the command that its word encodes, and is answered OK after it (20_memory.md R75). -/
theorem step_write_cmd {s : State} {v : Word} {rest : List Input}
    (h : Issued s (wordAccess s.params 0x0000 (.write v)) rest) :
    step s = mapNext (fun t => t.reply .ok) (command exec v { s with pending := rest }) := by
  have hslot : busSlot s.params 32 0x0000 = some (.reg .cmd) := busSlot_slotOffset (slot := .reg .cmd) trivial
  rw [step_access h]
  simp only [perform, wordAccess, offsetOf_base_add s.params (by decide : 0x0000 < 0x4000), hslot, busWrite, if_true]

theorem command_of_decode_ok {v : Word} {i : Instr} (h : decode v = .ok i) (s : State) :
    command exec v s = exec i s := by
  rw [command, h]

theorem command_of_decode_error {v : Word} {r : Reject} (h : decode v = .error r) (s : State) :
    command exec v s = .next (s.withStatus (CmdError.illegalCommand r.opc).statusWord) := by
  rw [command, h]
  rfl

theorem decode_of_decodeTableWord {w : Nat} {i : Instr} (h : decodeTableWord 32 w = some i) :
    decode (BitVec.ofNat 32 (w % 2 ^ 32)) = .ok i := by
  unfold decodeTableWord at h
  dsimp only at h
  split at h
  · split at h
    · cases h
      assumption
    · cases h
  · cases h

/-- Settles O28: the word of a command reaches `exec`, also where `withFetchWord` places it. -/
theorem stepRunsTheDecodedCommand : Obligations.StepRunsTheDecodedCommand := by
  unfold Obligations.StepRunsTheDecodedCommand
  refine ⟨fun s v rest i hissued hdecode => ?_, fun s w i hmaster hdecode => ?_⟩
  · rw [step_write_cmd hissued, command_of_decode_ok hdecode]
  · have hissued : Issued (s.withFetchWord 32 w)
        (wordAccess s.params 0x0000 (.write (BitVec.ofNat 32 (w % 2 ^ 32)))) s.pending := ⟨hmaster, rfl⟩
    rw [step_write_cmd hissued, command_of_decode_ok (decode_of_decodeTableWord hdecode)]
    rfl

/-- Settles O29: the word is no command's, so it is rejected with its bits [3:0]. -/
theorem illegalWordRaisesIllegalCommand : Obligations.IllegalWordRaisesIllegalCommand := by
  unfold Obligations.IllegalWordRaisesIllegalCommand
  intro s v rest hissued hillegal
  have hne (i : Instr) : v ≠ encode i := by
    rintro rfl
    revert hillegal
    cases i <;> decide
  obtain ⟨r, hr⟩ := decode_error_of_forall_ne hne
  rw [step_write_cmd hissued, command_of_decode_error hr, opc_of_decode_error hr, statusWord_illegalCommand]
  rfl

end Sys2Proof.Machine

namespace Sys2Proof

/-! ### Bit slices and stretches of bytes -/

theorem slice_eq_div_mod (v hi lo : Nat) : slice v hi lo = v / 2 ^ lo % 2 ^ (hi - lo + 1) := by
  rw [slice, Nat.shiftRight_eq_div_pow]

/-- A slice of a slice is a slice of the whole. -/
theorem slice_slice (v : Nat) {hi lo hi' lo' : Nat} (hle : lo' ≤ hi') (hin : hi' ≤ hi - lo) :
    slice (slice v hi lo) hi' lo' = slice v (lo + hi') (lo + lo') := by
  apply Nat.eq_of_testBit_eq
  intro i
  have hwidth : lo + hi' - (lo + lo') = hi' - lo' := by omega
  simp only [slice, Nat.testBit_mod_two_pow, Nat.testBit_shiftRight, hwidth, Nat.add_assoc]
  by_cases hbit : i < hi' - lo' + 1
  · have hinner : lo' + i < hi - lo + 1 := by omega
    simp [hbit, hinner]
  · simp [hbit]

theorem two_pow_eight_mul (n : Nat) : 2 ^ (8 * n) = 256 ^ n := Nat.pow_mul 2 8 n

/-- A stretch of a byte sequence is a stretch of its value. -/
theorem catBytes_infix (l m r : List Byte) :
    catBytes (l ++ m ++ r) / 2 ^ (8 * r.length) % 2 ^ (8 * m.length) = catBytes m := by
  rw [two_pow_eight_mul, two_pow_eight_mul, catBytes_append, Nat.add_comm, Nat.add_mul_div_right _ _ (by positivity),
    Nat.div_eq_of_lt (catBytes_lt r), Nat.zero_add, catBytes_append, Nat.add_comm, Nat.add_mul_mod_self_right,
    Nat.mod_eq_of_lt (catBytes_lt m)]

theorem catBytes_be32 (v : Nat) : catBytes (be32 v) = v % 2 ^ 32 := catBytes_beBytes 4 v

theorem catBytes_be256 (v : Nat) : catBytes (be256 v) = v % 2 ^ 256 := catBytes_beBytes 32 v

/-- Two byte sequences of one length with one value are one sequence. -/
theorem catBytes_inj {l m : List Byte} (hlength : l.length = m.length) (h : catBytes l = catBytes m) : l = m := by
  rw [← beBytes_catBytes l, ← beBytes_catBytes m, hlength, h]

/-! ### The header as one value (30_encoding.md R91) -/

theorem Field.mem_all (f : Field) : f ∈ Field.all := by cases f <;> decide

theorem Field.width_pos (f : Field) : 0 < f.width := by cases f <;> decide

/-- Two headers with the same fields are the same header. -/
theorem Header.ext_field {g h : Header} (hfield : ∀ f, g.field f = h.field f) : g = h := by
  cases g
  cases h
  rw [Header.mk.injEq]
  exact ⟨hfield .biftId, hfield .tc, hfield .s, hfield .ttl, hfield .nibble, hfield .version, hfield .bsl,
    hfield .entropy, hfield .oam, hfield .rsv, hfield .dscp, hfield .proto, hfield .bfirId, hfield .bitstring⟩

/-- The header bits of a field in a 352-bit value (30_encoding.md R91). -/
def Field.bitsIn (f : Field) (v : Nat) : Nat := slice v (f.headerLo + f.width - 1) f.headerLo

theorem Field.bitsIn_eq (f : Field) (v : Nat) : f.bitsIn v = v / 2 ^ f.headerLo % 2 ^ f.width := by
  have hwidth := f.width_pos
  rw [Field.bitsIn, slice_eq_div_mod]
  congr 2
  omega

theorem Field.bitsIn_lt (f : Field) (v : Nat) : f.bitsIn v < 2 ^ f.width :=
  f.bitsIn_eq v ▸ Nat.mod_lt _ (Nat.two_pow_pos _)

/-- The number of bits of a sequence of fields. -/
def fieldBits (fs : List Field) : Nat := (fs.map Field.width).sum

@[simp] theorem fieldBits_nil : fieldBits [] = 0 := rfl

@[simp] theorem fieldBits_cons (f : Field) (fs : List Field) : fieldBits (f :: fs) = f.width + fieldBits fs := rfl

@[simp] theorem fieldBits_append (fs gs : List Field) : fieldBits (fs ++ gs) = fieldBits fs + fieldBits gs := by
  simp [fieldBits]

/-- The fields stand one right above the other, the last at bit 0. -/
def Contiguous : List Field → Prop
  | [] => True
  | f :: fs => f.headerLo = fieldBits fs ∧ Contiguous fs

/-- The table of 30_encoding.md R91 leaves no gap: each field stands right above those after it. -/
theorem contiguous_all : Contiguous Field.all := by
  simp only [Field.all, Contiguous, and_true]
  decide

theorem headerLo_of_contiguous {fs gs : List Field} {f : Field} (h : Contiguous (fs ++ f :: gs)) :
    f.headerLo = fieldBits gs := by
  induction fs with
  | nil => exact h.1
  | cons _ fs ih => exact ih h.2

/-- A field lies inside any contiguous sequence that has it. -/
theorem headerHi_le_fieldBits {fs : List Field} (h : Contiguous fs) {f : Field} (hf : f ∈ fs) :
    f.headerLo + f.width ≤ fieldBits fs := by
  obtain ⟨gs, rest, rfl⟩ := List.append_of_mem hf
  rw [headerLo_of_contiguous h, fieldBits_append, fieldBits_cons]
  omega

/-- Contiguous fields partition their bits. -/
theorem existsUnique_field_of_bit {fs : List Field} (h : Contiguous fs) {n : Nat} (hn : n < fieldBits fs) :
    ∃! f, f ∈ fs ∧ f.headerLo ≤ n ∧ n < f.headerLo + f.width := by
  induction fs with
  | nil => exact absurd hn (Nat.not_lt_zero n)
  | cons g fs ih =>
    obtain ⟨hlo, hfs⟩ := h
    rw [fieldBits_cons] at hn
    by_cases hbelow : n < fieldBits fs
    · obtain ⟨f, ⟨hmem, hbit⟩, hunique⟩ := ih hfs hbelow
      refine ⟨f, ⟨List.mem_cons_of_mem g hmem, hbit⟩, ?_⟩
      rintro f' ⟨hmem', hlo', hhi'⟩
      rcases List.mem_cons.mp hmem' with rfl | hmem'
      · omega
      · exact hunique f' ⟨hmem', hlo', hhi'⟩
    · refine ⟨g, ⟨List.mem_cons_self, by omega⟩, ?_⟩
      rintro f' ⟨hmem', hlo', hhi'⟩
      rcases List.mem_cons.mp hmem' with rfl | hmem'
      · rfl
      · have := headerHi_le_fieldBits hfs hmem'
        omega

/-- The fields of a header as one value, the first field most significant. -/
def packFields (h : Header) : List Field → Nat
  | [] => 0
  | f :: fs => h.field f * 2 ^ fieldBits fs + packFields h fs

@[simp] theorem packFields_nil (h : Header) : packFields h [] = 0 := rfl

theorem packFields_append (h : Header) (fs gs : List Field) :
    packFields h (fs ++ gs) = packFields h fs * 2 ^ fieldBits gs + packFields h gs := by
  induction fs with
  | nil => simp [packFields]
  | cons f fs ih =>
    rw [List.cons_append, packFields, packFields, ih, fieldBits_append, Nat.pow_add]
    ring

end Sys2Proof

namespace Sys2Proof.Machine

theorem packFields_lt {h : Header} (hrange : InRange h) (fs : List Field) : packFields h fs < 2 ^ fieldBits fs := by
  induction fs with
  | nil => exact Nat.one_pos
  | cons f fs ih =>
    have hf : (h.field f + 1) * 2 ^ fieldBits fs ≤ 2 ^ f.width * 2 ^ fieldBits fs :=
      Nat.mul_le_mul_right _ (hrange f)
    rw [packFields, fieldBits_cons, Nat.pow_add]
    rw [Nat.succ_mul] at hf
    omega

/-- In range, the fields do not overlap. -/
theorem packFields_cons_eq_or {h : Header} (hrange : InRange h) (f : Field) (fs : List Field) :
    packFields h (f :: fs) = h.field f <<< fieldBits fs ||| packFields h fs := by
  rw [← Nat.shiftLeft_add_eq_or_of_lt (packFields_lt hrange fs), Nat.shiftLeft_eq, packFields]

/-- Each field of a header in range stands in its header bits. -/
theorem bitsIn_packFields {h : Header} (hrange : InRange h) (f : Field) :
    f.bitsIn (packFields h Field.all) = h.field f := by
  obtain ⟨fs, gs, hall⟩ := List.append_of_mem f.mem_all
  have hlo : f.headerLo = fieldBits gs := headerLo_of_contiguous (hall ▸ contiguous_all)
  rw [f.bitsIn_eq, hall, packFields_append, packFields, fieldBits_cons, hlo, Nat.pow_add, ← Nat.mul_assoc,
    ← Nat.add_assoc, ← Nat.add_mul, Nat.add_comm, Nat.add_mul_div_right _ _ (Nat.two_pow_pos _),
    Nat.div_eq_of_lt (packFields_lt hrange gs), Nat.zero_add, Nat.add_comm, Nat.add_mul_mod_self_right,
    Nat.mod_eq_of_lt (hrange f)]

/-- A value is made of the header bits of its fields. -/
theorem packFields_of_bitsIn {h : Header} {v : Nat} (hbits : ∀ f, h.field f = f.bitsIn v) {fs : List Field}
    (hfs : Contiguous fs) : packFields h fs = v % 2 ^ fieldBits fs := by
  induction fs with
  | nil => exact (Nat.mod_one v).symm
  | cons f fs ih =>
    obtain ⟨hlo, hfs⟩ := hfs
    rw [packFields, ih hfs, hbits, f.bitsIn_eq, hlo, fieldBits_cons, Nat.add_comm f.width, Nat.pow_add, Nat.mod_mul]
    ring

/-- The fields of word 0 of the wire header (30_encoding.md R92). -/
def word0Fields : List Field := [.biftId, .tc, .s, .ttl]

/-- The fields of word 1 (30_encoding.md R93). -/
def word1Fields : List Field := [.nibble, .version, .bsl, .entropy]

/-- The fields of word 2 (30_encoding.md R94). -/
def word2Fields : List Field := [.oam, .rsv, .dscp, .proto, .bfirId]

theorem fieldAll_eq_words : Field.all = word0Fields ++ word1Fields ++ word2Fields ++ [.bitstring] := rfl

/-! ### The encoded header (30_encoding.md R92 to R96) -/

/-- validate accepts exactly the headers in range (40_codec.md R132). -/
theorem validateHeader_eq_ok_iff {h : Header} : validateHeader h = .ok () ↔ InRange h := by
  unfold validateHeader
  split
  · rename_i f hfind
    have hf : 2 ^ f.width ≤ h.field f := by simpa using List.find?_some hfind
    exact iff_of_false nofun fun hrange => absurd (hrange f) (Nat.not_lt.mpr hf)
  · rename_i hnone
    refine iff_of_true rfl fun f => ?_
    simpa using List.find?_eq_none.mp hnone f f.mem_all

theorem encodeHeader_of_inRange {h : Header} (hrange : InRange h) : encodeHeader h = .ok (headerBytes h) := by
  rw [encodeHeader, validateHeader_eq_ok_iff.mpr hrange]

section
variable {h : Header} (hrange : InRange h)
include hrange

theorem headerWord0_eq_packFields : headerWord0 h = packFields h word0Fields := by
  simp only [word0Fields, packFields_cons_eq_or hrange, headerWord0, Nat.or_assoc, packFields_nil,
    fieldBits_nil, Nat.or_zero, Nat.shiftLeft_zero]
  rfl

theorem headerWord1_eq_packFields : headerWord1 h = packFields h word1Fields := by
  simp only [word1Fields, packFields_cons_eq_or hrange, headerWord1, Nat.or_assoc, packFields_nil,
    fieldBits_nil, Nat.or_zero, Nat.shiftLeft_zero]
  rfl

theorem headerWord2_eq_packFields : headerWord2 h = packFields h word2Fields := by
  simp only [word2Fields, packFields_cons_eq_or hrange, headerWord2, Nat.or_assoc, packFields_nil,
    fieldBits_nil, Nat.or_zero, Nat.shiftLeft_zero]
  rfl

theorem headerWord0_lt : headerWord0 h < 2 ^ 32 :=
  (headerWord0_eq_packFields hrange).trans_lt (packFields_lt hrange _)

theorem headerWord1_lt : headerWord1 h < 2 ^ 32 :=
  (headerWord1_eq_packFields hrange).trans_lt (packFields_lt hrange _)

theorem headerWord2_lt : headerWord2 h < 2 ^ 32 :=
  (headerWord2_eq_packFields hrange).trans_lt (packFields_lt hrange _)

/-- The value of the wire bytes holds the fields in index order (30_encoding.md R91, R96). -/
theorem catBytes_headerBytes : catBytes (headerBytes h) = packFields h Field.all := by
  have hbitstring : h.bitstring < 2 ^ 256 := hrange .bitstring
  rw [fieldAll_eq_words, packFields_append, packFields_append, packFields_append, ← headerWord0_eq_packFields hrange,
    ← headerWord1_eq_packFields hrange, ← headerWord2_eq_packFields hrange]
  simp only [headerBytes, catBytes_append, catBytes_be32, catBytes_be256, be32_length, be256_length,
    Nat.mod_eq_of_lt (headerWord0_lt hrange), Nat.mod_eq_of_lt (headerWord1_lt hrange),
    Nat.mod_eq_of_lt (headerWord2_lt hrange), Nat.mod_eq_of_lt hbitstring]
  simp [packFields, fieldBits, word1Fields, word2Fields, Field.width, Header.field]

end

/-- Settles O8: the value of the wire bytes holds each field in its header bits. -/
theorem encodedFieldsStandInTheirHeaderBits : Obligations.EncodedFieldsStandInTheirHeaderBits := by
  unfold Obligations.EncodedFieldsStandInTheirHeaderBits
  refine fun h hrange => ⟨headerBytes h, encodeHeader_of_inRange hrange, headerBytes_length h, fun f => ?_⟩
  rw [catBytes_headerBytes hrange]
  exact bitsIn_packFields hrange f

/-! ### The header of 44 bytes (40_codec.md R134) -/

section
variable {bytes : List Byte} (hlength : bytes.length = 44)
include hlength

/-- Four wire bytes are 32 of the header bits. -/
theorem wordAt_eq_slice {i : Nat} (hi : i ≤ 40) :
    wordAt bytes i = slice (catBytes bytes) (8 * (40 - i) + 31) (8 * (40 - i)) := by
  have hsplit : bytes.take i ++ (bytes.drop i).take 4 ++ bytes.drop (i + 4) = bytes := by
    rw [List.append_assoc, ← List.drop_drop, List.take_append_drop, List.take_append_drop]
  have hmiddle : ((bytes.drop i).take 4).length = 4 := by
    rw [List.length_take, List.length_drop]
    omega
  have hright : (bytes.drop (i + 4)).length = 40 - i := by
    rw [List.length_drop]
    omega
  have hvalue := catBytes_infix (bytes.take i) ((bytes.drop i).take 4) (bytes.drop (i + 4))
  rw [hsplit, hmiddle, hright] at hvalue
  rw [wordAt, ← hvalue, slice_eq_div_mod, Nat.add_sub_cancel_left]

/-- The last 32 wire bytes are the low 256 header bits. -/
theorem catBytes_drop_eq_slice : catBytes (bytes.drop 12) = slice (catBytes bytes) 255 0 := by
  have hright : (bytes.drop 12).length = 32 := by rw [List.length_drop, hlength]
  have hvalue := catBytes_infix (bytes.take 12) (bytes.drop 12) []
  rw [List.append_nil, List.take_append_drop, hright, List.length_nil, Nat.mul_zero] at hvalue
  rw [← hvalue, slice_eq_div_mod]

/-- decode reads each field from its header bits (30_encoding.md R91). -/
theorem headerOfBytes_field (f : Field) : (headerOfBytes bytes).field f = f.bitsIn (catBytes bytes) := by
  have hword0 := wordAt_eq_slice hlength (i := 0) (by decide)
  have hword1 := wordAt_eq_slice hlength (i := 4) (by decide)
  have hword2 := wordAt_eq_slice hlength (i := 8) (by decide)
  cases f
  case bitstring => exact catBytes_drop_eq_slice hlength
  all_goals
    simp only [Header.field, headerOfBytes, hword0, hword1, hword2]
    exact slice_slice _ (by decide) (by decide)

/-- What decode gives is in range (40_codec.md R137). -/
theorem inRange_headerOfBytes : InRange (headerOfBytes bytes) := fun f =>
  headerOfBytes_field hlength f ▸ f.bitsIn_lt (catBytes bytes)

/-- The header of 44 bytes has them as its wire bytes (40_codec.md R136). -/
theorem headerBytes_headerOfBytes : headerBytes (headerOfBytes bytes) = bytes := by
  refine catBytes_inj ((headerBytes_length _).trans hlength.symm) ?_
  have hbits : fieldBits Field.all = 8 * bytes.length := by rw [hlength]; rfl
  rw [catBytes_headerBytes (inRange_headerOfBytes hlength),
    packFields_of_bitsIn (headerOfBytes_field hlength) contiguous_all, hbits,
    two_pow_eight_mul, Nat.mod_eq_of_lt (catBytes_lt bytes)]

end

/-- A header in range is the header of its wire bytes (40_codec.md R135). -/
theorem headerOfBytes_headerBytes {h : Header} (hrange : InRange h) : headerOfBytes (headerBytes h) = h :=
  Header.ext_field fun f => by
    rw [headerOfBytes_field (headerBytes_length h), catBytes_headerBytes hrange, bitsIn_packFields hrange]

/-- Every 44 bytes are the wire bytes of exactly one header in range. -/
theorem existsUnique_encodeHeader {bytes : List Byte} (hlength : bytes.length = 44) :
    ∃! h, InRange h ∧ encodeHeader h = .ok bytes := by
  have hrange := inRange_headerOfBytes hlength
  refine ⟨headerOfBytes bytes, ⟨hrange, ?_⟩, ?_⟩
  · rw [encodeHeader_of_inRange hrange, headerBytes_headerOfBytes hlength]
  · rintro h ⟨hh, hencode⟩
    rw [(encodeHeader_ok hencode).2, headerOfBytes_headerBytes hh]

/-! ### The bitstring's bytes (30_encoding.md R95, R97) -/

theorem drop_headerBytes (h : Header) : (headerBytes h).drop 12 = be256 h.bitstring := by
  exact List.drop_left' (by simp)

theorem inRange_with_bsl {h : Header} (hrange : InRange h) {bsl : Nat} (hbsl : bsl < 16) :
    InRange { h with bsl := bsl } := by
  intro f
  by_cases hf : f = .bsl
  · subst hf
    exact hbsl
  · have hfield : Header.field { h with bsl := bsl } f = h.field f := by
      cases f <;> first | rfl | exact absurd rfl hf
    exact hfield ▸ hrange f

/-- Settles O9: the fields stand one right above the other from bit 351 to bit 0; 44 bytes decode to the one header they
encode; and BSL is not among the bitstring's bytes. -/
theorem fieldsPartitionTheHeaderBits : Obligations.FieldsPartitionTheHeaderBits := by
  unfold Obligations.FieldsPartitionTheHeaderBits
  refine ⟨fun n hn => ?_, fun f => headerHi_le_fieldBits contiguous_all f.mem_all,
    fun bytes => existsUnique_encodeHeader, fun h bsl hrange hbsl => ?_⟩
  · simpa [Field.mem_all] using existsUnique_field_of_bit contiguous_all hn
  · refine ⟨_, _, encodeHeader_of_inRange hrange, encodeHeader_of_inRange (inRange_with_bsl hrange hbsl), ?_, ?_⟩
    · rw [headerBytes_length, headerBytes_length]
    · rw [drop_headerBytes, drop_headerBytes]

/-- Wire byte `43 - k div 8` holds bits `8 * (k div 8) + 7` to `8 * (k div 8)` of the bitstring. -/
theorem getD_headerBytes (h : Header) {k : Nat} (hk : k < 256) :
    (headerBytes h).getD (43 - k / 8) 0 = BitVec.ofNat 8 (h.bitstring >>> (8 * (k / 8))) := by
  have hindex : 43 - k / 8 = 12 + (31 - k / 8) := by omega
  have hshift : 32 - 1 - (31 - k / 8) = k / 8 := by omega
  have hbyte : 31 - k / 8 < 32 := by omega
  rw [List.getD_eq_getElem?_getD, hindex, ← List.getElem?_drop, drop_headerBytes]
  simp [be256, beBytes, hbyte, hshift]

theorem getLsbD_headerBytes (h : Header) {k : Nat} (hk : k < 256) :
    ((headerBytes h).getD (43 - k / 8) 0).getLsbD (k % 8) = h.bitstring.testBit k := by
  have hbit : k % 8 < 8 := Nat.mod_lt k (by decide)
  rw [getD_headerBytes h hk, BitVec.getLsbD_ofNat, Nat.testBit_shiftRight, Nat.div_add_mod]
  simp [hbit]

/-- Settles O10: the byte holds eight bits of the bitstring, and counted from its most significant bit, bit `k mod 8` is
bit `7 - k mod 8`. -/
theorem bitstringBitHasItsWireBit : Obligations.BitstringBitHasItsWireBit := by
  unfold Obligations.BitstringBitHasItsWireBit
  intro h k hrange hk
  have hbyte : (351 - k) / 8 = 43 - k / 8 := by omega
  have hbit : (351 - k) % 8 < 8 := Nat.mod_lt _ (by decide)
  have hreversed : 8 - 1 - (351 - k) % 8 = k % 8 := by omega
  refine ⟨headerBytes h, encodeHeader_of_inRange hrange, getLsbD_headerBytes h hk, ?_⟩
  rw [hbyte, BitVec.getMsbD, hreversed, getLsbD_headerBytes h hk]
  simp [hbit]

end Sys2Proof.Machine

namespace Sys2Proof

/-! ### Words in sequence (00_scope.md R8) -/

theorem catWords_append (l m : List Word) : catWords (l ++ m) = catWords l * 2 ^ (32 * m.length) + catWords m := by
  induction m using List.reverseRecOn with
  | nil => simp
  | append_singleton m w ih =>
    rw [← List.append_assoc, catWords_snoc, catWords_snoc, ih, List.length_append, List.length_singleton, Nat.mul_succ,
      Nat.pow_add]
    ring

/-- A word of a sequence is 32 bits of its value. -/
theorem catWords_infix (l : List Word) (w : Word) (r : List Word) :
    catWords (l ++ w :: r) / 2 ^ (32 * r.length) % 2 ^ 32 = w.toNat := by
  have hr : catWords r < 2 ^ (32 * r.length) := (catWords_lt r).trans_eq (Nat.pow_mul 2 32 r.length).symm
  rw [List.append_cons, catWords_append, Nat.add_comm, Nat.add_mul_div_right _ _ (Nat.two_pow_pos _),
    Nat.div_eq_of_lt hr, Nat.zero_add, catWords_snoc, Nat.add_comm, Nat.add_mul_mod_self_right,
    Nat.mod_eq_of_lt w.isLt]

theorem ofNat_catBytes_be32 (v : Nat) : BitVec.ofNat 32 (catBytes (be32 v)) = BitVec.ofNat 32 v := by
  rw [catBytes_be32]
  exact BitVec.eq_of_toNat_eq (by simp)

/-- A stretch of four bytes at its place in a byte sequence. -/
theorem Machine.wordAt_append {l m : List Byte} (r : List Byte) {i : Nat} (hl : l.length = i) (hm : m.length = 4) :
    Machine.wordAt (l ++ m ++ r) i = catBytes m := by
  rw [Machine.wordAt, List.append_assoc, List.drop_left' hl, List.take_left' hm]

end Sys2Proof

namespace Sys2Proof.Machine

/-! ### The bitstring's words (10_state.md R33) -/

theorem bsWord_eq_shift (v : Nat) {k : Nat} (hk : k < 8) : bsWord v k = BitVec.ofNat 32 (v >>> (32 * (7 - k))) := by
  have hlo : 224 - 32 * k = 32 * (7 - k) := by omega
  have hwidth : 255 - 32 * k - 32 * (7 - k) + 1 = 32 := by omega
  apply BitVec.eq_of_toNat_eq
  rw [bsWord, slice, hlo, hwidth, BitVec.toNat_ofNat, BitVec.toNat_ofNat, Nat.mod_mod]

/-- BSk holds word `k` of the bitstring that the registers hold. -/
theorem bsWord_hdrOf (b : Block) {k : Nat} {r : Reg} (hr : Reg.bitstring[k]? = some r) :
    bsWord b.hdrOf.bitstring k = b.reg r := by
  obtain ⟨hk, rfl⟩ := List.getElem?_eq_some_iff.mp hr
  have hsplit : Reg.bitstring = Reg.bitstring.take k ++ Reg.bitstring[k] :: Reg.bitstring.drop (k + 1) := by
    rw [← List.drop_eq_getElem_cons, List.take_append_drop]
  have hlater : ((Reg.bitstring.drop (k + 1)).map b.reg).length = 7 - k := by
    rw [List.length_map, List.length_drop]
    exact Nat.add_sub_add_right 7 1 k
  have hvalue : b.hdrOf.bitstring = catWords ((Reg.bitstring.take k).map b.reg ++
      b.reg Reg.bitstring[k] :: (Reg.bitstring.drop (k + 1)).map b.reg) := by
    rw [← List.map_cons, ← List.map_append, ← hsplit]
    rfl
  apply BitVec.eq_of_toNat_eq
  rw [bsWord_eq_shift _ hk, BitVec.toNat_ofNat, Nat.shiftRight_eq_div_pow, hvalue, ← hlater, catWords_infix]

/-! ### WBUF after ENCODE (30_encoding.md R92 to R95) -/

section
variable (h : Header)

theorem wordAt_headerBytes_zero : wordAt (headerBytes h) 0 = catBytes (be32 (headerWord0 h)) := by
  rw [headerBytes, List.append_assoc, List.append_assoc]
  exact wordAt_append (l := []) _ rfl (be32_length _)

theorem wordAt_headerBytes_four : wordAt (headerBytes h) 4 = catBytes (be32 (headerWord1 h)) := by
  rw [headerBytes, List.append_assoc]
  exact wordAt_append _ (be32_length _) (be32_length _)

theorem wordAt_headerBytes_eight : wordAt (headerBytes h) 8 = catBytes (be32 (headerWord2 h)) := by
  rw [headerBytes]
  exact wordAt_append _ (by simp) (be32_length _)

end

/-- Words 3 to 10 are the bitstring's (30_encoding.md R95). -/
theorem wordAt_headerBytes_bitstring {h : Header} (hrange : InRange h) {k : Nat} (hk : k < 8) :
    wordAt (headerBytes h) (12 + 4 * k) = slice h.bitstring (255 - 32 * k) (224 - 32 * k) := by
  have hbits : slice (catBytes (headerBytes h)) 255 0 = h.bitstring := by
    rw [catBytes_headerBytes hrange]
    exact bitsIn_packFields hrange .bitstring
  rw [wordAt_eq_slice (headerBytes_length h) (by omega), ← hbits, slice_slice _ (by omega) (by omega)]
  congr 1 <;> omega

/-- A word inside what was stored. -/
theorem laneWord_store (b : Block) (a : Nat) (l : List Byte) {i : Nat} (hi : i + 4 ≤ l.length) :
    laneWord (b.store a l) (a + i) = BitVec.ofNat 32 (wordAt l i) := by
  rw [← loadWord_eq_laneWord, Block.loadWord, ← bytes_drop_take _ _ _ _ _ hi, bytes_store, wordAt]

/-- WBUF and WLEN as a successful ENCODE leaves them (40_codec.md R142). -/
def Block.withEncodedHeader (b : Block) : Block :=
  (b.store wbufBase (headerBytes b.hdrOf)).setReg .wlen (BitVec.ofNat 32 hdrBytes)

theorem exec_encode_of_inRange {s : State} (hrange : InRange s.block.hdrOf) :
    exec .encode s = .next { s with block := s.block.withEncodedHeader.complete } := by
  rw [exec_eq_finish, commandResult, encodeResult, encodeHeader_of_inRange hrange]
  rfl

theorem laneWord_congr {b c : Block} (hm : b.mem = c.mem) (he : b.epoch = c.epoch) (a : Nat) :
    laneWord b a = laneWord c a := by
  simp only [laneWord, byte_congr hm he]

/-- WLEN and STATUS are no part of WBUF. -/
theorem laneWord_withEncodedHeader (b : Block) {i : Nat} (hi : i + 4 ≤ hdrBytes) :
    laneWord b.withEncodedHeader.complete (wbufBase + i) = BitVec.ofNat 32 (wordAt (headerBytes b.hdrOf) i) := by
  have hmem : b.withEncodedHeader.complete.mem = (b.store wbufBase (headerBytes b.hdrOf)).mem := by
    rw [complete_mem, Block.withEncodedHeader, setReg_mem]
  have hepoch : b.withEncodedHeader.complete.epoch = (b.store wbufBase (headerBytes b.hdrOf)).epoch := by
    rw [complete_epoch, Block.withEncodedHeader, setReg_epoch]
  rw [laneWord_congr hmem hepoch, laneWord_store _ _ _ (by rwa [headerBytes_length])]

/-! The codec's words of the header in the registers, as words (30_encoding.md R92 to R94). -/

section
variable (b : Block)

theorem ofNat_headerWord0 : BitVec.ofNat 32 (headerWord0 b.hdrOf) =
    (b.fBiftId <<< 12) ||| (b.fTc <<< 9) ||| (b.fS <<< 8) ||| b.fTtl := by
  simp only [headerWord0, Block.hdrOf, BitVec.ofNat_or, BitVec.ofNat_toNat, BitVec.setWidth_eq]
  rfl

theorem ofNat_headerWord1 : BitVec.ofNat 32 (headerWord1 b.hdrOf) =
    (b.fNibble <<< 28) ||| (b.fVersion <<< 24) ||| (b.fBsl <<< 20) ||| b.fEntropy := by
  simp only [headerWord1, Block.hdrOf, BitVec.ofNat_or, BitVec.ofNat_toNat, BitVec.setWidth_eq]
  rfl

theorem ofNat_headerWord2 : BitVec.ofNat 32 (headerWord2 b.hdrOf) =
    (b.fOam <<< 30) ||| (b.fRsv <<< 28) ||| (b.fDscp <<< 22) ||| (b.fProto <<< 16) ||| b.fBfirId := by
  simp only [headerWord2, Block.hdrOf, BitVec.ofNat_or, BitVec.ofNat_toNat, BitVec.setWidth_eq]
  rfl

end

/-- Settles O14: each bus word is the codec's word of the header in the registers, cut to 32 bits. -/
theorem encodedWordsOfWbuf : Obligations.EncodedWordsOfWbuf := by
  unfold Obligations.EncodedWordsOfWbuf
  intro s hrange
  have hword (i : Nat) (hi : i + 4 ≤ hdrBytes) := laneWord_withEncodedHeader s.block hi
  refine ⟨_, exec_encode_of_inRange hrange, ?_, ?_, ?_, fun k r hr => ?_⟩
  · rw [← ofNat_headerWord0, ← ofNat_catBytes_be32, ← wordAt_headerBytes_zero]
    exact hword 0 (by decide)
  · rw [← ofNat_headerWord1, ← ofNat_catBytes_be32, ← wordAt_headerBytes_four]
    exact hword 4 (by decide)
  · rw [← ofNat_headerWord2, ← ofNat_catBytes_be32, ← wordAt_headerBytes_eight]
    exact hword 8 (by decide)
  · have hk : k < 8 := (List.getElem?_eq_some_iff.mp hr).1
    have hplace : 0x010C + 4 * k = wbufBase + (12 + 4 * k) := Nat.add_assoc 0x0100 12 (4 * k)
    rw [← bsWord_hdrOf s.block hr, bsWord, ← wordAt_headerBytes_bitstring hrange hk, hplace]
    exact hword _ (by rw [hdrBytes]; omega)

end Sys2Proof.Machine

namespace Sys2Proof.Machine

/-! ### Host programs of writes (30_encoding.md R104, 20_memory.md R70) -/

/-- The slot that a word access at an offset from BHC_BASE reaches; none where the offset is outside the window,
misaligned or unmapped (20_memory.md R60 to R63). -/
def wordSlot (p : Params) (off : Nat) : Option Slot := if off < 0x4000 then busSlot p 32 off else none

/-- How a word write is answered: outside the window by the platform (log 6). -/
def wordReply (p : Params) (off : Nat) : Reply :=
  if (wordSlot p off).isSome then .ok else if off < 0x4000 then .buserr else .platform

/-- The effect on the block of a word write elsewhere than at CMD. -/
def Block.writeWord (p : Params) (b : Block) (off : Nat) (v : Word) : Block :=
  match wordSlot p off with
  | some slot => b.writeSlot v slot
  | none => b

theorem wordSlot_eq_some {p : Params} {off : Nat} {slot : Slot} (h : wordSlot p off = some slot) :
    off = slotOffset slot ∧ SlotMapped p slot := by
  unfold wordSlot at h
  split at h
  · exact (busSlot_eq_some h).2
  · cases h

section
variable {p : Params} {slot : Slot}

theorem wordSlot_slotOffset (h : SlotMapped p slot) : wordSlot p (slotOffset slot) = some slot := by
  rw [wordSlot, if_pos (slotOffset_lt_window h), busSlot_slotOffset h]

theorem wordReply_slotOffset (h : SlotMapped p slot) : wordReply p (slotOffset slot) = .ok := by
  rw [wordReply, wordSlot_slotOffset h]
  rfl

theorem writeWord_slotOffset (h : SlotMapped p slot) (b : Block) (v : Word) :
    b.writeWord p (slotOffset slot) v = b.writeSlot v slot := by
  rw [Block.writeWord, wordSlot_slotOffset h]

end

/-- A word write elsewhere than at CMD writes what it reaches, and is answered. -/
theorem step_write_word {s : State} {off : Nat} {v : Word} {rest : List Input} (hcmd : off ≠ 0x0000)
    (h : Issued s (wordAccess s.params off (.write v)) rest) :
    step s = .next { s.answered rest (wordReply s.params off) with block := s.block.writeWord s.params off v } := by
  cases hslot : wordSlot s.params off with
  | some slot =>
    obtain ⟨rfl, hmapped⟩ := wordSlot_eq_some hslot
    have hne : slot ≠ .reg .cmd := by
      rintro rfl
      exact hcmd rfl
    rw [step_write_slot hmapped hne h, wordReply_slotOffset hmapped, writeWord_slotOffset hmapped]
  | none =>
    rw [step_access h, Block.writeWord, wordReply, hslot]
    unfold wordSlot at hslot
    split at hslot
    · simp only [perform, wordAccess, offsetOf_base_add s.params ‹_›, hslot, Option.isSome_none, if_pos ‹off < 0x4000›]
      rfl
    · have houtside : s.params.offsetOf (s.params.base + off) = none := offsetOf_eq_none s.params (by omega)
      simp only [perform, wordAccess, houtside, Option.isSome_none, if_neg ‹¬off < 0x4000›]
      rfl

/-- A host program of writes. -/
def writeLines (ws : List (Target × Word)) : List Line := ws.map fun w => .wr w.1 w.2

/-- The block after a program of writes. -/
def Block.afterWrites (p : Params) (b : Block) (ws : List (Target × Word)) : Block :=
  ws.foldl (fun b w => b.writeWord p (Target.offset w.1) w.2) b

/-- The replies to a program of writes, newest first. -/
def writeReplies (p : Params) (ws : List (Target × Word)) : List Reply :=
  (ws.map fun w => wordReply p (Target.offset w.1)).reverse

theorem core_run_succ {s t : State} (h : step s = .next t) (n : Nat) :
    Host.Core.run core (n + 1) s = Host.Core.run core n t := by
  have hstep : core.step s = .next t := h
  simp only [Host.Core.run, hstep]

/-- A program of writes that leaves CMD alone runs to its end, whatever it is answered. -/
theorem run_writes {s : State} {rest : List Input} (ws : List (Target × Word))
    (hmaster : s.params.multiMaster = false) (hpending : s.pending = accesses s.params (writeLines ws) ++ rest)
    (hcmd : ∀ w ∈ ws, Target.offset w.1 ≠ 0x0000) :
    Host.Core.run core ws.length s = .next { s with
      pending := rest
      block := s.block.afterWrites s.params ws
      replies := writeReplies s.params ws ++ s.replies } := by
  induction ws generalizing s with
  | nil =>
    have hstate : { s with pending := rest } = s := by rw [← hpending.trans (List.nil_append rest)]
    exact congrArg _ hstate.symm
  | cons w ws ih =>
    have hissued : Issued s (wordAccess s.params (Target.offset w.1) (.write w.2))
        (accesses s.params (writeLines ws) ++ rest) := ⟨hmaster, hpending⟩
    have hstep := step_write_word (hcmd w List.mem_cons_self) hissued
    refine (core_run_succ hstep ws.length).trans
      ((ih (by exact hmaster) rfl fun w hw => hcmd w (List.mem_cons_of_mem _ hw)).trans ?_)
    simp [writeReplies, Block.afterWrites]

/-- A program of writes that all reach the block changes nothing but the block and the replies. -/
theorem run_writes_ok {s : State} {rest : List Input} (ws : List (Target × Word))
    (hmaster : s.params.multiMaster = false) (hpending : s.pending = accesses s.params (writeLines ws) ++ rest)
    (hok : ∀ w ∈ ws, Target.offset w.1 ≠ 0x0000 ∧ wordReply s.params (Target.offset w.1) = .ok) :
    Host.Core.run core ws.length s = .next (s.wrote rest ws.length (s.block.afterWrites s.params ws)) := by
  have hreplies : writeReplies s.params ws = List.replicate ws.length .ok := by
    rw [writeReplies, List.map_congr_left fun w hw => (hok w hw).2, List.map_const', List.reverse_replicate]
  rw [run_writes ws hmaster hpending fun w hw => (hok w hw).1, hreplies]
  rfl

/-! ### Writes of registers -/

/-- Register writes as lines of a host program write them (30_encoding.md R104). -/
def regWrites (ws : List (Reg × Word)) : List (Target × Word) := ws.map fun w => (.reg w.1, w.2)

theorem offset_ne_zero {r : Reg} (h : r ≠ .cmd) : r.offset ≠ 0x0000 := fun hoff => h (offset_inj (r := .cmd) hoff)

theorem wordReply_reg (p : Params) (r : Reg) : wordReply p r.offset = .ok :=
  wordReply_slotOffset (slot := .reg r) trivial

/-- A register that a write leaves something in holds it afterwards. -/
theorem writeWord_reg {r : Reg} {v w : Word} (h : r.written v = some w) (p : Params) (b : Block) :
    b.writeWord p r.offset v = b.setReg r w := by
  refine (writeWord_slotOffset (slot := .reg r) trivial b v).trans ?_
  rw [Block.writeSlot, h]

/-- Writes to registers with 32 implemented bits leave the written values in them. -/
theorem afterWrites_regWrites (p : Params) (b : Block) {ws : List (Reg × Word)}
    (hfull : ∀ w ∈ ws, w.1 ∈ [Reg.ethDstLo, .ethSrcLo] ++ Reg.fields ++ Reg.bitstring) :
    b.afterWrites p (regWrites ws) = ws.foldl (fun b w => b.setReg w.1 w.2) b := by
  rw [Block.afterWrites, regWrites, List.foldl_map]
  refine List.foldl_ext _ _ b fun b w hw => ?_
  exact writeWord_reg (written_full (hfull w hw) w.2) p b

theorem run_regWrites {s : State} {rest : List Input} {ws : List (Reg × Word)}
    (hmaster : s.params.multiMaster = false)
    (hpending : s.pending = accesses s.params (writeLines (regWrites ws)) ++ rest) (hcmd : ∀ w ∈ ws, w.1 ≠ .cmd) :
    Host.Core.run core ws.length s = .next (s.wrote rest ws.length (s.block.afterWrites s.params (regWrites ws))) := by
  have hlength : (regWrites ws).length = ws.length := List.length_map ..
  rw [← hlength]
  refine run_writes_ok _ hmaster hpending fun w hw => ?_
  obtain ⟨regWrite, hmem, rfl⟩ := List.mem_map.mp hw
  exact ⟨offset_ne_zero (hcmd regWrite hmem), wordReply_reg s.params regWrite.1⟩

/-! ### LDHDR (30_encoding.md R105) -/

/-- The register writes of LDHDR, for a header whose scalar fields the registers can hold. -/
def hdrWrites (h : Header) : List (Reg × Word) :=
  (Field.all.filterMap fun f => f.reg.map fun r => (r, BitVec.ofNat 32 (h.field f))) ++
    ((List.range 8).zip Reg.bitstring).map fun kr => (kr.2, bsWord h.bitstring kr.1)

theorem hdrLines_eq_writeLines (h : Header) : hdrLines h = writeLines (regWrites (hdrWrites h)) := rfl

/-- Every register of the header is written once, with its word. -/
theorem foldl_hdrWrites (b : Block) (h : Header) :
    (hdrWrites h).foldl (fun b w => b.setReg w.1 w.2) b = b.setHdr h := by
  simp [hdrWrites, Field.all, Field.reg, Reg.bitstring, List.range_succ, Block.setReg, Block.setHdr, Header.field]

theorem mem_hdrWrites {h : Header} {w : Reg × Word} (hw : w ∈ hdrWrites h) : w.1 ∈ Reg.fields ++ Reg.bitstring := by
  have hregs : (hdrWrites h).map Prod.fst = Reg.fields ++ Reg.bitstring := rfl
  rw [← hregs]
  exact List.mem_map_of_mem hw

/-- LDHDR leaves the header in the registers (40_codec.md R143). -/
theorem run_ldHdr {s : State} {h : Header} {rest : List Input} (hmaster : s.params.multiMaster = false)
    (hpending : s.pending = accesses s.params (Pseudo.expand (.ldHdr h)) ++ rest) :
    Host.Core.run core 21 s = .next (s.wrote rest 21 (s.block.setHdr (heldHeader h))) := by
  have hfull (w : Reg × Word) (hw : w ∈ hdrWrites (heldHeader h)) :
      w.1 ∈ [Reg.ethDstLo, .ethSrcLo] ++ Reg.fields ++ Reg.bitstring := by
    rw [List.append_assoc]
    exact List.mem_append_right _ (mem_hdrWrites hw)
  have hcmd (w : Reg × Word) (hw : w ∈ hdrWrites (heldHeader h)) : w.1 ≠ .cmd := fun hr =>
    absurd (hr ▸ mem_hdrWrites hw) (by decide)
  rw [Pseudo.expand, ldHdr, hdrLines_eq_writeLines] at hpending
  have hrun := run_regWrites hmaster hpending hcmd
  rwa [afterWrites_regWrites _ _ hfull, foldl_hdrWrites] at hrun

/-- The words of a value, most significant first, make up its low bits. -/
theorem catWords_shifts (n v : Nat) :
    catWords ((List.range n).map fun k => BitVec.ofNat 32 (v >>> (32 * (n - 1 - k)))) = v % 2 ^ (32 * n) := by
  induction n generalizing v with
  | zero => exact (Nat.mod_one v).symm
  | succ n ih =>
    have hhigh : ((List.range n).map fun k => BitVec.ofNat 32 (v >>> (32 * (n + 1 - 1 - k)))) =
        (List.range n).map fun k => BitVec.ofNat 32 ((v / 2 ^ 32) >>> (32 * (n - 1 - k))) := by
      refine List.map_congr_left fun k hk => ?_
      have hk := List.mem_range.mp hk
      have hshift : 32 * (n + 1 - 1 - k) = 32 + 32 * (n - 1 - k) := by omega
      rw [hshift, Nat.shiftRight_add, Nat.shiftRight_eq_div_pow v]
    rw [List.range_succ, List.map_append, hhigh, List.map_singleton, catWords_snoc, ih, BitVec.toNat_ofNat,
      Nat.add_sub_cancel, Nat.sub_self, Nat.mul_zero, Nat.shiftRight_zero, Nat.mul_succ, Nat.add_comm (32 * n),
      Nat.pow_add, Nat.mod_mul]
    ring

/-- Words written to the bitstring registers hold the low 256 bits of the value. -/
theorem catWords_bsWord (v : Nat) : catWords ((List.range 8).map (bsWord v)) = v % 2 ^ 256 := by
  rw [List.map_congr_left fun k hk => bsWord_eq_shift v (List.mem_range.mp hk)]
  exact catWords_shifts 8 v

section
variable (b : Block) (h : Header)

/-- A field register holds what it can of the field. -/
theorem setHdr_hdrOf_field {f : Field} (hf : f ≠ .bitstring) :
    (b.setHdr h).hdrOf.field f = h.field f % 2 ^ 32 := by
  cases f
  case bitstring => exact absurd rfl hf
  all_goals exact BitVec.toNat_ofNat ..

theorem setHdr_hdrOf_bitstring : (b.setHdr h).hdrOf.bitstring = h.bitstring % 2 ^ 256 := catWords_bsWord h.bitstring

theorem setHdr_reg_bitstring {k : Nat} {r : Reg} (hr : Reg.bitstring[k]? = some r) :
    (b.setHdr h).reg r = bsWord h.bitstring k := by
  obtain ⟨hk, rfl⟩ := List.getElem?_eq_some_iff.mp hr
  have hwords : ∀ i : Fin 8, (b.setHdr h).reg Reg.bitstring[i] = bsWord h.bitstring i := by
    intro i
    fin_cases i <;> rfl
  exact hwords ⟨k, hk⟩

end

/-- A scalar field that its register can hold is loaded as it is. -/
theorem setHdr_heldHeader_field (b : Block) (h : Header) {f : Field} (hf : f ≠ .bitstring) (hlt : h.field f < 2 ^ 32) :
    (b.setHdr (heldHeader h)).hdrOf.field f = h.field f := by
  rw [setHdr_hdrOf_field _ _ hf, heldHeader_field h hf, heldField_of_lt f hlt, Nat.mod_eq_of_lt hlt]

/-- A header that the registers can hold whole is loaded whole. -/
theorem setHdr_heldHeader_hdrOf (b : Block) {h : Header} (hrep : h.representable = true) :
    (b.setHdr (heldHeader h)).hdrOf = h := by
  have hfits (f : Field) : h.field f < 2 ^ (if f = .bitstring then 256 else 32) := by
    simpa using List.all_eq_true.mp hrep f f.mem_all
  refine Header.ext_field fun f => ?_
  have hf := hfits f
  split at hf
  · subst f
    exact (setHdr_hdrOf_bitstring b _).trans (Nat.mod_eq_of_lt hf)
  · exact setHdr_heldHeader_field b h ‹_› hf

/-- Settles O48: the 21 writes leave the header in the registers as DECODE's result writes would. -/
theorem ldHdrLoadsTheHeader : Obligations.LdHdrLoadsTheHeader := by
  unfold Obligations.LdHdrLoadsTheHeader
  intro s h rest hmaster hpending
  refine ⟨_, run_ldHdr hmaster hpending, fun f => setHdr_heldHeader_field s.block h, fun k r hr => ?_,
    setHdr_hdrOf_bitstring s.block _, setHdr_heldHeader_hdrOf s.block, fun r => setHdr_reg_control s.block _, rfl, rfl,
    rfl⟩
  have hk : k < 8 := (List.getElem?_eq_some_iff.mp hr).1
  have hlt : slice h.bitstring (255 - 32 * k) (224 - 32 * k) < 2 ^ 32 :=
    (slice_lt _ _ _).trans_eq (congrArg (2 ^ ·) (by omega))
  rw [wrote_block, setHdr_reg_bitstring s.block _ hr, bsWord, heldHeader_bitstring, BitVec.toNat_ofNat,
    Nat.mod_eq_of_lt hlt]

end Sys2Proof.Machine

namespace Sys2Proof.Machine

/-! ### LDMAC (30_encoding.md R105, 10_state.md R26, R27) -/

/-- A slice of a slice is a slice of the whole. -/
theorem extractLsb'_extractLsb'_add {w from₁ len₁ from₂ len₂ : Nat} (x : BitVec w) (h : from₂ + len₂ ≤ len₁) :
    (x.extractLsb' from₁ len₁).extractLsb' from₂ len₂ = x.extractLsb' (from₁ + from₂) len₂ := by
  ext k hk
  have hinner : from₂ + k < len₁ := by omega
  simp [hinner, Nat.add_assoc]

/-- What the HI register of a link-layer address holds: its first two bytes on the wire. -/
def macHi (a : BitVec 48) : Word := (a.extractLsb' 32 16).setWidth 32

/-- What the LO register holds: the last four. -/
def macLo (a : BitVec 48) : Word := a.extractLsb' 0 32

/-- The pair holds the address, its first byte on the wire the most significant. -/
theorem macBytes_macHi_macLo (a : BitVec 48) : macBytes (macHi a) (macLo a) = be48 a := by
  have hhi {start : Nat} (hstart : start + 8 ≤ 16) : (macHi a).extractLsb' start 8 = a.extractLsb' (32 + start) 8 := by
    rw [macHi, BitVec.extractLsb'_setWidth_of_le (by omega), extractLsb'_extractLsb'_add _ hstart]
  have hlo {start : Nat} (hstart : start + 8 ≤ 32) : (macLo a).extractLsb' start 8 = a.extractLsb' (0 + start) 8 := by
    rw [macLo, extractLsb'_extractLsb'_add _ hstart]
  rw [macBytes, hhi (by decide), hhi (by decide), hlo (by decide), hlo (by decide), hlo (by decide), hlo (by decide)]
  rfl

/-- The HI register's implemented bits hold all of its part of the address. -/
theorem macHi_and (a : BitVec 48) : macHi a &&& 0x0000FFFF = macHi a := by
  have hmask : ((macHi a).extractLsb' 0 16).setWidth 32 = macHi a &&& 0x0000FFFF :=
    setWidth_extractLsb'_eq_and (macHi a) (by decide)
  rw [← hmask, macHi, BitVec.extractLsb'_setWidth_of_le (by decide), BitVec.extractLsb'_eq_self]

/-- LDMAC leaves the address in the register pair. -/
theorem run_ldMac {s : State} {hi lo : Reg} {a : BitVec 48} {rest : List Input}
    (hmaster : s.params.multiMaster = false)
    (hhi : hi ∈ [Reg.wlen, .l3len, .ethDstHi, .ethSrcHi, .etypeBier, .etypeIp])
    (hlo : lo ∈ [Reg.ethDstLo, .ethSrcLo] ++ Reg.fields ++ Reg.bitstring)
    (hpending : s.pending = accesses s.params (ldMac hi lo a) ++ rest) :
    Host.Core.run core 2 s = .next (s.wrote rest 2 ((s.block.setReg hi (macHi a)).setReg lo (macLo a))) := by
  have hwrittenHi : hi.written (macHi a) = some (macHi a) := by rw [written_half hhi, macHi_and]
  have hwrittenLo : lo.written (macLo a) = some (macLo a) := written_full hlo _
  have hcmd : ∀ w ∈ [(hi, macHi a), (lo, macLo a)], w.1 ≠ Reg.cmd := by
    simp [ne_cmd_of_written hwrittenHi, ne_cmd_of_written hwrittenLo]
  have hblock : s.block.afterWrites s.params (regWrites [(hi, macHi a), (lo, macLo a)]) =
      (s.block.setReg hi (macHi a)).setReg lo (macLo a) := by
    rw [← writeWord_reg hwrittenHi s.params, ← writeWord_reg hwrittenLo s.params]
    rfl
  rw [← hblock]
  exact run_regWrites hmaster hpending hcmd

/-! ### LDBUF (30_encoding.md R105) -/

theorem writeBytes_append (m : Memory) (a : Nat) (l l' : List Byte) :
    Memory.writeBytes m a (l ++ l') = Memory.writeBytes (Memory.writeBytes m a l) (a + l.length) l' := by
  induction l generalizing m a with
  | nil => rfl
  | cons v l ih =>
    rw [List.cons_append, Memory.writeBytes, ih, Memory.writeBytes, List.length_cons, Nat.add_assoc, Nat.add_comm 1]

theorem store_append (b : Block) (a : Nat) (l l' : List Byte) :
    b.store a (l ++ l') = (b.store a l).store (a + l.length) l' := by
  simp only [Block.store, writeBytes_append]

/-- The first `n` bytes of a sequence, with missing bytes as 0x00. -/
def paddedBytes (bytes : List Byte) (n : Nat) : List Byte := (List.range n).map fun i => bytes.getD i 0

@[simp] theorem paddedBytes_length (bytes : List Byte) (n : Nat) : (paddedBytes bytes n).length = n := by
  simp [paddedBytes]

/-- The bytes that a word of LDBUF writes. -/
theorem be32_bufWord (bytes : List Byte) (j : Nat) :
    be32 (bufWord bytes j).toNat = (List.range 4).map fun i => bytes.getD (4 * j + i) 0 := by
  have hlength : ((List.range 4).map fun i => bytes.getD (4 * j + i) 0).length = 4 := by simp
  have hlt : catBytes ((List.range 4).map fun i => bytes.getD (4 * j + i) 0) < 256 ^ 4 :=
    (catBytes_lt _).trans_eq (congrArg (256 ^ ·) hlength)
  refine catBytes_inj ((be32_length _).trans hlength.symm) ?_
  rw [catBytes_be32, bufWord, BitVec.toNat_ofNat, Nat.mod_mod]
  exact Nat.mod_eq_of_lt hlt

theorem paddedBytes_word (bytes : List Byte) (j : Nat) :
    paddedBytes bytes (4 * (j + 1)) = paddedBytes bytes (4 * j) ++ be32 (bufWord bytes j).toNat := by
  rw [be32_bufWord, paddedBytes, Nat.mul_succ, List.range_add, List.map_append, List.map_map]
  rfl

/-- One more word of LDBUF. -/
theorem storeWord_bufWord (b : Block) (base : Nat) (bytes : List Byte) (j : Nat) :
    (b.store base (paddedBytes bytes (4 * j))).storeWord (base + 4 * j) (bufWord bytes j) =
      b.store base (paddedBytes bytes (4 * (j + 1))) := by
  rw [paddedBytes_word, store_append, paddedBytes_length, Block.storeWord]

section
variable (b : Block) (base : Nat) (bytes : List Byte) (n : Nat)

theorem byte_store_padded {k : Nat} (hk : k < n) :
    (b.store base (paddedBytes bytes n)).byte (base + k) = bytes.getD k 0 := by
  rw [byte_store_of_mem _ _ _ _ (by rwa [paddedBytes_length])]
  simp [paddedBytes]

theorem byte_store_padded_of_not_mem {a : Nat} (ha : ¬(base ≤ a ∧ a < base + n)) :
    (b.store base (paddedBytes bytes n)).byte a = b.byte a :=
  byte_store_of_not_mem _ _ _ _ (by rwa [paddedBytes_length])

end

/-- The first `n` word writes of LDBUF. -/
def bufWrites (target : Nat → Target) (bytes : List Byte) (n : Nat) : List (Target × Word) :=
  (List.range n).map fun j => (target j, bufWord bytes j)

theorem ldBuf_eq_writeLines (target : Nat → Target) (bytes : List Byte) :
    ldBuf target bytes = writeLines (bufWrites target bytes ((bytes.length + 3) / 4)) := by
  rw [ldBuf, writeLines, bufWrites, List.map_map]
  rfl

theorem afterWrites_concat (p : Params) (b : Block) (ws : List (Target × Word)) (w : Target × Word) :
    b.afterWrites p (ws ++ [w]) = (b.afterWrites p ws).writeWord p (Target.offset w.1) w.2 := by
  simp [Block.afterWrites]

theorem bufWrites_succ (target : Nat → Target) (bytes : List Byte) (n : Nat) :
    bufWrites target bytes (n + 1) = bufWrites target bytes n ++ [(target n, bufWord bytes n)] := by
  simp [bufWrites, List.range_succ]

/-- Where the words below `cap` are stored and the others reach nothing, the writes fill the buffer. -/
theorem afterWrites_bufWrites {p : Params} {target : Nat → Target} {base cap n : Nat} (b : Block) (bytes : List Byte)
    (hcap : 4 ∣ cap)
    (hin : ∀ (b : Block) (v : Word) (j : Nat), 4 * j < cap →
      b.writeWord p (Target.offset (target j)) v = b.storeWord (base + 4 * j) v)
    (hout : ∀ (b : Block) (v : Word), ∀ j < n, cap ≤ 4 * j → b.writeWord p (Target.offset (target j)) v = b) :
    b.afterWrites p (bufWrites target bytes n) = b.store base (paddedBytes bytes (min (4 * n) cap)) := by
  induction n with
  | zero => rw [Nat.mul_zero, Nat.zero_min]; rfl
  | succ n ih =>
    rw [bufWrites_succ, afterWrites_concat, ih fun b v j hj => hout b v j (Nat.lt_succ_of_lt hj)]
    by_cases hn : 4 * n < cap
    · have hmin : min (4 * n) cap = 4 * n := by omega
      have hmin' : min (4 * (n + 1)) cap = 4 * (n + 1) := by omega
      rw [hin _ _ _ hn, hmin, hmin', storeWord_bufWord]
    · have hmin : min (4 * (n + 1)) cap = min (4 * n) cap := by omega
      rw [hout _ _ n (Nat.lt_succ_self n) (Nat.le_of_not_lt hn), hmin]

/-- The word writes of LDBUF WBUF that stay inside WBUF (log 16). -/
theorem afterWrites_wbuf (p : Params) (b : Block) (bytes : List Byte) {n : Nat} (hn : 4 * n ≤ hdrBytes) :
    b.afterWrites p (bufWrites .wbuf bytes n) = b.store wbufBase (paddedBytes bytes (4 * n)) := by
  rw [afterWrites_bufWrites b bytes (by decide : 4 ∣ hdrBytes)
    (fun b v j hj => writeWord_slotOffset (slot := .wbuf j) hj b v) (fun b v j hj hout => by omega),
    Nat.min_eq_left hn]

/-- A word write behind L3BUF reaches FBUF, which ignores it, or nothing. -/
theorem writeWord_behind_l3buf {p : Params} {j : Nat} (hj : p.l3Max ≤ 4 * j) (b : Block) (v : Word) :
    b.writeWord p (l3bufBase + 4 * j) v = b := by
  unfold Block.writeWord
  split
  · rename_i slot hslot
    obtain ⟨hoff, hmapped⟩ := wordSlot_eq_some hslot
    cases slot with
    | reg r =>
      have hr := offset_lt r
      simp only [slotOffset, l3bufBase] at hoff
      omega
    | wbuf i =>
      have hi : 4 * i < 44 := hmapped
      simp only [slotOffset, l3bufBase, wbufBase] at hoff
      omega
    | l3buf i =>
      have hi : 4 * i < p.l3Max := hmapped
      simp only [slotOffset, l3bufBase] at hoff
      omega
    | fbuf i => rfl
  · rfl

/-- The word writes of LDBUF L3BUF, however many there are. -/
theorem afterWrites_l3buf (p : Params) (b : Block) (bytes : List Byte) (n : Nat) :
    b.afterWrites p (bufWrites .l3buf bytes n) = b.store l3bufBase (paddedBytes bytes (min (4 * n) p.l3Max)) :=
  afterWrites_bufWrites b bytes (four_dvd_l3Max p)
    (fun b v j hj => writeWord_slotOffset (slot := .l3buf j) hj b v)
    (fun b v _ _ hj => writeWord_behind_l3buf hj b v)

/-- The buffers once the padded words of LDBUF are stored. -/
theorem bytesLoaded_of_store {s t : State} {base : Nat} {bytes : List Byte}
    (hbyte : ∀ a, t.block.byte a =
      (s.block.store base (paddedBytes bytes (4 * ((bytes.length + 3) / 4)))).byte a)
    (hepoch : t.block.epoch = s.block.epoch) : BytesLoaded s base bytes t where
  loaded k hk := by rw [hbyte, byte_store_padded _ _ _ _ (by omega)]
  padded k hlength hk := by rw [hbyte, byte_store_padded _ _ _ _ hk, List.getD_eq_default _ _ hlength]
  others a ha := by rw [hbyte, byte_store_padded_of_not_mem _ _ _ _ ha]
  epoch := hepoch

/-- Each write of a buffer program is of one of the buffer's words. -/
theorem mem_bufWrites {target : Nat → Target} {bytes : List Byte} {n : Nat} {w : Target × Word}
    (hw : w ∈ bufWrites target bytes n) : ∃ j < n, w.1 = target j := by
  obtain ⟨j, hj, rfl⟩ := List.mem_map.mp hw
  exact ⟨j, List.mem_range.mp hj, rfl⟩

@[simp] theorem bufWrites_length (target : Nat → Target) (bytes : List Byte) (n : Nat) :
    (bufWrites target bytes n).length = n := by simp [bufWrites]

theorem wbuf_offset_ne_zero (j : Nat) : Target.offset (.wbuf j) ≠ 0x0000 := by
  simp only [Target.offset, wbufBase]
  omega

theorem l3buf_offset_ne_zero (j : Nat) : Target.offset (.l3buf j) ≠ 0x0000 := by
  simp only [Target.offset, l3bufBase]
  omega

/-- LDBUF WBUF of at most 44 bytes leaves them in WBUF. -/
theorem run_ldBufW {s : State} {bytes : List Byte} {rest : List Input} (hmaster : s.params.multiMaster = false)
    (hlength : bytes.length ≤ 44) (hpending : s.pending = accesses s.params (Pseudo.expand (.ldBufW bytes)) ++ rest) :
    Host.Core.run core ((bytes.length + 3) / 4) s = .next (s.wrote rest ((bytes.length + 3) / 4)
      (s.block.store wbufBase (paddedBytes bytes (4 * ((bytes.length + 3) / 4))))) := by
  have hwords : 4 * ((bytes.length + 3) / 4) ≤ hdrBytes := by
    rw [hdrBytes]
    omega
  rw [Pseudo.expand, ldBuf_eq_writeLines] at hpending
  have hrun := run_writes_ok _ hmaster hpending fun w hw => by
    obtain ⟨j, hj, htarget⟩ := mem_bufWrites hw
    rw [htarget]
    have hmapped : 4 * j < hdrBytes := by omega
    exact ⟨wbuf_offset_ne_zero j, wordReply_slotOffset (slot := .wbuf j) hmapped⟩
  rwa [bufWrites_length, afterWrites_wbuf _ _ _ hwords] at hrun

/-- The writes of LDBUF L3BUF. -/
def l3Writes (bytes : List Byte) : List (Target × Word) :=
  bufWrites .l3buf bytes ((bytes.length + 3) / 4) ++ [(.reg .l3len, lengthWord bytes.length)]

theorem expand_ldBufL3 (bytes : List Byte) : Pseudo.expand (.ldBufL3 bytes) = writeLines (l3Writes bytes) := by
  rw [Pseudo.expand, ldBuf_eq_writeLines, l3Writes, writeLines, writeLines, List.map_append]
  rfl

@[simp] theorem l3Writes_length (bytes : List Byte) : (l3Writes bytes).length = (bytes.length + 3) / 4 + 1 := by
  simp [l3Writes]

/-- No write of LDBUF L3BUF is to CMD. -/
theorem l3Writes_offset_ne_zero {bytes : List Byte} {w : Target × Word} (hw : w ∈ l3Writes bytes) :
    Target.offset w.1 ≠ 0x0000 := by
  rcases List.mem_append.mp hw with hw | hw
  · obtain ⟨j, -, htarget⟩ := mem_bufWrites hw
    rw [htarget]
    exact l3buf_offset_ne_zero j
  · rw [List.mem_singleton.mp hw]
    exact offset_ne_zero (r := .l3len) nofun

/-- Where L3BUF holds the bytes, every write of LDBUF L3BUF reaches the block. -/
theorem l3Writes_reply {p : Params} {bytes : List Byte} (hlength : bytes.length ≤ p.l3Max) {w : Target × Word}
    (hw : w ∈ l3Writes bytes) : wordReply p (Target.offset w.1) = .ok := by
  rcases List.mem_append.mp hw with hw | hw
  · obtain ⟨j, hj, htarget⟩ := mem_bufWrites hw
    rw [htarget]
    have hmapped : 4 * j < p.l3Max := by omega
    exact wordReply_slotOffset (slot := .l3buf j) hmapped
  · rw [List.mem_singleton.mp hw]
    exact wordReply_reg p .l3len

/-- L3BUF and L3LEN as LDBUF L3BUF leaves them: as many of the padded bytes as L3BUF holds, and the low 16 bits of their
number. -/
def Block.withL3Bytes (p : Params) (b : Block) (bytes : List Byte) : Block :=
  (b.store l3bufBase (paddedBytes bytes (min (4 * ((bytes.length + 3) / 4)) p.l3Max))).setReg .l3len
    (lengthWord bytes.length &&& 0x0000FFFF)

theorem afterWrites_l3Writes (p : Params) (b : Block) (bytes : List Byte) :
    b.afterWrites p (l3Writes bytes) = b.withL3Bytes p bytes := by
  have hwritten : Reg.l3len.written (lengthWord bytes.length) = some (lengthWord bytes.length &&& 0x0000FFFF) :=
    written_half (by decide) _
  rw [l3Writes, afterWrites_concat, afterWrites_l3buf]
  exact writeWord_reg hwritten p _

section
variable (p : Params) (b : Block) (bytes : List Byte)

theorem withL3Bytes_byte (a : Nat) : (b.withL3Bytes p bytes).byte a =
    (b.store l3bufBase (paddedBytes bytes (min (4 * ((bytes.length + 3) / 4)) p.l3Max))).byte a := by
  rw [Block.withL3Bytes, byte_congr (setReg_mem ..) (setReg_epoch ..)]

theorem withL3Bytes_reg_of_ne {r : Reg} (hr : r ≠ .l3len) : (b.withL3Bytes p bytes).reg r = b.reg r := by
  rw [Block.withL3Bytes, reg_setReg_of_ne _ _ hr, store_reg]

theorem withL3Bytes_l3len : (b.withL3Bytes p bytes).l3len = lengthWord bytes.length &&& 0x0000FFFF := rfl

theorem withL3Bytes_epoch : (b.withL3Bytes p bytes).epoch = b.epoch := by
  rw [Block.withL3Bytes, setReg_epoch, store_epoch]

end

/-- L3LEN holds any number of bytes that L3BUF holds. -/
theorem lengthWord_and_of_le {p : Params} {n : Nat} (h : n ≤ p.l3Max) :
    lengthWord n &&& 0x0000FFFF = BitVec.ofNat 32 n := by
  have hmax := l3Max_le p
  have hmask : ((BitVec.ofNat 32 n).extractLsb' 0 16).setWidth 32 = BitVec.ofNat 32 n &&& 0x0000FFFF :=
    setWidth_extractLsb'_eq_and _ (by decide)
  apply BitVec.eq_of_toNat_eq
  rw [lengthWord_of_lt (by omega), ← hmask, BitVec.toNat_setWidth_of_le (by decide), BitVec.extractLsb'_toNat,
    Nat.shiftRight_zero, BitVec.toNat_ofNat]
  omega

/-- Settles O49: LDMAC writes a register pair; LDBUF writes its padded words one after the other, those that the buffer
does not have reach nothing, and L3LEN takes the low 16 bits of the number. -/
theorem ldMacLoadsTheAddress : Obligations.LdMacLoadsTheAddress := by
  unfold Obligations.LdMacLoadsTheAddress
  intro s a rest hmaster
  refine ⟨fun hpending => ?_, fun hpending => ?_, fun bytes hlength hpending => ?_, fun bytes hpending => ?_,
    fun bytes hlength hpending => ?_⟩
  · exact ⟨_, run_ldMac hmaster (by decide) (by decide) hpending, macBytes_macHi_macLo a, rfl⟩
  · exact ⟨_, run_ldMac hmaster (by decide) (by decide) hpending, macBytes_macHi_macLo a, rfl⟩
  · rw [expand_ldBufL3] at hpending
    have hrun := run_writes_ok _ hmaster hpending fun w hw =>
      ⟨l3Writes_offset_ne_zero hw, l3Writes_reply hlength hw⟩
    rw [l3Writes_length, afterWrites_l3Writes] at hrun
    have hfits : min (4 * ((bytes.length + 3) / 4)) s.params.l3Max = 4 * ((bytes.length + 3) / 4) := by
      have hdvd := four_dvd_l3Max s.params
      omega
    refine ⟨_, hrun, bytesLoaded_of_store (fun a => ?_) (withL3Bytes_epoch ..),
      (withL3Bytes_l3len ..).trans (lengthWord_and_of_le hlength), fun r hr => withL3Bytes_reg_of_ne _ _ _ hr, rfl⟩
    rw [wrote_block, withL3Bytes_byte, hfits, l3bufBase]
  · rw [expand_ldBufL3] at hpending
    have hrun := run_writes _ hmaster hpending fun w hw => l3Writes_offset_ne_zero hw
    rw [l3Writes_length, afterWrites_l3Writes] at hrun
    refine ⟨_, hrun, fun k hk hmax => ?_, fun a ha => ?_, withL3Bytes_l3len .., lengthWord_of_lt,
      fun r hr => withL3Bytes_reg_of_ne _ _ _ hr, withL3Bytes_epoch .., rfl⟩
    · exact (withL3Bytes_byte ..).trans (byte_store_padded _ _ _ _ (by omega))
    · refine (withL3Bytes_byte ..).trans (byte_store_padded_of_not_mem _ _ _ _ ?_)
      rw [l3bufBase]
      omega
  · exact ⟨_, run_ldBufW hmaster hlength hpending, bytesLoaded_of_store (fun _ => rfl) (store_epoch ..),
      fun r => store_reg .., rfl⟩

end Sys2Proof.Machine

namespace Sys2Proof.Machine

/-! ### The round-trip laws of the codec (40_codec.md R134 to R137) -/

/-- decode succeeds on 44 bytes (40_codec.md R134). -/
theorem decodeHeader_of_length {bytes : List Byte} (hlength : bytes.length = hdrBytes) :
    decodeHeader bytes = .ok (headerOfBytes bytes) :=
  if_neg (not_not.mpr hlength)

/-- Settles O4: the wire bytes of a header in range hold each field in its header bits, where decode reads it. -/
theorem encodedHeaderDecodesToItself : Obligations.EncodedHeaderDecodesToItself := by
  unfold Obligations.EncodedHeaderDecodesToItself
  intro h hvalid
  have hrange : InRange h := validateHeader_eq_ok_iff.mp hvalid
  refine ⟨headerBytes h, encodeHeader_of_inRange hrange, ?_⟩
  rw [decodeHeader_of_length (headerBytes_length h), headerOfBytes_headerBytes hrange]

/-- Settles O5: what decode reads is in range and has the 44 bytes as its wire bytes. -/
theorem decodedBytesEncodeToThemselves : Obligations.DecodedBytesEncodeToThemselves := by
  unfold Obligations.DecodedBytesEncodeToThemselves
  intro bytes hlength
  refine ⟨headerOfBytes bytes, decodeHeader_of_length hlength, ?_⟩
  rw [encodeHeader_of_inRange (inRange_headerOfBytes hlength), headerBytes_headerOfBytes hlength]

/-- Settles O6: each field that decode reads is a slice of its width. -/
theorem decodedHeaderIsInRange : Obligations.DecodedHeaderIsInRange := by
  unfold Obligations.DecodedHeaderIsInRange
  exact fun bytes hlength => ⟨headerOfBytes bytes, decodeHeader_of_length hlength,
    validateHeader_eq_ok_iff.mpr (inRange_headerOfBytes hlength)⟩

/-- Settles O7: the length is all that decode checks. -/
theorem decodeFailsOnlyOnLength : Obligations.DecodeFailsOnlyOnLength := by
  unfold Obligations.DecodeFailsOnlyOnLength
  exact fun bytes => ⟨fun hlength => if_pos hlength, fun hlength => ⟨_, decodeHeader_of_length hlength⟩⟩

/-! ### Header and registers (40_codec.md R140, R143) -/

@[simp] theorem complete_bytes (b : Block) (a n : Nat) : b.complete.bytes a n = b.bytes a n := rfl

theorem width_le_of_ne_bitstring {f : Field} (hf : f ≠ .bitstring) : f.width ≤ 32 := by
  cases f
  case bitstring => exact absurd rfl hf
  all_goals decide

/-- The registers hold every header in range whole. -/
theorem setHdr_hdrOf_of_inRange (b : Block) {h : Header} (hrange : InRange h) : (b.setHdr h).hdrOf = h := by
  refine Header.ext_field fun f => ?_
  by_cases hf : f = .bitstring
  · subst hf
    exact (setHdr_hdrOf_bitstring b h).trans (Nat.mod_eq_of_lt (hrange .bitstring))
  · have hfits : h.field f < 2 ^ 32 :=
      (hrange f).trans_le (Nat.pow_le_pow_right two_pos (width_le_of_ne_bitstring hf))
    rw [setHdr_hdrOf_field b h hf, Nat.mod_eq_of_lt hfits]

/-- Writing back the header that the registers hold changes nothing. -/
theorem setHdr_hdrOf_self (b : Block) : b.setHdr b.hdrOf = b := by
  have hword {k : Nat} {r : Reg} (hr : Reg.bitstring[k]? = some r) := bsWord_hdrOf b hr
  rw [Block.setHdr, hword (k := 0) rfl, hword (k := 1) rfl, hword (k := 2) rfl, hword (k := 3) rfl,
    hword (k := 4) rfl, hword (k := 5) rfl, hword (k := 6) rfl, hword (k := 7) rfl]
  simp only [Block.hdrOf, BitVec.ofNat_toNat, BitVec.setWidth_eq, Block.reg]

/-! ### ENCODE and DECODE (40_codec.md R142, R143) -/

theorem withEncodedHeader_hdrOf (b : Block) : b.withEncodedHeader.hdrOf = b.hdrOf := by
  rw [Block.withEncodedHeader, setReg_hdrOf_control _ _ (by decide), store_hdrOf]

/-- WBUF after ENCODE. -/
theorem bytes_withEncodedHeader (b : Block) :
    b.withEncodedHeader.bytes wbufBase hdrBytes = headerBytes b.hdrOf := by
  have hstored := bytes_store b wbufBase (headerBytes b.hdrOf)
  rwa [headerBytes_length, ← bytes_congr (setReg_mem ..) (setReg_epoch ..)] at hstored

/-- ENCODE leaves WLEN.LEN = 44. -/
theorem lenOf_wlen_withEncodedHeader (b : Block) : lenOf b.withEncodedHeader.wlen = hdrBytes := rfl

/-- The header registers as a successful DECODE leaves them (40_codec.md R143). -/
def Block.withDecodedHeader (b : Block) : Block := b.setHdr (headerOfBytes (b.bytes wbufBase hdrBytes))

theorem exec_decode_of_lenOf {s : State} (hlen : lenOf s.block.wlen = hdrBytes) :
    exec .decode s = .next { s with block := s.block.withDecodedHeader.complete } := by
  rw [exec_eq_finish, commandResult, decodeResult, if_neg (not_not.mpr hlen),
    decodeHeader_of_length (bytes_length s.block wbufBase hdrBytes)]
  rfl

theorem complete_withDecodedHeader (b : Block) : b.complete.withDecodedHeader = b.withDecodedHeader.complete := rfl

theorem complete_complete (b : Block) : b.complete.complete = b.complete := rfl

theorem inRange_headerOfBytes_wbuf (b : Block) : InRange (headerOfBytes (b.bytes wbufBase hdrBytes)) :=
  inRange_headerOfBytes (bytes_length ..)

/-- The registers hold the header of WBUF after DECODE. -/
theorem withDecodedHeader_hdrOf (b : Block) :
    b.withDecodedHeader.hdrOf = headerOfBytes (b.bytes wbufBase hdrBytes) :=
  setHdr_hdrOf_of_inRange b (inRange_headerOfBytes_wbuf b)

/-- A header that DECODE has written is in range (40_codec.md R137). -/
theorem inRange_withDecodedHeader (b : Block) : InRange b.withDecodedHeader.complete.hdrOf := by
  rw [complete_hdrOf, withDecodedHeader_hdrOf]
  exact inRange_headerOfBytes_wbuf b

/-- DECODE after ENCODE reads the header that the registers hold already. -/
theorem withDecodedHeader_withEncodedHeader {b : Block} (hrange : InRange b.hdrOf) :
    b.withEncodedHeader.withDecodedHeader = b.withEncodedHeader := by
  rw [Block.withDecodedHeader, bytes_withEncodedHeader, headerOfBytes_headerBytes hrange, ← withEncodedHeader_hdrOf,
    setHdr_hdrOf_self]

/-- ENCODE after DECODE writes the bytes that WBUF holds already. -/
theorem bytes_withEncodedHeader_withDecodedHeader (b : Block) :
    b.withDecodedHeader.complete.withEncodedHeader.complete.bytes wbufBase hdrBytes = b.bytes wbufBase hdrBytes := by
  rw [complete_bytes, bytes_withEncodedHeader, complete_hdrOf, withDecodedHeader_hdrOf]
  exact headerBytes_headerOfBytes (bytes_length ..)

/-- DECODE after a successful ENCODE changes nothing (40_codec.md R144). -/
theorem exec_decode_withEncodedHeader (s : State) {b : Block} (hrange : InRange b.hdrOf) :
    exec .decode { s with block := b.withEncodedHeader.complete } =
      .next { s with block := b.withEncodedHeader.complete } := by
  have hlen : lenOf b.withEncodedHeader.complete.wlen = hdrBytes := by
    rw [complete_wlen, lenOf_wlen_withEncodedHeader]
  rw [exec_decode_of_lenOf hlen]
  dsimp only
  rw [complete_withDecodedHeader, withDecodedHeader_withEncodedHeader hrange, complete_complete]

/-- Settles O22: ENCODE leaves WLEN = 44 and the wire bytes of the header that the registers hold; DECODE leaves a header
in range whose wire bytes are those of WBUF. -/
theorem roundTripThroughTheRegisters : Obligations.RoundTripThroughTheRegisters := by
  unfold Obligations.RoundTripThroughTheRegisters
  refine ⟨fun s hrange => ?_, fun s hlen => ?_⟩
  · exact ⟨_, exec_encode_of_inRange hrange, exec_decode_withEncodedHeader s hrange, complete_status _⟩
  · exact ⟨_, _, exec_decode_of_lenOf hlen, exec_encode_of_inRange (inRange_withDecodedHeader s.block),
      bytes_withEncodedHeader_withDecodedHeader s.block⟩

/-- Settles O23: the header that DECODE has written is in range, and STATUS is that of a success already. -/
theorem decodedRegistersValidate : Obligations.DecodedRegistersValidate := by
  unfold Obligations.DecodedRegistersValidate
  intro s hlen
  have hvalid := validateHeader_eq_ok_iff.mpr (inRange_withDecodedHeader s.block)
  exact ⟨_, exec_decode_of_lenOf hlen, exec_validate_of_ok hvalid, complete_status _⟩

/-! ### validate reports the lowest failing field (40_codec.md R132) -/

theorem idx_pairwise_all : Field.all.Pairwise fun f g => f.idx < g.idx := by decide

/-- The fields before `f` in the table are those of lower index (40_codec.md R130). -/
theorem mem_before_iff_idx_lt {as bs : List Field} {f : Field} (hall : Field.all = as ++ f :: bs) (g : Field) :
    g ∈ as ↔ g.idx < f.idx := by
  have hsorted := hall ▸ idx_pairwise_all
  obtain ⟨-, hlater, hearlier⟩ := List.pairwise_append.mp hsorted
  refine ⟨fun hg => hearlier g hg f List.mem_cons_self, fun hlt => ?_⟩
  have hg : g ∈ as ++ f :: bs := hall ▸ g.mem_all
  refine (List.mem_append.mp hg).resolve_right fun hrest => ?_
  rcases List.mem_cons.mp hrest with rfl | hmem
  · exact absurd hlt (Nat.lt_irrefl _)
  · exact absurd hlt (Nat.lt_asymm (List.rel_of_pairwise_cons hlater hmem))

/-- The search of validate finds the lowest failing field. -/
theorem find?_failing_eq_some_iff {h : Header} {f : Field} :
    (Field.all.find? fun g => 2 ^ g.width ≤ h.field g) = some f ↔ LowestFailing h f := by
  rw [List.find?_eq_some_iff_append, decide_eq_true_iff, LowestFailing]
  refine and_congr_right fun _ => ⟨?_, fun hlower => ?_⟩
  · rintro ⟨as, bs, hall, hpass⟩ g hg
    simpa using hpass g ((mem_before_iff_idx_lt hall g).mpr hg)
  · obtain ⟨as, bs, hall⟩ := List.append_of_mem f.mem_all
    refine ⟨as, bs, hall, fun g hg => ?_⟩
    simpa using hlower g ((mem_before_iff_idx_lt hall g).mp hg)

theorem validateHeader_of_lowestFailing {h : Header} {f : Field} (hf : LowestFailing h f) :
    validateHeader h = .error (.rangeError f) := by
  rw [validateHeader, find?_failing_eq_some_iff.mpr hf]

/-- An error of validate is the RangeError of the lowest failing field. -/
theorem lowestFailing_of_validateHeader {h : Header} {e : CmdError} (herror : validateHeader h = .error e) :
    ∃ f, e = .rangeError f ∧ LowestFailing h f := by
  unfold validateHeader at herror
  split at herror
  · cases herror
    exact ⟨_, rfl, find?_failing_eq_some_iff.mp ‹_›⟩
  · cases herror

/-- Settles O3: the fields are searched in index order. -/
theorem validateReportsLowestFailingField : Obligations.ValidateReportsLowestFailingField := by
  unfold Obligations.ValidateReportsLowestFailingField
  refine fun h => ⟨validateHeader_eq_ok_iff, fun f => ⟨fun herror => ?_, validateHeader_of_lowestFailing⟩,
    fun e herror => ?_⟩
  · obtain ⟨g, hg, hlowest⟩ := lowestFailing_of_validateHeader herror
    cases hg
    exact hlowest
  · obtain ⟨f, hf, -⟩ := lowestFailing_of_validateHeader herror
    exact ⟨f, hf⟩

/-! ### The header in the registers (40_codec.md R140) -/

theorem hdrOf_bitstring_lt (b : Block) : b.hdrOf.bitstring < 2 ^ 256 := by
  have hwords : 2 ^ 256 = (2 ^ 32) ^ 8 := Nat.pow_mul 2 32 8
  rw [hwords]
  exact catWords_lt _

/-- A bitstring word is its slice of the bitstring, whole. -/
theorem toNat_bsWord (v : Nat) {k : Nat} (hk : k < 8) :
    (bsWord v k).toNat = slice v (255 - 32 * k) (224 - 32 * k) := by
  have hlt : slice v (255 - 32 * k) (224 - 32 * k) < 2 ^ 32 :=
    (slice_lt _ _ _).trans_eq (congrArg (2 ^ ·) (by omega))
  rw [bsWord, BitVec.toNat_ofNat, Nat.mod_eq_of_lt hlt]

/-- BSk stands at its offset (10_state.md R33). -/
theorem offset_bitstring {k : Nat} (hk : k < Reg.bitstring.length) : Reg.bitstring[k].offset = 0x0080 + 4 * k := by
  have hall : ∀ i : Fin 8, Reg.bitstring[i].offset = 0x0080 + 4 * i.val := by decide
  exact hall ⟨k, hk⟩

/-- A block whose field registers hold all ones. -/
def fieldsAllOnes : Block := Reg.fields.foldl (fun b r => b.setReg r 0xFFFFFFFF) (Block.reset 0)

/-- Settles O11: each field stands in its register; a register of all ones is above every scalar field's width, and eight
words are 256 bits. -/
theorem headerViewIsTheRegisters : Obligations.HeaderViewIsTheRegisters := by
  unfold Obligations.HeaderViewIsTheRegisters
  refine ⟨fun b f hf => ?_, fun b k hk => ?_, hdrOf_bitstring_lt, fieldsAllOnes, fun f hf => ?_⟩
  · cases f
    case bitstring => exact absurd rfl hf
    all_goals exact ⟨_, rfl, rfl, rfl⟩
  · have hr : Reg.bitstring[k]? = some Reg.bitstring[k] := List.getElem?_eq_getElem hk
    refine ⟨_, hr, offset_bitstring hk, ?_⟩
    rw [← toNat_bsWord _ hk, bsWord_hdrOf b hr]
  · cases f
    case bitstring => exact absurd rfl hf
    all_goals decide

/-! ### Commands that fail (60_exceptions.md R203) -/

theorem statusWord_rangeError (f : Field) : (CmdError.rangeError f).statusWord = rangeStatus f := by
  cases f <;> rfl

/-- A command that fails writes STATUS only. -/
theorem exec_of_error {i : Instr} {s : State} {e : CmdError} (h : commandResult s.params s.block i = .error e) :
    exec i s = .next (s.withStatus e.statusWord) := by
  rw [exec_eq_finish, h]
  rfl

/-- The bitstring is never the lowest failing field of the registers (40_codec.md R141). -/
theorem ne_bitstring_of_lowestFailing {b : Block} {f : Field} (hf : LowestFailing b.hdrOf f) : f ≠ .bitstring := by
  rintro rfl
  exact absurd (hdrOf_bitstring_lt b) (Nat.not_lt.mpr hf.1)

section
variable {s : State} {f : Field} (hf : LowestFailing s.block.hdrOf f)
include hf

theorem exec_validate_of_lowestFailing : exec .validate s = .next (s.withStatus (rangeStatus f)) := by
  have hresult : commandResult s.params s.block .validate = .error (.rangeError f) := by
    rw [commandResult, validateResult, validateHeader_of_lowestFailing hf]
  rw [exec_of_error hresult, statusWord_rangeError]

theorem exec_encode_of_lowestFailing : exec .encode s = .next (s.withStatus (rangeStatus f)) := by
  have hresult : commandResult s.params s.block .encode = .error (.rangeError f) := by
    rw [commandResult, encodeResult, encodeHeader, validateHeader_of_lowestFailing hf]
  rw [exec_of_error hresult, statusWord_rangeError]

end

/-- Settles O12: VALIDATE has no result but validate's answer, and eight words are never out of range. -/
theorem validateWritesStatusOnly : Obligations.ValidateWritesStatusOnly := by
  unfold Obligations.ValidateWritesStatusOnly
  exact fun s => ⟨fun hrange => exec_validate_of_ok (validateHeader_eq_ok_iff.mpr hrange),
    fun f hf => ⟨ne_bitstring_of_lowestFailing hf, exec_validate_of_lowestFailing hf⟩⟩

/-! ### The whole effect of ENCODE and DECODE (40_codec.md R142, R143) -/

theorem commandResult_encode {p : Params} {b : Block} (hrange : InRange b.hdrOf) :
    commandResult p b .encode = .ok b.withEncodedHeader := by
  rw [commandResult, encodeResult, encodeHeader_of_inRange hrange]
  rfl

/-- What a successful ENCODE writes and leaves. -/
theorem headerEncoded_withEncodedHeader {s : State} (hrange : InRange s.block.hdrOf) :
    HeaderEncoded s (headerBytes s.block.hdrOf) { s with block := s.block.withEncodedHeader.complete } := by
  have hframe := commandFrame_finish s.params .encode s.block
  rw [commandResult_encode hrange, finish_ok] at hframe
  obtain ⟨hepoch, hreg, hbyte⟩ := hframe
  refine ⟨rfl, ?_, complete_wlen _, complete_status _, fun r hstatus hwlen => ?_, fun a ha => ?_, hepoch⟩
  · exact (complete_bytes ..).trans (bytes_withEncodedHeader s.block)
  · exact hreg r hstatus fun h => hwlen (List.mem_singleton.mp h)
  · exact hbyte a fun hmem => hmem.elim (fun h => ha h.2) nofun

/-- Settles O13: ENCODE stores the wire bytes and WLEN, or fails on the lowest failing field. -/
theorem encodeWritesWbufAndWlen : Obligations.EncodeWritesWbufAndWlen := by
  unfold Obligations.EncodeWritesWbufAndWlen
  exact fun s => ⟨fun hrange => ⟨_, _, exec_encode_of_inRange hrange, encodeHeader_of_inRange hrange,
    headerEncoded_withEncodedHeader hrange⟩, fun f => exec_encode_of_lowestFailing⟩

theorem setHdr_reg_field (b : Block) (h : Header) {f : Field} {r : Reg} (hr : f.reg = some r) :
    (b.setHdr h).reg r = BitVec.ofNat 32 (h.field f) := by
  cases f
  case bitstring => cases hr
  all_goals
    cases hr
    rfl

/-- Bitstring word `k` of 44 wire bytes is their word at byte `12 + 4 * k` (30_encoding.md R95). -/
theorem bsWord_headerOfBytes {bytes : List Byte} (hlength : bytes.length = hdrBytes) {k : Nat} (hk : k < 8) :
    bsWord (headerOfBytes bytes).bitstring k = BitVec.ofNat 32 (wordAt bytes (12 + 4 * k)) := by
  rw [bsWord, ← wordAt_headerBytes_bitstring (inRange_headerOfBytes hlength) hk, headerBytes_headerOfBytes hlength]

/-- A word inside a stretch of bytes. -/
theorem ofNat_wordAt_bytes (b : Block) (a : Nat) {n i : Nat} (hi : i + 4 ≤ n) :
    BitVec.ofNat 32 (wordAt (b.bytes a n) i) = laneWord b (a + i) := by
  rw [wordAt, bytes_drop_take _ _ _ _ _ hi, ← loadWord_eq_laneWord, Block.loadWord]

/-- DECODE leaves in BSk the word of WBUF at byte `12 + 4 * k`. -/
theorem withDecodedHeader_reg_bitstring (b : Block) {k : Nat} {r : Reg} (hr : Reg.bitstring[k]? = some r) :
    b.withDecodedHeader.reg r = laneWord b (wbufBase + 12 + 4 * k) := by
  have hk : k < 8 := (List.getElem?_eq_some_iff.mp hr).1
  rw [Block.withDecodedHeader, setHdr_reg_bitstring _ _ hr, bsWord_headerOfBytes (bytes_length ..) hk,
    ofNat_wordAt_bytes _ _ (by rw [hdrBytes]; omega), Nat.add_assoc]

/-- DECODE leaves in a field register the field's header bits of WBUF. -/
theorem withDecodedHeader_reg_field (b : Block) {f : Field} {r : Reg} (hr : f.reg = some r) :
    b.withDecodedHeader.reg r = BitVec.ofNat 32 (f.bitsIn (catBytes (b.bytes wbufBase hdrBytes))) := by
  rw [Block.withDecodedHeader, setHdr_reg_field _ _ hr, headerOfBytes_field (bytes_length b wbufBase hdrBytes)]

theorem ne_status_of_header {r : Reg} (hr : r ∈ Reg.fields ++ Reg.bitstring) : r ≠ .status := fun h =>
  absurd (h ▸ hr) (by decide)

theorem mem_fields_of_reg {f : Field} {r : Reg} (hr : f.reg = some r) : r ∈ Reg.fields := by
  cases f
  case bitstring => cases hr
  all_goals
    cases hr
    decide

/-- What a successful DECODE writes and leaves. -/
theorem headerDecoded_withDecodedHeader (s : State) :
    HeaderDecoded s { s with block := s.block.withDecodedHeader.complete } where
  onlyBlock := rfl
  fields f r hr := by
    have hstatus := ne_status_of_header (List.mem_append_left _ (mem_fields_of_reg hr))
    exact (complete_reg_of_ne _ hstatus).trans (withDecodedHeader_reg_field s.block hr)
  bitstring k r hr := by
    have hstatus := ne_status_of_header (List.mem_append_right _ (List.mem_of_getElem? hr))
    exact (complete_reg_of_ne _ hstatus).trans (withDecodedHeader_reg_bitstring s.block hr)
  status := rfl
  control r hr hstatus := (complete_reg_of_ne _ hstatus).trans (setHdr_reg_control s.block _ hr)
  mem := rfl
  epoch := rfl

theorem lenOf_eq_toNat (w : Word) : lenOf w = (w.extractLsb' 0 16).toNat := rfl

theorem lenOf_eq_hdrBytes_iff {w : Word} : lenOf w = hdrBytes ↔ w.extractLsb' 0 16 = 44 := by
  rw [lenOf_eq_toNat, ← BitVec.toNat_inj]
  rfl

/-- Settles O15: DECODE writes the header of the 44 bytes to the registers, or fails on the length. -/
theorem decodeWritesHeaderRegisters : Obligations.DecodeWritesHeaderRegisters := by
  unfold Obligations.DecodeWritesHeaderRegisters
  refine fun s => ⟨fun hlen => ?_, fun hlen => ?_⟩
  · exact ⟨_, exec_decode_of_lenOf (lenOf_eq_hdrBytes_iff.mpr hlen), headerDecoded_withDecodedHeader s⟩
  · have hresult : commandResult s.params s.block .decode = .error (.lengthError .decodeInput) :=
      if_pos (mt lenOf_eq_hdrBytes_iff.mp hlen)
    exact exec_of_error hresult

/-! ### ENCODE and the registers it does not read (40_codec.md R142) -/

/-- Writes of STATUS and of another register can change places. -/
theorem setReg_status_comm (b : Block) (v w : Word) {r : Reg} (hr : r ≠ .status) :
    (b.setReg r v).setReg .status w = (b.setReg .status w).setReg r v := by
  cases r
  case status => exact absurd rfl hr
  all_goals rfl

/-- Writes of WLEN and of another register can change places. -/
theorem setReg_wlen_comm (b : Block) (v w : Word) {r : Reg} (hr : r ≠ .wlen) :
    (b.setReg r v).setReg .wlen w = (b.setReg .wlen w).setReg r v := by
  cases r
  case wlen => exact absurd rfl hr
  all_goals rfl

/-- Writes of a register and of a buffer can change places. -/
theorem setReg_store (b : Block) (a : Nat) (l : List Byte) (r : Reg) (v : Word) :
    (b.setReg r v).store a l = (b.store a l).setReg r v := by
  cases r <;> rfl

theorem complete_eq_setReg (b : Block) : b.complete = b.setReg .status okStatus := rfl

theorem withStatus_eq_setReg (s : State) (w : Word) :
    s.withStatus w = { s with block := s.block.setReg .status w } := rfl

/-- A control register that ENCODE does not write plays no part in it. -/
theorem withEncodedHeader_setReg (b : Block) (v : Word) {r : Reg} (hcontrol : r ∈ Reg.control) (hstatus : r ≠ .status)
    (hwlen : r ≠ .wlen) :
    (b.setReg r v).withEncodedHeader.complete = b.withEncodedHeader.complete.setReg r v := by
  rw [Block.withEncodedHeader, Block.withEncodedHeader, setReg_hdrOf_control b v hcontrol, setReg_store,
    setReg_wlen_comm _ _ _ hwlen, complete_eq_setReg, setReg_status_comm _ _ _ hstatus, complete_eq_setReg]

/-- Settles O19: the header is read from the header registers alone, and ENCODE writes none of the registers named. -/
theorem encodeIgnoresTheFrameRegisters : Obligations.EncodeIgnoresTheFrameRegisters := by
  unfold Obligations.EncodeIgnoresTheFrameRegisters
  intro s r v hr
  obtain ⟨hcontrol, hstatus, hwlen⟩ : r ∈ Reg.control ∧ r ≠ .status ∧ r ≠ .wlen := by
    revert r
    decide
  have hhdr : (s.block.setReg r v).hdrOf = s.block.hdrOf := setReg_hdrOf_control s.block v hcontrol
  cases hvalid : validateHeader s.block.hdrOf with
  | ok =>
    have hrange : InRange s.block.hdrOf := validateHeader_eq_ok_iff.mp hvalid
    refine ⟨_, exec_encode_of_inRange hrange, ?_⟩
    rw [exec_encode_of_inRange (hhdr.symm ▸ hrange), withEncodedHeader_setReg s.block v hcontrol hstatus hwlen]
  | error e =>
    obtain ⟨f, -, hf⟩ := lowestFailing_of_validateHeader hvalid
    refine ⟨_, exec_encode_of_lowestFailing hf, ?_⟩
    rw [exec_encode_of_lowestFailing (hhdr.symm ▸ hf), withStatus_eq_setReg, withStatus_eq_setReg,
      setReg_status_comm _ _ _ hstatus]

end Sys2Proof.Machine

namespace Sys2Proof.Machine

/-! ### The link-layer header in registers (30_encoding.md R103, 10_state.md R26, R27) -/

theorem macLo_macOf (hi lo : Word) : macLo (macOf hi lo) = lo := BitVec.extractLsb'_append_eq_right

/-- The HI part of an address is the implemented bits of the HI register. -/
theorem macHi_macOf (hi lo : Word) : macHi (macOf hi lo) = (hi.extractLsb' 0 16).setWidth 32 :=
  congrArg (BitVec.setWidth 32) BitVec.extractLsb'_append_eq_left

/-- The RES0 bits of the HI register are no part of the address's bytes. -/
theorem macBytes_extractLsb'_hi (hi lo : Word) : macBytes ((hi.extractLsb' 0 16).setWidth 32) lo = macBytes hi lo := by
  have hbyte {start : Nat} (hstart : start + 8 ≤ 16) :
      ((hi.extractLsb' 0 16).setWidth 32).extractLsb' start 8 = hi.extractLsb' start 8 := by
    rw [BitVec.extractLsb'_setWidth_of_le (by omega), extractLsb'_extractLsb'_add _ hstart, Nat.zero_add]
  rw [macBytes, hbyte (by decide), hbyte (by decide), ← macBytes]

theorem be48_macOf (hi lo : Word) : be48 (macOf hi lo) = macBytes hi lo := by
  rw [← macBytes_macHi_macLo, macHi_macOf, macLo_macOf, macBytes_extractLsb'_hi]

theorem be16_extractLsb' (w : Word) : be16 (w.extractLsb' 0 16) = [w.extractLsb' 8 8, w.extractLsb' 0 8] := by
  have hbytes : be16 (w.extractLsb' 0 16) =
      [(w.extractLsb' 0 16).extractLsb' 8 8, (w.extractLsb' 0 16).extractLsb' 0 8] := rfl
  rw [hbytes, extractLsb'_extractLsb'_add _ (by decide), extractLsb'_extractLsb'_add _ (by decide)]

/-- The link-layer header of the registers' configuration, register by register. -/
theorem linkHeader_frameCfg (b : Block) (etype : Word) :
    linkHeader b.frameCfg (etype.extractLsb' 0 16) = linkBytes b etype := by
  rw [linkHeader, be16_extractLsb', Block.frameCfg, be48_macOf, be48_macOf, linkBytes]

@[simp] theorem linkBytes_length (b : Block) (etype : Word) : (linkBytes b etype).length = 14 := rfl

/-! ### The frame that MARSHAL builds (41_marshal.md R170, R173) -/

/-- `frame(cfg, hdrOf(state), L3BUF[0 .. L3LEN.LEN-1])` (41_marshal.md R173). -/
def Block.frame (b : Block) : Except CmdError (List Byte) :=
  frameBytes b.frameCfg b.hdrOf (b.bytes l3bufBase (lenOf b.l3len))

theorem frameCfg_bierEn_iff {b : Block} : b.frameCfg.bierEn = true ↔ BierEn b := Iff.rfl

theorem frame_of_bierEn {b : Block} (hen : BierEn b) (hrange : InRange b.hdrOf) :
    b.frame = .ok (linkBytes b b.etypeBier ++ headerBytes b.hdrOf ++ b.bytes l3bufBase (lenOf b.l3len)) := by
  rw [Block.frame, frameBytes, if_pos (frameCfg_bierEn_iff.mpr hen), encodeHeader_of_inRange hrange,
    ← linkHeader_frameCfg b b.etypeBier]
  rfl

theorem frame_of_not_bierEn {b : Block} (hen : ¬BierEn b) :
    b.frame = .ok (linkBytes b b.etypeIp ++ b.bytes l3bufBase (lenOf b.l3len)) := by
  rw [Block.frame, frameBytes, if_neg (mt frameCfg_bierEn_iff.mp hen), ← linkHeader_frameCfg b b.etypeIp]
  rfl

/-- There is a frame only where the header, if it is to be read, is in range. -/
theorem inRange_of_frame_ok {b : Block} {frame : List Byte} (hframe : b.frame = .ok frame) (hen : BierEn b) :
    InRange b.hdrOf := by
  rw [Block.frame, frameBytes, if_pos (frameCfg_bierEn_iff.mpr hen)] at hframe
  cases hbytes : encodeHeader b.hdrOf with
  | error e =>
    rw [hbytes] at hframe
    cases hframe
  | ok bytes => exact validateHeader_eq_ok_iff.mp (encodeHeader_ok hbytes).1

theorem frame_length_le {p : Params} {b : Block} {frame : List Byte} (hframe : b.frame = .ok frame)
    (hl3 : lenOf b.l3len ≤ p.l3Max) : frame.length ≤ p.frameMax := by
  have hlength := frameBytes_length_le hframe
  rw [bytes_length] at hlength
  exact hlength.trans (Nat.add_le_add_left hl3 _)

/-! ### The outcomes of MARSHAL (41_marshal.md R173, 60_exceptions.md R205) -/

/-- The header check of MARSHAL passes: the header is checked only when BIER_EN = 1. -/
theorem marshalCheck_of_inRange {b : Block} (hrange : BierEn b → InRange b.hdrOf) :
    (if b.frameCfg.bierEn then validateHeader b.hdrOf else .ok ()) = .ok () := by
  split
  · exact validateHeader_eq_ok_iff.mpr (hrange (frameCfg_bierEn_iff.mp ‹_›))
  · rfl

theorem exec_marshal_of_lowestFailing {s : State} {f : Field} (hen : BierEn s.block)
    (hf : LowestFailing s.block.hdrOf f) : exec .marshal s = .next (s.withStatus (rangeStatus f)) := by
  have hresult : commandResult s.params s.block .marshal = .error (.rangeError f) := by
    simp only [commandResult, marshalResult, if_pos (frameCfg_bierEn_iff.mpr hen),
      validateHeader_of_lowestFailing hf]
  rw [exec_of_error hresult, statusWord_rangeError]

theorem exec_marshal_of_l3Max_lt {s : State} (hrange : BierEn s.block → InRange s.block.hdrOf)
    (hl3 : s.params.l3Max < lenOf s.block.l3len) : exec .marshal s = .next (s.withStatus 0x00000123) := by
  have hresult : commandResult s.params s.block .marshal = .error (.lengthError .l3Length) := by
    simp only [commandResult, marshalResult, marshalCheck_of_inRange hrange, if_pos hl3]
  exact exec_of_error hresult

section
variable {s : State} {frame : List Byte} (hframe : s.block.frame = .ok frame)
  (hl3 : lenOf s.block.l3len ≤ s.params.l3Max)
include hframe hl3

theorem commandResult_marshal :
    commandResult s.params s.block .marshal = .ok (s.block.withFrame s.params frame) := by
  have hcheck := marshalCheck_of_inRange (inRange_of_frame_ok hframe)
  rw [Block.frame] at hframe
  simp only [commandResult, marshalResult, hcheck, if_neg (Nat.not_lt.mpr hl3), hframe, Block.withFrame]

theorem exec_marshal_of_frame_ok :
    exec .marshal s = .next { s with block := (s.block.withFrame s.params frame).complete } := by
  rw [exec_eq_finish, commandResult_marshal hframe hl3]
  rfl

/-- The new FLEN holds the frame's length whole. -/
theorem withFrame_flen_toNat : (s.block.withFrame s.params frame).flen.toNat = frame.length := by
  have hfits : frame.length ≤ 14 + 44 + s.params.l3Max := frame_length_le hframe hl3
  have hmax := l3Max_le s.params
  rw [withFrame_flen, BitVec.toNat_ofNat, Nat.mod_eq_of_lt (by omega)]

/-- What a successful MARSHAL writes and leaves. -/
theorem frameBuilt_withFrame :
    FrameBuilt s frame { s with block := (s.block.withFrame s.params frame).complete } := by
  have hkept := commandFrame_finish s.params .marshal s.block
  rw [commandResult_marshal hframe hl3, finish_ok] at hkept
  obtain ⟨hepoch, hreg, hbyte⟩ := hkept
  refine ⟨rfl, ?_, withFrame_flen_toNat hframe hl3, complete_status _, fun r hstatus hflen => ?_, fun a ha => ?_,
    hepoch⟩
  · rw [complete_bytes, Block.withFrame, bytes_congr (setReg_mem ..) (setReg_epoch ..), bytes_store]
  · exact hreg r hstatus fun h => hflen (List.mem_singleton.mp h)
  · exact hbyte a fun hmem => hmem.elim nofun fun h => ha h.2

end

/-- Settles O16: the header check, the length check and the frame are those of R173, in this order, and the frame with
its length is all that is written. -/
theorem marshalBuildsTheFrame : Obligations.MarshalBuildsTheFrame := by
  unfold Obligations.MarshalBuildsTheFrame
  refine fun s => ⟨fun f => exec_marshal_of_lowestFailing, exec_marshal_of_l3Max_lt, fun hen hrange hl3 => ?_,
    fun hen hl3 => ?_⟩
  · have hframe := frame_of_bierEn hen hrange
    refine ⟨_, _, exec_marshal_of_frame_ok hframe hl3, encodeHeader_of_inRange hrange, ?_,
      frameBuilt_withFrame hframe hl3⟩
    simp only [complete_flen, withFrame_flen_toNat hframe hl3, List.length_append, linkBytes_length,
      headerBytes_length, bytes_length, hdrBytes]
  · have hframe := frame_of_not_bierEn hen
    refine ⟨_, exec_marshal_of_frame_ok hframe hl3, ?_, frameBuilt_withFrame hframe hl3⟩
    simp only [complete_flen, withFrame_flen_toNat hframe hl3, List.length_append, linkBytes_length, bytes_length]

/-! ### Where the parts of a frame stand (41_marshal.md R175) -/

/-- Bytes that are two sequences in a row hold each of them at its place. -/
theorem bytes_eq_of_append {b : Block} {a : Nat} {l m : List Byte} (h : b.bytes a (l ++ m).length = l ++ m) :
    b.bytes a l.length = l ∧ b.bytes (a + l.length) m.length = m := by
  have hlength := List.length_append (as := l) (bs := m)
  have hfirst := bytes_drop_take b a (l ++ m).length 0 l.length (by omega)
  have hsecond := bytes_drop_take b a (l ++ m).length l.length m.length (by omega)
  rw [h] at hfirst hsecond
  exact ⟨by simpa using hfirst.symm, by simpa using hsecond.symm⟩

/-- Equal stretches of bytes are equal byte by byte. -/
theorem byte_eq_of_bytes_eq {b c : Block} {x y n k : Nat} (h : b.bytes x n = c.bytes y n) (hk : k < n) :
    b.byte (x + k) = c.byte (y + k) :=
  List.map_inj_left.mp h k (List.mem_range.mpr hk)

/-- The encoded header is its fixed part and the bitstring (30_encoding.md R96). -/
theorem headerBytes_eq_append (h : Header) : headerBytes h = (headerBytes h).take 12 ++ be256 h.bitstring := by
  rw [← drop_headerBytes, List.take_append_drop]

/-- Settles O17: the parts of the frame that FBUF holds follow one another. -/
theorem framePartsStandAtTheirBytes : Obligations.FramePartsStandAtTheirBytes := by
  unfold Obligations.FramePartsStandAtTheirBytes
  refine fun s hl3 => ⟨fun hen hrange => ?_, fun hen => ?_⟩
  · have hframe := frame_of_bierEn hen hrange
    refine ⟨_, _, exec_marshal_of_frame_ok hframe hl3, encodeHeader_of_inRange hrange, ?_⟩
    obtain ⟨hbefore, hpayload⟩ := bytes_eq_of_append (frameBuilt_withFrame hframe hl3).fbuf
    obtain ⟨-, hheader⟩ := bytes_eq_of_append hbefore
    have hparts := hheader
    rw [headerBytes_eq_append s.block.hdrOf] at hparts
    obtain ⟨hfixed, hbitstring⟩ := bytes_eq_of_append hparts
    rw [bytes_length] at hpayload
    exact ⟨hheader, hfixed, hbitstring, fun k => byte_eq_of_bytes_eq hpayload⟩
  · have hframe := frame_of_not_bierEn hen
    refine ⟨_, exec_marshal_of_frame_ok hframe hl3, fun k => ?_⟩
    obtain ⟨-, hpayload⟩ := bytes_eq_of_append (frameBuilt_withFrame hframe hl3).fbuf
    rw [bytes_length] at hpayload
    exact byte_eq_of_bytes_eq hpayload

/-! ### MARSHAL without BIER and the header registers (41_marshal.md R173) -/

/-- The frame and the header registers are written independently. -/
theorem withFrame_setHdr (p : Params) (b : Block) (frame : List Byte) (h : Header) :
    (b.setHdr h).withFrame p frame = (b.withFrame p frame).setHdr h := rfl

/-- STATUS and the header registers are written independently. -/
theorem withStatus_setHdr (s : State) (w : Word) (h : Header) :
    { s with block := s.block.setHdr h }.withStatus w =
      { s.withStatus w with block := (s.withStatus w).block.setHdr h } := rfl

/-- Without BIER the header registers play no part in the frame. -/
theorem frame_setHdr_of_not_bierEn {b : Block} (hen : ¬BierEn b) (h : Header) : (b.setHdr h).frame = b.frame :=
  (frame_of_not_bierEn (b := b.setHdr h) hen).trans (frame_of_not_bierEn hen).symm

/-- Settles O18: without BIER neither the checks nor the frame read the header, and MARSHAL writes none of its
registers. -/
theorem marshalWithoutBierIgnoresTheHeader : Obligations.MarshalWithoutBierIgnoresTheHeader := by
  unfold Obligations.MarshalWithoutBierIgnoresTheHeader
  intro s h hen
  by_cases hl3 : lenOf s.block.l3len ≤ s.params.l3Max
  · have hframe := frame_of_not_bierEn hen
    have hexec := exec_marshal_of_frame_ok (s := { s with block := s.block.setHdr h })
      ((frame_setHdr_of_not_bierEn hen h).trans hframe) hl3
    rw [withFrame_setHdr, ← complete_setHdr] at hexec
    exact ⟨_, exec_marshal_of_frame_ok hframe hl3, hexec⟩
  · have hlong := Nat.lt_of_not_le hl3
    have hexec := exec_marshal_of_l3Max_lt (s := { s with block := s.block.setHdr h }) (absurd · hen) hlong
    rw [withStatus_setHdr] at hexec
    exact ⟨_, exec_marshal_of_l3Max_lt (absurd · hen) hlong, hexec⟩

end Sys2Proof.Machine

namespace Sys2Proof.Machine

/-! ### Bus errors (60_exceptions.md R201, 20_memory.md R62, R63) -/

/-- No slot stands at an offset that is unmapped, nor is one reached in another width or off a word boundary. -/
theorem busSlot_eq_none {p : Params} {bits off : Nat} (hwindow : off < 0x4000)
    (h : bits ≠ 32 ∨ off % 4 ≠ 0 ∨ Unmapped p off) : busSlot p bits off = none := by
  unfold busSlot
  split
  · obtain ⟨hbits, haligned⟩ : bits = 32 ∧ off % 4 = 0 := by simpa [legalForm] using ‹legalForm bits off = true›
    have hunmapped : Unmapped p off := (h.resolve_left (not_not.mpr hbits)).resolve_left (not_not.mpr haligned)
    exact (slotAt_eq_none_iff_unmapped p haligned hwindow).mpr hunmapped
  · rfl

/-- Settles O31: the refused transaction reaches no slot, and every word written to CMD ends in a next state that is
answered OK. -/
theorem busErrorChangesNothing : Obligations.BusErrorChangesNothing := by
  unfold Obligations.BusErrorChangesNothing
  refine ⟨fun s off bits op rest hissued hwindow hrefused => ?_, fun s v rest hissued => ?_⟩
  · rw [step_access hissued]
    simp only [perform, offsetOf_base_add s.params hwindow, busSlot_eq_none hwindow hrefused]
    rfl
  · obtain ⟨b, hcommand⟩ := command_frame v { s with pending := rest }
    rw [step_write_cmd hissued, hcommand, mapNext_next]
    exact ⟨_, rfl, rfl⟩

/-! ### The errors of each command (60_exceptions.md R200, R207) -/

/-- The header check fails on the lowest failing field, which is not the bitstring. -/
theorem rangeError_of_validateHeader {b : Block} {e : CmdError} (h : validateHeader b.hdrOf = .error e) :
    ∃ f : Field, f ≠ .bitstring ∧ e = .rangeError f := by
  obtain ⟨f, he, hf⟩ := lowestFailing_of_validateHeader h
  exact ⟨f, ne_bitstring_of_lowestFailing hf, he⟩

theorem encodeHeader_error {h : Header} {e : CmdError} (herror : encodeHeader h = .error e) :
    validateHeader h = .error e := by
  unfold encodeHeader at herror
  split at herror
  · cases herror
    assumption
  · cases herror

/-- A frame fails on its header alone. -/
theorem frameBytes_error {c : FrameCfg} {h : Header} {l3 : List Byte} {e : CmdError}
    (herror : frameBytes c h l3 = .error e) : validateHeader h = .error e := by
  unfold frameBytes at herror
  split at herror
  · split at herror
    · cases herror
      exact encodeHeader_error ‹_›
    · cases herror
  · cases herror

theorem validateResult_error {b : Block} {e : CmdError} (h : validateResult b = .error e) :
    validateHeader b.hdrOf = .error e := by
  unfold validateResult at h
  split at h
  · cases h
    assumption
  · cases h

theorem encodeResult_error {b : Block} {e : CmdError} (h : encodeResult b = .error e) :
    validateHeader b.hdrOf = .error e := by
  unfold encodeResult at h
  split at h
  · cases h
    exact encodeHeader_error ‹_›
  · cases h

/-- DECODE fails on its input's length alone: the stretch of WBUF it reads has 44 bytes. -/
theorem decodeResult_error {b : Block} {e : CmdError} (h : decodeResult b = .error e) :
    e = .lengthError .decodeInput := by
  unfold decodeResult at h
  rw [decodeHeader_of_length (bytes_length b wbufBase hdrBytes)] at h
  split at h <;> cases h
  rfl

/-- MARSHAL fails on the header or on the layer-3 length. -/
theorem marshalResult_error {p : Params} {b : Block} {e : CmdError} (h : marshalResult p b = .error e) :
    validateHeader b.hdrOf = .error e ∨ e = .lengthError .l3Length := by
  unfold marshalResult at h
  dsimp only at h
  split at h
  · rename_i hcheck
    cases h
    split at hcheck
    · exact .inl hcheck
    · cases hcheck
  · split at h
    · cases h
      exact .inr rfl
    · split at h
      · cases h
        exact .inl (frameBytes_error ‹_›)
      · cases h

/-- The errors that 60_exceptions.md R200 gives each command. -/
theorem commandResult_error {p : Params} {b : Block} {i : Instr} {e : CmdError} (h : commandResult p b i = .error e) :
    (i ≠ .decode ∧ ∃ f : Field, f ≠ .bitstring ∧ e = .rangeError f) ∨
      (i = .decode ∧ e = .lengthError .decodeInput) ∨ (i = .marshal ∧ e = .lengthError .l3Length) := by
  cases i with
  | validate => exact .inl ⟨nofun, rangeError_of_validateHeader (validateResult_error h)⟩
  | encode => exact .inl ⟨nofun, rangeError_of_validateHeader (encodeResult_error h)⟩
  | decode => exact .inr (.inl ⟨rfl, decodeResult_error h⟩)
  | marshal =>
    obtain hheader | hlength := marshalResult_error h
    · exact .inl ⟨nofun, rangeError_of_validateHeader hheader⟩
    · exact .inr (.inr ⟨rfl, hlength⟩)

/-- Settles O20: a result that is written completes, an error is one of the command's and is all that is recorded, and a
rejected word records its bits [3:0]. -/
theorem failedCommandReplacesStatusOnly : Obligations.FailedCommandReplacesStatusOnly := by
  unfold Obligations.FailedCommandReplacesStatusOnly
  refine ⟨fun i s => ?_, fun v s hillegal => ?_⟩
  · cases hresult : commandResult s.params s.block i with
    | ok b =>
      rw [exec_eq_finish, hresult]
      exact ⟨_, rfl, .inl rfl⟩
    | error e =>
      refine ⟨_, exec_of_error hresult, .inr ?_⟩
      obtain ⟨hi, f, hf, rfl⟩ | ⟨hi, rfl⟩ | ⟨hi, rfl⟩ := commandResult_error hresult
      · exact .inl ⟨hi, f, hf, congrArg _ (statusWord_rangeError f)⟩
      · exact .inr (.inl ⟨hi, rfl⟩)
      · exact .inr (.inr ⟨hi, rfl⟩)
  · obtain ⟨r, hr⟩ := decode_error_of_forall_ne fun i hv => hillegal i (decode_eq_ok_iff.mpr hv)
    rw [command_of_decode_error hr, opc_of_decode_error hr, statusWord_illegalCommand]
    rfl

/-- Settles O24: IllegalCommand carries the low bits of any word that holds them. -/
theorem statusWordsOfTheErrors : Obligations.StatusWordsOfTheErrors := by
  unfold Obligations.StatusWordsOfTheErrors
  refine ⟨statusWord_rangeError, rfl, rfl, fun o => ?_⟩
  have hopc : (o.setWidth 32).extractLsb' 0 4 = o := by
    rw [BitVec.extractLsb'_setWidth_of_le (by decide), BitVec.extractLsb'_eq_self]
  have hlow : o.setWidth 32 &&& 0x0000000F = o.setWidth 32 := by
    have hmask := setWidth_extractLsb'_eq_and (o.setWidth 32) (n := 4) (by decide)
    rw [hopc] at hmask
    exact hmask.symm
  have hword := statusWord_illegalCommand (o.setWidth 32)
  rwa [hopc, hlow] at hword

end Sys2Proof.Machine

namespace Sys2Proof.Machine

/-! ### What the host agent goes on with (60_exceptions.md R222, R223, R230) -/

section
variable {s : State} {w : Word} {earlier : List Reply} (hreply : s.replies = .data w :: earlier)
include hreply

theorem onReply_of_data (k : Word → Host.Outcome State Fault Refusal) : onReply s k = k w := by
  unfold onReply
  rw [hreply]

theorem onStatus_of_ok (hok : w = okStatus) (done : Host.Outcome State Fault Refusal)
    (failed : CmdError → Host.Outcome State Fault Refusal) : onStatus s done failed = done := by
  subst hok
  exact onReply_of_data hreply _

theorem onStatus_of_error {e : CmdError} (herror : w = e.statusWord) (done : Host.Outcome State Fault Refusal)
    (failed : CmdError → Host.Outcome State Fault Refusal) : onStatus s done failed = failed e := by
  subst herror
  rw [onStatus, onReply_of_data hreply, if_pos (statusErr_statusWord e), ofStatus_statusWord]

end

/-! ### The host's log (60_exceptions.md R226) -/

@[simp] theorem addLog_log (s : State) (e : Nat → LogEntry) : (s.addLog e).gen.log = e s.tick.1 :: s.gen.log := rfl

@[simp] theorem addLog_stops (s : State) (e : Nat → LogEntry) : (s.addLog e).gen.stops = s.gen.stops := rfl

@[simp] theorem addLog_free (s : State) (e : Nat → LogEntry) : (s.addLog e).free = drawsAfter s.gen.times s.free := rfl

/-! ### Construction (60_exceptions.md R222) -/

section
variable {c : GeneratorConfig} (s : State)

theorem construct_of_pool_nil (hpool : c.pool = []) : construct c s = .next (s.failConstruction .emptyPoolError) :=
  if_pos hpool

theorem construct_of_template {h : Header} (hpool : c.pool ≠ []) (htemplate : c.template = some h) :
    construct c s =
      .next ((s.issue (setupLines c ++ ldHdr h ++ commandLines .validate)).setMode (.validating c)) := by
  rw [construct, if_neg hpool, htemplate]

theorem construct_of_no_template (hpool : c.pool ≠ []) (htemplate : c.template = none) :
    construct c s = .next ((s.issue (setupLines c)).setMode (.configuring c)) := by
  rw [construct, if_neg hpool, htemplate]

end

/-- Steps 2 and 3 of construction in pseudo-instructions and lines; BIER_EN says whether there is a template. -/
theorem setupLines_eq (c : GeneratorConfig) :
    setupLines c = Pseudo.expand (.ldMacDst c.ethDst) ++ Pseudo.expand (.ldMacSrc c.ethSrc) ++
      [.wr (.reg .etypeBier) (c.etypeBier.setWidth 32), .wr (.reg .etypeIp) (c.etypeIp.setWidth 32),
       .wr (.reg .mcfg) (if c.template.isSome then 1 else 0)] := rfl

/-- With nothing pending, what the host issues comes next. -/
theorem issue_pending_of_nil {s : State} (h : s.pending = []) (lines : List Line) :
    (s.issue lines).pending = accesses s.params lines := by
  rw [issue_pending, h, List.nil_append]

theorem commandLines_eq (i : Instr) : commandLines i = Pseudo.expand (.command i) ++ [.rd (.reg .status)] := rfl

/-- A construction that answers stays before `Running`. -/
theorem construct_hostState {c : GeneratorConfig} {s t : State} (h : construct c s = .next t) :
    t.gen.mode.hostState = .idle := by
  unfold construct at h
  split at h
  · cases h
    rfl
  · split at h <;> cases h <;> rfl

/-! ### The phases of an iteration (60_exceptions.md R223) -/

/-- The host after its draw of a destination. -/
def State.drawn (s : State) : State :=
  { s with
    free := drawsAfter s.gen.draws s.free
    gen := { s.gen with draws := (nextAnswer s.gen.draws (Config.rngDraw s.free)).2 } }

theorem select_of_drawn {c : GeneratorConfig} {s : State} {dst : Destination}
    (h : drawnDestination c (nextAnswer s.gen.draws (Config.rngDraw s.free)).1 = some dst) :
    select c s = .next ((s.drawn.issue
      (hostLdBuf s.params (s.gen.serialize c dst) ++ commandLines .marshal)).setMode
        (.running c (.marshalling dst))) := by
  unfold select
  dsimp only
  rw [h]
  rfl

/-- The host after it handed a frame to `send`. -/
def State.handedOn (s : State) (c : GeneratorConfig) (frame : List Byte) : State :=
  { s with
    free := drawsAfter s.gen.sends s.free
    gen := { s.gen with
      sends := (nextAnswer s.gen.sends (Config.sendResult s.free c.ifName frame)).2
      sent := frame :: s.gen.sent } }

section
variable {c : GeneratorConfig} {dst : Destination} {frame : List Byte} {s : State}

theorem send_of_ok (h : (nextAnswer s.gen.sends (Config.sendResult s.free c.ifName frame)).1 = .ok) :
    send c dst frame s = (s.handedOn c frame).setMode (.running c (.logging dst frame.length)) := by
  unfold send
  dsimp only
  rw [h]
  rfl

/-- A transport error is logged, and stops the host where it is fatal. -/
theorem send_of_transportError {kind : TransportKind}
    (h : (nextAnswer s.gen.sends (Config.sendResult s.free c.ifName frame)).1 = .transportError kind) :
    send c dst frame s =
      ((s.handedOn c frame).addLog fun time => .sendFailed dst frame.length time kind).setMode
        (if s.gen.isFatal kind then .stopped (some (.transportError kind))
          else .running c (.logging dst frame.length)) := by
  unfold send
  dsimp only
  rw [h]
  dsimp only
  split <;> rfl

end

theorem pollStop_mode (c : GeneratorConfig) (s : State) : (pollStop c s).gen.mode =
    if (nextAnswer s.gen.stops (Config.stopSignal s.free)).1 then .stopped none else .running c .selecting := rfl

@[simp] theorem pollStop_log (c : GeneratorConfig) (s : State) : (pollStop c s).gen.log = s.gen.log := rfl

section
variable {c : GeneratorConfig} (dst : Destination) (len : Nat) (s : State)

theorem logSend_of_interval_zero (h : c.interval = 0) :
    logSend c dst len s = pollStop c (s.addLog fun time => .sent dst len time) := if_pos h

theorem logSend_of_interval_ne_zero (h : c.interval ≠ 0) :
    logSend c dst len s = (s.addLog fun time => .sent dst len time).setMode (.running c .suspended) := if_neg h

/-- Every send is logged, whatever follows (60_exceptions.md R226). -/
theorem logSend_log : (logSend c dst len s).gen.log = .sent dst len s.tick.1 :: s.gen.log := by
  by_cases h : c.interval = 0
  · rw [logSend_of_interval_zero dst len s h, pollStop_log, addLog_log]
  · rw [logSend_of_interval_ne_zero dst len s h, setMode_log, addLog_log]

end

/-! ### The host's transitions (60_exceptions.md R221) -/

theorem running_of_hostState {m : Mode} (h : m.hostState = .running) : ∃ c p, m = .running c p := by
  cases m with
  | running c p => exact ⟨c, p, rfl⟩
  | idle | starting | configuring | validating | constructionFailed | stopped => cases h

theorem stopped_of_hostState {m : Mode} (h : m.hostState = .stopped) : ∃ e, m = .stopped e := by
  cases m with
  | stopped e => exact ⟨e, rfl⟩
  | idle | starting | configuring | validating | constructionFailed | running => cases h

theorem startGenerator_idle {s : State} (c : GeneratorConfig) (h : s.gen.mode = .idle) :
    startGenerator c s = s.setMode (.starting c) := by
  unfold startGenerator
  rw [h]

/-- A start outside Idle is ignored (log 14). -/
theorem startGenerator_of_ne_idle {s : State} (c : GeneratorConfig) (h : s.gen.mode ≠ .idle) :
    startGenerator c s = s := by
  unfold startGenerator
  split
  · exact absurd ‹_› h
  · rfl

/-- What a step does to the host agent: it leaves it, starts it in Idle, or is the agent's own step. -/
theorem step_gen {s t : State} (h : step s = .next t) :
    t.gen = s.gen ∨ (s.gen.mode = .idle ∧ ∃ c, t.gen.mode = .starting c) ∨
      (s.pending = [] ∧ hostStep s = .next t) := by
  obtain ⟨-, ⟨a, rest, -, haccess⟩ | ⟨rest, -, rfl⟩ | ⟨c, rest, -, rfl⟩ | hhost⟩ := step_cases h
  · obtain ⟨b, n, r, hperform⟩ := perform_frame a { s with pending := rest }
    cases hperform.symm.trans haccess
    exact .inl rfl
  · exact .inl rfl
  · by_cases hidle : s.gen.mode = .idle
    · exact .inr (.inl ⟨hidle, c, by rw [startGenerator_idle (s := { s with pending := rest }) c hidle, setMode_mode]⟩)
    · exact .inl (by rw [startGenerator_of_ne_idle (s := { s with pending := rest }) c hidle])
  · exact .inr (.inr hhost)

/-- Construction with configuration `c` has done its last step: the configuration is written, and where there is a
template, VALIDATE has found no error in it (60_exceptions.md R222). -/
def Constructed (s : State) (c : GeneratorConfig) : Prop :=
  s.gen.mode = .configuring c ∨
    (s.gen.mode = .validating c ∧ ∃ w earlier, s.replies = .data w :: earlier ∧ statusErr w = false)

/-- The host agent before `Running` stays there, or starts its first iteration from a construction that is done. -/
theorem hostStep_before_running {s t : State} (hidle : s.gen.mode.hostState = .idle) (h : hostStep s = .next t) :
    t.gen.mode.hostState = .idle ∨ ∃ c, t.gen.mode = .running c .selecting ∧ Constructed s c := by
  cases hmode : s.gen.mode with
  | idle =>
    cases (hostStep_idle hmode).symm.trans h
    exact .inl hidle
  | starting c => exact .inl (construct_hostState ((hostStep_starting hmode).symm.trans h))
  | configuring c =>
    cases (hostStep_configuring hmode).symm.trans h
    exact .inr ⟨c, rfl, .inl hmode⟩
  | validating c =>
    obtain ⟨w, earlier, hreply, ⟨hok, hdone⟩ | ⟨-, e, -, hfailed⟩⟩ :=
      onStatus_cases ((hostStep_validating hmode).symm.trans h)
    · cases hdone
      exact .inr ⟨c, rfl, .inr ⟨hmode, w, earlier, hreply, hok⟩⟩
    · cases hfailed
      exact .inl rfl
  | constructionFailed e =>
    cases (hostStep_constructionFailed hmode).symm.trans h
    exact .inl hidle
  | running c p =>
    rw [hmode] at hidle
    cases hidle
  | stopped e =>
    rw [hmode] at hidle
    cases hidle

/-- A send that stops the host had a fatal answer (60_exceptions.md R225). -/
theorem send_stopCause {c : GeneratorConfig} {dst : Destination} {frame : List Byte} {s : State}
    (hphase : s.gen.mode = .running c (.sending dst frame))
    (hstop : (send c dst frame s).gen.mode.hostState = .stopped) : StopCause s (send c dst frame s).gen.mode := by
  cases hanswer : (nextAnswer s.gen.sends (Config.sendResult s.free c.ifName frame)).1 with
  | ok =>
    rw [send_of_ok hanswer] at hstop
    cases hstop
  | transportError kind =>
    rw [send_of_transportError hanswer, setMode_mode] at hstop ⊢
    split at hstop
    · exact .fatalTransport c dst frame kind hphase hanswer ‹_› (if_pos ‹_›)
    · cases hstop

/-- A suspension point that stops the host had a stop signal (60_exceptions.md R228). -/
theorem signal_of_pollStop_stopped {c : GeneratorConfig} {s : State}
    (hstop : (pollStop c s).gen.mode.hostState = .stopped) :
    (nextAnswer s.gen.stops (Config.stopSignal s.free)).1 = true ∧ (pollStop c s).gen.mode = .stopped none := by
  rw [pollStop_mode] at hstop ⊢
  split at hstop
  · exact ⟨‹_›, if_pos ‹_›⟩
  · cases hstop

/-- Each phase that stops a running host has a cause for it. -/
theorem iterate_stopCause {c : GeneratorConfig} {p : Phase} {s t : State} (hphase : s.gen.mode = .running c p)
    (h : iterate c s p = .next t) (hstop : t.gen.mode.hostState = .stopped) : StopCause s t.gen.mode := by
  cases p with
  | selecting =>
    obtain ⟨dst, hmode, -⟩ := select_cases h
    rw [hmode] at hstop
    cases hstop
  | marshalling dst =>
    obtain ⟨w, earlier, hreply, ⟨-, hdone⟩ | ⟨herr, e, he, hfailed⟩⟩ := onStatus_cases h
    · cases hdone
      cases hstop
    · cases hfailed
      exact .blockError c dst w earlier e hphase hreply herr he rfl
  | sizing dst =>
    obtain ⟨w, -, -, h⟩ := onReply_cases h
    cases h
    cases hstop
  | collecting dst len =>
    unfold iterate at h
    dsimp only at h
    split at h <;> cases h
    cases hstop
  | sending dst frame =>
    cases h
    exact send_stopCause hphase hstop
  | logging dst len =>
    cases h
    by_cases hinterval : c.interval = 0
    · rw [logSend_of_interval_zero dst len s hinterval] at hstop ⊢
      obtain ⟨hsignal, hmode⟩ := signal_of_pollStop_stopped hstop
      exact .signalWithoutSuspension c dst len hphase hinterval hsignal hmode
    · rw [logSend_of_interval_ne_zero dst len s hinterval] at hstop
      cases hstop
  | suspended =>
    cases h
    obtain ⟨hsignal, hmode⟩ := signal_of_pollStop_stopped hstop
    exact .signalAtSuspension c hphase hsignal hmode

theorem hostState_ne_idle_of_runsOrStops {c : GeneratorConfig} {m : Mode} (h : RunsOrStops c m) :
    m.hostState ≠ .idle := by
  obtain ⟨p, rfl⟩ | ⟨e, rfl⟩ := h <;> nofun

section
variable {s t : State} (h : step s = .next t)
include h

/-- A step from before `Running` stays there, or is the host's own into its first iteration. -/
theorem step_before_running (hidle : s.gen.mode.hostState = .idle) :
    t.gen.mode.hostState = .idle ∨ (s.pending = [] ∧ ∃ c, t.gen.mode = .running c .selecting ∧ Constructed s c) := by
  obtain hgen | ⟨-, c, hstart⟩ | ⟨hempty, hhost⟩ := step_gen h
  · exact .inl (by rw [hgen, hidle])
  · exact .inl (by rw [hstart, Mode.hostState])
  · exact (hostStep_before_running hidle hhost).imp_right fun hrun => ⟨hempty, hrun⟩

/-- A step that stops a running host is the host's own, with a cause. -/
theorem step_stopCause (hrun : s.gen.mode.hostState = .running) (hstop : t.gen.mode.hostState = .stopped) :
    s.pending = [] ∧ StopCause s t.gen.mode := by
  obtain hgen | ⟨hidle, -⟩ | ⟨hempty, hhost⟩ := step_gen h
  · rw [hgen, hrun] at hstop
    cases hstop
  · rw [hidle] at hrun
    cases hrun
  · obtain ⟨c, p, hphase⟩ := running_of_hostState hrun
    exact ⟨hempty, iterate_stopCause hphase ((hostStep_running hphase).symm.trans hhost) hstop⟩

/-- Stopped is terminal. -/
theorem step_stopped_gen (hstopped : s.gen.mode.hostState = .stopped) : t.gen = s.gen := by
  obtain hgen | ⟨hidle, -⟩ | ⟨-, hhost⟩ := step_gen h
  · exact hgen
  · rw [hidle] at hstopped
    cases hstopped
  · obtain ⟨e, hmode⟩ := stopped_of_hostState hstopped
    cases (hostStep_stopped hmode).symm.trans hhost
    rfl

/-- A failed construction stays failed (log 14). -/
theorem step_constructionFailed {e : HostError} (hfailed : s.gen.mode = .constructionFailed e) :
    t.gen.mode = .constructionFailed e := by
  obtain hgen | ⟨hidle, -⟩ | ⟨-, hhost⟩ := step_gen h
  · rw [hgen, hfailed]
  · cases hfailed.symm.trans hidle
  · cases (hostStep_constructionFailed hfailed).symm.trans hhost
    exact hfailed

end

/-- Settles O51: before `Running` a host stays there or starts its first iteration, a running one goes on or stops for
a cause, and a stopped one does nothing. -/
theorem hostTransitions : Obligations.HostTransitions := by
  unfold Obligations.HostTransitions
  refine ⟨fun s t h => ⟨fun hidle hstop => ?_, fun hidle hrun => ?_, fun hrun => ?_, step_stopCause h,
    step_stopped_gen h⟩, fun s c hmaster hpending hmode => ?_⟩
  · obtain hstays | ⟨-, c, hmode, -⟩ := step_before_running h hidle
    · cases hstop.symm.trans hstays
    · rw [hmode] at hstop
      cases hstop
  · obtain hstays | hstarts := step_before_running h hidle
    · cases hrun.symm.trans hstays
    · exact hstarts
  · obtain ⟨c, p, hphase⟩ := running_of_hostState hrun
    exact hostState_ne_idle_of_runsOrStops (step_running hphase h)
  · rw [step_host hmaster hpending, hostStep_configuring hmode]

/-! ### One step of the host agent, mode by mode -/

section
variable {s : State} {c : GeneratorConfig} (hmaster : s.params.multiMaster = false) (hpending : s.pending = [])
include hmaster hpending

theorem step_of_starting (hmode : s.gen.mode = .starting c) : step s = construct c s :=
  (step_host hmaster hpending).trans (hostStep_starting hmode)

theorem step_of_running {p : Phase} (hmode : s.gen.mode = .running c p) : step s = iterate c s p :=
  (step_host hmaster hpending).trans (hostStep_running hmode)

end

/-- Settles O52: the pool is looked at before anything is issued, and a failed construction does nothing more. -/
theorem emptyPoolFailsConstruction : Obligations.EmptyPoolFailsConstruction := by
  unfold Obligations.EmptyPoolFailsConstruction
  refine ⟨fun s c hmaster hpending hmode hpool => ?_, fun s t e hfailed h => step_constructionFailed h hfailed⟩
  rw [step_of_starting hmaster hpending hmode, construct_of_pool_nil s hpool]
  exact ⟨_, s.tick.1, rfl, rfl, hpending, rfl, rfl, rfl⟩

/-- Settles O53: with a template its header and VALIDATE follow the configuration's registers. -/
theorem constructionWritesTheConfiguration : Obligations.ConstructionWritesTheConfiguration := by
  unfold Obligations.ConstructionWritesTheConfiguration
  intro s c hmaster hpending hmode hpool
  rw [step_of_starting hmaster hpending hmode]
  refine ⟨fun h htemplate => ⟨_, construct_of_template s hpool htemplate, rfl, ?_⟩,
    fun htemplate => ⟨_, construct_of_no_template s hpool htemplate, rfl, ?_⟩⟩
  · rw [setMode_pending, issue_pending_of_nil hpending, setupLines_eq, commandLines_eq, htemplate,
      ← List.append_assoc]
    rfl
  · rw [setMode_pending, issue_pending_of_nil hpending, setupLines_eq, htemplate]
    rfl

/-- Settles O54: the host goes on with what STATUS says of its VALIDATE. -/
theorem templateValidationDecidesConstruction : Obligations.TemplateValidationDecidesConstruction := by
  unfold Obligations.TemplateValidationDecidesConstruction
  intro s c w earlier hmaster hpending hmode hreply
  rw [step_host hmaster hpending, hostStep_validating hmode]
  refine ⟨fun hok => onStatus_of_ok hreply hok _ _, fun f herror => ?_⟩
  rw [onStatus_of_error hreply (herror.trans (statusWord_rangeError f).symm)]
  exact ⟨_, s.tick.1, rfl, rfl, rfl, rfl⟩

/-- Settles O57: the frame is handed on before the answer is looked at. -/
theorem transportErrorsStopOnlyWhenFatal : Obligations.TransportErrorsStopOnlyWhenFatal := by
  unfold Obligations.TransportErrorsStopOnlyWhenFatal
  intro s c dst frame r later hmaster hpending hmode hanswer
  obtain ⟨hfirst, hrest⟩ := Prod.mk.inj hanswer
  rw [step_of_running hmaster hpending hmode]
  cases r with
  | ok => exact ⟨_, congrArg _ (send_of_ok hfirst), rfl, hpending, rfl, hrest, fun _ => ⟨rfl, rfl⟩, nofun⟩
  | transportError kind =>
    refine ⟨_, congrArg _ (send_of_transportError hfirst), rfl, hpending, rfl, hrest, nofun, ?_⟩
    rintro _ ⟨⟩
    exact ⟨(s.handedOn c frame).tick.1, rfl, fun hfatal => if_pos hfatal, fun hother => if_neg (by simp [hother])⟩

/-- Settles O58: the record is written first, and with INTERVAL = 0 the signal is polled in the same step. -/
theorem everySendIsLogged : Obligations.EverySendIsLogged := by
  unfold Obligations.EverySendIsLogged
  intro s c dst len hmaster hpending hmode
  rw [step_of_running hmaster hpending hmode]
  refine ⟨_, s.tick.1, rfl, (hostFrame_logSend c dst len s).block, logSend_log dst len s, fun hinterval => ?_,
    fun hinterval stop later hsignal => ?_⟩
  · rw [logSend_of_interval_ne_zero dst len s hinterval, setMode_mode]
  · rw [logSend_of_interval_zero dst len s hinterval, pollStop_mode, addLog_stops, addLog_free, hsignal]

/-- Settles O59: the suspension ends with a poll of the signal. -/
theorem cancellationEndsTheSuspension : Obligations.CancellationEndsTheSuspension := by
  unfold Obligations.CancellationEndsTheSuspension
  intro s c stop later hmaster hpending hmode hsignal
  rw [step_of_running hmaster hpending hmode]
  refine ⟨_, rfl, rfl, hpending, rfl, ?_⟩
  rw [pollStop_mode, hsignal]

end Sys2Proof.Machine

namespace Sys2Proof.Machine

/-! ### Selecting a destination (60_exceptions.md R223, R224) -/

/-- A draw names a member of a pool that has one. -/
theorem exists_drawnDestination {c : GeneratorConfig} (hpool : c.pool ≠ []) (draw : Nat) :
    ∃ dst, drawnDestination c draw = some dst :=
  ⟨_, List.getElem?_eq_getElem (Nat.mod_lt draw (List.length_pos_of_ne_nil hpool))⟩

theorem drawnDestination_of_lt {c : GeneratorConfig} {draw : Nat} (h : draw < c.pool.length) :
    drawnDestination c draw = c.pool[draw]? := by
  rw [drawnDestination, Nat.mod_eq_of_lt h]

theorem drawnDestination_singleton {c : GeneratorConfig} {a : Destination} (h : c.pool = [a]) (draw : Nat) :
    drawnDestination c draw = some a := by
  simp [drawnDestination, h, Nat.mod_one]

theorem lenOf_eq_mod (w : Word) : lenOf w = w.toNat % 2 ^ 16 := rfl

theorem lengthIsSeen_iff {p : Params} {n : Nat} :
    lengthIsSeen p n = true ↔ n ≤ p.l3Max ∨ n < 2 ^ 32 ∧ p.l3Max < n % 2 ^ 16 := by
  simp [lengthIsSeen]

/-- Settles O55: the drawn member's bytes go into LDBUF, whose length is as LDBUF says wherever MARSHAL can tell from it
that there are too many. -/
theorem iterationMarshalsTheDrawnDestination : Obligations.IterationMarshalsTheDrawnDestination := by
  unfold Obligations.IterationMarshalsTheDrawnDestination
  intro s c draw draws hmaster hpending hmode hanswer hpool
  obtain ⟨hfirst, hrest⟩ := Prod.mk.inj hanswer
  rw [step_of_running hmaster hpending hmode]
  have hselect {dst : Destination} (hdrawn : drawnDestination c draw = some dst) :=
    select_of_drawn (c := c) (s := s) (hfirst.symm ▸ hdrawn)
  refine ⟨?_, fun a ha => ⟨_, hselect (drawnDestination_singleton ha draw), rfl⟩⟩
  obtain ⟨dst, hdrawn⟩ := exists_drawnDestination hpool draw
  refine ⟨_, dst, hselect hdrawn, hdrawn, fun hlt => (drawnDestination_of_lt hlt).symm.trans hdrawn, rfl, rfl, hrest,
    ⟨hostLengthWord s.params (s.gen.serialize c dst).length, l3Max_lt_hostLengthWord _ _, ?_⟩, fun hseen => ?_⟩
  all_goals rw [setMode_pending, issue_pending, State.drawn, hpending, List.nil_append, commandLines_eq]
  · rw [← List.append_assoc]
    rfl
  · rw [hostLdBuf_of_seen (lengthIsSeen_iff.mpr hseen), List.append_assoc]

/-! ### LDBUF as the host issues it (60_exceptions.md R223, R229) -/

/-- The writes of the host's LDBUF. -/
def hostL3Writes (p : Params) (bytes : List Byte) : List (Target × Word) :=
  bufWrites .l3buf bytes ((bytes.length + 3) / 4) ++ [(.reg .l3len, hostLengthWord p bytes.length)]

theorem hostLdBuf_eq_writeLines (p : Params) (bytes : List Byte) :
    hostLdBuf p bytes = writeLines (hostL3Writes p bytes) := by
  rw [hostLdBuf, ldBuf_eq_writeLines, hostL3Writes, writeLines, writeLines, List.map_append]
  rfl

@[simp] theorem hostL3Writes_length (p : Params) (bytes : List Byte) :
    (hostL3Writes p bytes).length = (bytes.length + 3) / 4 + 1 := by simp [hostL3Writes]

/-- No write of the host's LDBUF is to CMD. -/
theorem hostL3Writes_offset_ne_zero {p : Params} {bytes : List Byte} {w : Target × Word}
    (hw : w ∈ hostL3Writes p bytes) : Target.offset w.1 ≠ 0x0000 := by
  rcases List.mem_append.mp hw with hw | hw
  · exact l3Writes_offset_ne_zero (List.mem_append_left _ hw)
  · rw [List.mem_singleton.mp hw]
    exact offset_ne_zero (r := .l3len) nofun

/-- The block as the host's LDBUF leaves it: the layer-3 bytes that L3BUF holds, and the low 16 bits of the length. -/
def Block.withHostL3 (p : Params) (b : Block) (bytes : List Byte) : Block :=
  (b.store l3bufBase (paddedBytes bytes (min (4 * ((bytes.length + 3) / 4)) p.l3Max))).setReg .l3len
    (hostLengthWord p bytes.length &&& 0x0000FFFF)

theorem afterWrites_hostL3Writes (p : Params) (b : Block) (bytes : List Byte) :
    b.afterWrites p (hostL3Writes p bytes) = b.withHostL3 p bytes := by
  rw [hostL3Writes, afterWrites_concat, afterWrites_l3buf]
  have hwritten : Reg.l3len.written (hostLengthWord p bytes.length) =
      some (hostLengthWord p bytes.length &&& 0x0000FFFF) := written_half (by decide) _
  exact writeWord_reg hwritten p _

section
variable (p : Params) (b : Block) (bytes : List Byte)

theorem withHostL3_hdrOf : (b.withHostL3 p bytes).hdrOf = b.hdrOf := by
  rw [Block.withHostL3, setReg_hdrOf_control _ _ (by decide), store_hdrOf]

/-- MARSHAL finds in L3LEN whether there are more than L3_MAX bytes (60_exceptions.md R229). -/
theorem l3Max_lt_withHostL3_l3len : p.l3Max < lenOf (b.withHostL3 p bytes).l3len ↔ p.l3Max < bytes.length := by
  have hlow : (b.withHostL3 p bytes).l3len = ((hostLengthWord p bytes.length).extractLsb' 0 16).setWidth 32 :=
    (setWidth_extractLsb'_eq_and _ (n := 16) (by decide)).symm
  rw [hlow, lenOf_eq_mod, BitVec.toNat_setWidth_of_le (by decide), BitVec.extractLsb'_toNat, Nat.shiftRight_zero,
    Nat.mod_mod]
  exact l3Max_lt_hostLengthWord p bytes.length

end

/-! ### MARSHAL and the read of its outcome (60_exceptions.md R223) -/

/-- With a header in range, as far as it is read, MARSHAL fails on the length alone. -/
theorem marshal_status {s : State} (hrange : BierEn s.block → InRange s.block.hdrOf) :
    (s.block.finish (commandResult s.params s.block .marshal)).status =
      if s.params.l3Max < lenOf s.block.l3len then CmdError.statusWord (.lengthError .l3Length) else 0x00000001 := by
  split
  · have hfails := (exec_eq_finish .marshal s).symm.trans (exec_marshal_of_l3Max_lt hrange ‹_›)
    exact congrArg (fun t : State => t.block.status) (Host.Outcome.next.inj hfails)
  · obtain ⟨frame, hframe⟩ : ∃ frame, s.block.frame = .ok frame := by
      by_cases hen : BierEn s.block
      · exact ⟨_, frame_of_bierEn hen (hrange hen)⟩
      · exact ⟨_, frame_of_not_bierEn hen⟩
    rw [commandResult_marshal hframe (Nat.le_of_not_lt ‹_›)]
    rfl

/-- A run of `m + n` steps is a run of `m` and then one of `n`. -/
theorem core_run_add {s t : State} {m : Nat} (h : Host.Core.run core m s = .next t) (n : Nat) :
    Host.Core.run core (m + n) s = Host.Core.run core n t := by
  induction m generalizing s with
  | zero =>
    cases h
    rw [Nat.zero_add]
  | succ m ih =>
    rw [Nat.add_right_comm]
    simp only [Host.Core.run] at h ⊢
    cases hstep : core.step s with
    | next s' =>
      rw [hstep] at h
      exact ih h
    | fault r =>
      rw [hstep] at h
      cases h
    | refused r =>
      rw [hstep] at h
      cases h

theorem core_run_one {s t : State} (h : step s = .next t) : Host.Core.run core 1 s = .next t :=
  core_run_succ h 0

/-- A command and the read of STATUS are answered OK and with the STATUS that the command leaves. -/
theorem run_commandLines {s : State} {i : Instr} (hmaster : s.params.multiMaster = false)
    (hpending : s.pending = accesses s.params (commandLines i)) :
    Host.Core.run core 2 s = .next { s with
      pending := []
      block := s.block.finish (commandResult s.params s.block i)
      replies := .data (s.block.finish (commandResult s.params s.block i)).status :: .ok :: s.replies } := by
  have hcmd : Issued s (wordAccess s.params 0x0000 (.write (encode i))) (accesses s.params [.rd (.reg .status)]) :=
    ⟨hmaster, hpending⟩
  have hrun := step_write_cmd hcmd
  rw [command_of_decode_ok (decode_encode i), exec_eq_finish, State.finish, mapNext_next] at hrun
  rw [core_run_succ hrun]
  exact core_run_one (step_read_slot_of_no_draw (slot := .reg .status) trivial rfl ⟨hmaster, rfl⟩)

/-- The host's LDBUF and MARSHAL end with the read of an outcome that tells whether there were too many bytes
(60_exceptions.md R229). -/
theorem run_hostMarshal {s : State} {bytes : List Byte} (hmaster : s.params.multiMaster = false)
    (hpending : s.pending = accesses s.params (hostLdBuf s.params bytes ++ commandLines .marshal))
    (hrange : BierEn s.block → InRange s.block.hdrOf) :
    ∃ t earlier, Host.Core.run core ((bytes.length + 3) / 4 + 3) s = .next t ∧ t.pending = [] ∧ t.gen = s.gen ∧
      t.replies = .data (if s.params.l3Max < bytes.length then CmdError.statusWord (.lengthError .l3Length)
        else 0x00000001) :: earlier := by
  rw [accesses_append, hostLdBuf_eq_writeLines] at hpending
  have hload := run_writes _ hmaster hpending fun w hw => hostL3Writes_offset_ne_zero hw
  rw [hostL3Writes_length, afterWrites_hostL3Writes] at hload
  have hstatus := marshal_status (s := { s with block := s.block.withHostL3 s.params bytes }) fun hen => by
    rw [withHostL3_hdrOf]
    exact hrange hen
  simp only [l3Max_lt_withHostL3_l3len] at hstatus
  refine ⟨_, _, (core_run_add hload 2).trans (run_commandLines (by exact hmaster) rfl), rfl, rfl,
    congrArg (Reply.data · :: _) hstatus⟩

/-- Settles O56: the host stops on the error that STATUS carries; the length it has written lets MARSHAL tell whether
there are too many bytes, and the header does not fail. -/
theorem blockErrorStopsTheHost : Obligations.BlockErrorStopsTheHost := by
  unfold Obligations.BlockErrorStopsTheHost
  refine ⟨fun s c dst w earlier hmaster hpending hmode hreply => ⟨fun hok => ?_, fun e herror => ?_⟩,
    fun s c dst hmaster hpending hmode hdrawn hrange => ?_⟩
  · refine ⟨_, (step_of_running hmaster hpending hmode).trans (onStatus_of_ok hreply hok _ _), rfl, ?_⟩
    exact issue_pending_of_nil hpending _
  · exact ⟨_, s.tick.1, (step_of_running hmaster hpending hmode).trans (onStatus_of_error hreply herror _ _), rfl,
      hpending, rfl, rfl⟩
  · have hselect := (step_of_running hmaster hpending hmode).trans (select_of_drawn hdrawn)
    have hissued : (s.drawn.issue (hostLdBuf s.params (s.gen.serialize c dst) ++ commandLines .marshal)).pending =
        accesses s.params (hostLdBuf s.params (s.gen.serialize c dst) ++ commandLines .marshal) := by
      rw [issue_pending, State.drawn, hpending, List.nil_append]
    obtain ⟨t, earlier, hrun, hdone, hgen, hreplies⟩ := run_hostMarshal
      (s := (s.drawn.issue (hostLdBuf s.params (s.gen.serialize c dst) ++ commandLines .marshal)).setMode
        (.running c (.marshalling dst))) hmaster hissued hrange
    exact ⟨t, earlier, (core_run_succ hselect _).trans hrun, hdone, congrArg Generator.mode hgen, hreplies⟩

/-! ### Collecting the frame (60_exceptions.md R223 step 2, 20_memory.md R67) -/

/-- The bytes of a sequence of words are their lanes. -/
theorem getElem?_flatten_be32 (words : List Word) {k : Nat} (hk : k < 4 * words.length) :
    (words.map fun w => be32 w.toNat).flatten[k]? = some ((words.getD (k / 4) 0).extractLsb' (24 - 8 * (k % 4)) 8) := by
  induction words generalizing k with
  | nil => exact absurd hk (Nat.not_lt_zero k)
  | cons w words ih =>
    rw [List.map_cons, List.flatten_cons]
    by_cases hfirst : k < 4
    · have hlane : k < (be32 w.toNat).length := by rwa [be32_length]
      rw [List.getElem?_append_left hlane, List.getElem?_eq_getElem hlane, getElem_be32, Nat.div_eq_of_lt hfirst,
        Nat.mod_eq_of_lt hfirst]
      rfl
    · obtain ⟨m, rfl⟩ := Nat.exists_eq_add_of_le' (Nat.le_of_not_lt hfirst)
      rw [List.length_cons] at hk
      rw [List.getElem?_append_right (by rw [be32_length]; omega), be32_length, Nat.add_sub_cancel, ih (by omega),
        Nat.add_div_right _ (by decide), Nat.add_mod_right]
      rfl

/-- Words whose lanes are a frame's bytes give the frame. -/
theorem frameOfWords_eq {words : List Word} {frame : List Byte} (hlength : words.length = (frame.length + 3) / 4)
    (hlanes : ∀ k < frame.length, (words.getD (k / 4) 0).extractLsb' (24 - 8 * (k % 4)) 8 = frame.getD k 0) :
    frameOfWords words frame.length = frame := by
  apply List.ext_getElem?
  intro k
  rw [frameOfWords, List.getElem?_take]
  split
  · rw [getElem?_flatten_be32 words (by omega), hlanes k ‹_›, List.getD_eq_getElem _ _ ‹_›,
      List.getElem?_eq_getElem ‹_›]
  · rw [List.getElem?_eq_none (Nat.le_of_not_lt ‹_›)]

/-- The last replies, where they are data, are the values read. -/
theorem lastData_of_data {replies earlier : List Reply} {words : List Word}
    (h : replies = (words.map Reply.data).reverse ++ earlier) : lastData replies words.length = some words := by
  have hlast : (replies.take words.length).reverse = words.map Reply.data := by
    have hlength : words.length = (words.map Reply.data).reverse.length := by simp
    rw [h, hlength, List.take_left, List.reverse_reverse]
  rw [lastData, hlast]
  rw [if_pos (List.length_map ..), List.mapM_map]
  exact (List.mapM_pure (m := Option) (l := words) (f := id)).trans (congrArg some (List.map_id words))

/-- With the frame's words read, the host goes on to send the frame. -/
theorem step_of_collecting {s : State} {c : GeneratorConfig} {dst : Destination} {frame : List Byte}
    {earlier : List Reply} {words : List Word} (hmaster : s.params.multiMaster = false) (hpending : s.pending = [])
    (hmode : s.gen.mode = .running c (.collecting dst frame.length)) (hlength : words.length = (frame.length + 3) / 4)
    (hlanes : ∀ k < frame.length, (words.getD (k / 4) 0).extractLsb' (24 - 8 * (k % 4)) 8 = frame.getD k 0)
    (hreplies : s.replies = (words.map Reply.data).reverse ++ earlier) :
    step s = .next (s.setMode (.running c (.sending dst frame))) := by
  have hdata := lastData_of_data hreplies
  rw [hlength] at hdata
  rw [step_of_running hmaster hpending hmode]
  simp only [iterate, hdata, frameOfWords_eq hlength hlanes]

/-- The machine after reads of FBUF: the words read are the newest replies, and beside them only the number of free
values drawn has changed. -/
structure WordsRead (s : State) (rest : List Input) (js : List Nat) (words : List Word) (t : State) : Prop where
  params  : t.params = s.params
  block   : t.block = s.block
  gen     : t.gen = s.gen
  pending : t.pending = rest
  values  : List.Forall₂ (fun j w => ∃ draw, w = s.block.fbufWord s.params draw j) js words
  replies : t.replies = (words.map Reply.data).reverse ++ s.replies

theorem WordsRead.cons {s t u : State} {rest rest' : List Input} {j : Nat} {js : List Nat} {w : Word}
    {words : List Word} (h : WordsRead s rest' [j] [w] t) (h' : WordsRead t rest js words u) :
    WordsRead s rest (j :: js) (w :: words) u where
  params  := h'.params.trans h.params
  block   := h'.block.trans h.block
  gen     := h'.gen.trans h.gen
  pending := h'.pending
  values  := .cons (List.forall₂_cons.mp h.values).1 (by
    have hvalues := h'.values
    rwa [h.block, h.params] at hvalues)
  replies := by rw [h'.replies, h.replies]; simp

theorem step_fbufRead {s : State} {rest : List Input} {j : Nat} (hj : j < s.params.frameWords)
    (h : Issued s (wordAccess s.params (fbufBase + 4 * j) .read) rest) :
    ∃ t w, step s = .next t ∧ WordsRead s rest [j] [w] t :=
  ⟨_, _, step_read_fbuf hj h, busRead_params .., busRead_block .., busRead_gen .., busRead_pending ..,
    .cons ⟨_, rfl⟩ .nil, busRead_replies ..⟩

/-- Reads of FBUF run to their end. -/
theorem run_fbufReads {s : State} (js : List Nat) (hmaster : s.params.multiMaster = false)
    (hmapped : ∀ j ∈ js, j < s.params.frameWords)
    (hpending : s.pending = accesses s.params (js.map fun j => .rd (.fbuf j))) :
    ∃ t words, Host.Core.run core js.length s = .next t ∧ WordsRead s [] js words t := by
  induction js generalizing s with
  | nil => exact ⟨s, [], rfl, rfl, rfl, rfl, hpending, .nil, rfl⟩
  | cons j js ih =>
    obtain ⟨t, w, hstep, hread⟩ := step_fbufRead (hmapped j List.mem_cons_self) ⟨hmaster, hpending⟩
    obtain ⟨u, words, hrun, hreads⟩ := ih (s := t) (by rw [hread.params, hmaster])
      (fun i hi => by rw [hread.params]; exact hmapped i (List.mem_cons_of_mem j hi))
      (by rw [hread.params, hread.pending]; rfl)
    exact ⟨u, w :: words, (core_run_succ hstep _).trans hrun, hread.cons hreads⟩

theorem getD_bytes (b : Block) (a : Nat) {n k : Nat} (hk : k < n) : (b.bytes a n).getD k 0 = b.byte (a + k) := by
  rw [List.getD_eq_getElem _ _ (by rwa [bytes_length]), getElem_bytes]

/-- Once the words of the last frame are read, their lanes below FLEN.LEN are the bytes of FBUF (10_state.md R36). -/
theorem WordsRead.lane {s t : State} {rest : List Input} {words : List Word}
    (h : WordsRead s rest (List.range ((lenOf s.block.flen + 3) / 4)) words t)
    (hmax : lenOf s.block.flen ≤ s.params.frameMax) {k : Nat} (hk : k < lenOf s.block.flen) :
    (words.getD (k / 4) 0).extractLsb' (24 - 8 * (k % 4)) 8 =
      (s.block.bytes fbufBase (lenOf s.block.flen)).getD k 0 := by
  have hj : k / 4 < (List.range ((lenOf s.block.flen + 3) / 4)).length := by
    rw [List.length_range]
    omega
  have hword : k / 4 < words.length := h.values.length_eq ▸ hj
  obtain ⟨draw, hdraw⟩ := h.values.get hj hword
  simp only [List.get_eq_getElem, List.getElem_range] at hdraw
  rw [List.getD_eq_getElem _ _ hword, hdraw, fbufWord_lane _ _ _ _ (Nat.mod_lt k (by decide)), Nat.div_add_mod,
    fbufByte_of_lt draw hk (hk.trans_le hmax), getD_bytes _ _ hk]

/-- The host's answer to FLEN: it issues the reads of the frame's words. -/
theorem step_of_sizing {s : State} {c : GeneratorConfig} {dst : Destination} {w : Word} {earlier : List Reply}
    (hmaster : s.params.multiMaster = false) (hpending : s.pending = [])
    (hmode : s.gen.mode = .running c (.sizing dst)) (hreply : s.replies = .data w :: earlier) :
    step s = .next ((s.issue (frameReads (lenOf w))).setMode (.running c (.collecting dst (lenOf w)))) :=
  (step_of_running hmaster hpending hmode).trans (onReply_of_data hreply _)

/-- Settles O60: the reads that FLEN asks for run to their end and bring the words of FBUF, whose lanes below FLEN.LEN
are its bytes. -/
theorem collectedFrameIsTheBuffersBytes : Obligations.CollectedFrameIsTheBuffersBytes := by
  unfold Obligations.CollectedFrameIsTheBuffersBytes
  refine ⟨fun s c dst w earlier hmaster hpending hmode hreply => ?_,
    fun s c dst frame earlier words => step_of_collecting, fun s c dst earlier hmaster hpending hmode hreply hmax => ?_⟩
  · exact ⟨_, step_of_sizing hmaster hpending hmode hreply, rfl, rfl, rfl, issue_pending_of_nil hpending _⟩
  · have hsizing := step_of_sizing hmaster hpending hmode hreply
    have hmapped (j : Nat) (hj : j ∈ List.range ((lenOf s.block.flen + 3) / 4)) : j < s.params.frameWords := by
      have hj := List.mem_range.mp hj
      rw [Params.frameWords]
      omega
    obtain ⟨t, words, hrun, hread⟩ := run_fbufReads (s := (s.issue (frameReads (lenOf s.block.flen))).setMode
      (.running c (.collecting dst (lenOf s.block.flen)))) _ hmaster hmapped (issue_pending_of_nil hpending _)
    have hlength := bytes_length s.block fbufBase (lenOf s.block.flen)
    have hcollecting := step_of_collecting (frame := s.block.bytes fbufBase (lenOf s.block.flen))
      (hread.params ▸ hmaster) hread.pending (by rw [hread.gen, hlength]; rfl)
      (by rw [hlength, ← hread.values.length_eq, List.length_range])
      (fun k hk => hread.lane hmax (by rwa [hlength] at hk)) hread.replies
    rw [List.length_range] at hrun
    refine ⟨t.setMode (.running c (.sending dst _)), ?_, hread.block, hread.pending, rfl⟩
    rw [core_run_succ hsizing, core_run_add hrun, core_run_one hcollecting]

end Sys2Proof.Machine

namespace Sys2Proof.Machine

/-! ### Reset and hazards (70_reset_and_hazards.md) -/

/-- Settles O30: whatever the transaction, its frame is that of an answer. -/
theorem everyTransactionCompletes : Obligations.EveryTransactionCompletes := by
  unfold Obligations.EveryTransactionCompletes
  intro s a rest hissued
  obtain ⟨_, _, _, hperform⟩ := perform_frame a { s with pending := rest }
  exact ⟨_, _, (step_access hissued).trans hperform, rfl, rfl⟩

/-- Settles O41: a read of a word of WBUF or L3BUF leaves the block, so the second finds the same four bytes. -/
theorem unwrittenBytesReadTheSameTwice : Obligations.UnwrittenBytesReadTheSameTwice := by
  unfold Obligations.UnwrittenBytesReadTheSameTwice
  intro s off rest hdata hissued
  have hnext (r : Reply) : Issued (s.answered (.access (wordAccess s.params off .read) :: rest) r)
      (wordAccess s.params off .read) rest := ⟨hissued.oneMaster, rfl⟩
  exact ⟨_, _, _, step_read_dataWord hdata hissued, step_read_dataWord hdata (hnext _), rfl, rfl⟩

/-- Every reset leaves the same register values: only the draws of the buffer bytes are fresh (10_state.md R37). -/
theorem reg_reset (epoch : Nat) (r : Reg) : (Block.reset epoch).reg r = (Block.reset 0).reg r := by
  cases r <;> rfl

/-- No byte is stored right after reset, so each is its reset's draw (10_state.md R37). -/
theorem byte_reset (epoch a : Nat) : (Block.reset epoch).byte a = Config.powerOnByte epoch a := rfl

/-- Settles O43: the reset input counts one more reset and takes the block that follows it. -/
theorem resetInputReplacesTheBlock : Obligations.ResetInputReplacesTheBlock := by
  unfold Obligations.ResetInputReplacesTheBlock
  exact fun s rest hmaster hpending => ⟨_, step_reset hmaster hpending, rfl, reg_reset _, byte_reset _⟩

end Sys2Proof.Machine
